-- ==== Sys2Proof/Word.lean ====
section
/-! DEFINITION. The widths of the block's values (00_scope.md rule R11): bytes and the unsigned
`u16`, `u32`, `u64`. The block has no signed quantity. -/

namespace Sys2Proof

/-- A byte, 8 bits (R11). -/
abbrev Byte := BitVec 8

/-- `u16` of R11: CRC values, `command_options`, `return_code`, `attention_code`. -/
abbrev U16 := BitVec 16

/-- `u32` of R11: lengths, checksums, counts, the interlock word. -/
abbrev U32 := BitVec 32

/-- `u64` of R11: addresses and timestamps, opaque to the block. -/
abbrev U64 := BitVec 64

end Sys2Proof
end

