-- ==== Sys2Proof/Config.lean ====
section
/-! DEFINITION. The configuration (00_scope.md rules R9, R10, 70_reset_and_hazards.md rule R316): every
parameter of R10 as a field of one record fixed for the machine, the layout numbers among them (ruling
G27 of 93_implementation_defined.md); and the free values, opaque constants without a body that nothing in
Lean can evaluate. The defaults, and what a configuration must satisfy, stand in Machine/Layout.lean. -/

namespace Sys2Proof

/-- `ICRC_RANGE` (R10, R161, 90_conflicts.md C6): the invariant part with the interlock word taken as four
zero bytes (the default: descriptor bytes 0x00 to 0x7F), or the invariant part from byte 4. -/
inductive IcrcRange
  | zeroedWord
  | fromByteFour
deriving DecidableEq, Repr

/-- Where a field stands: its first byte and its width in bytes (10_state.md rule R24). -/
structure Field where
  off : Nat
  len : Nat
deriving DecidableEq, Repr

/-- `DESC_SIZE` and `LAYOUT`: the descriptor's size and the offset and width of every field of it (R10,
20_memory.md rule R71, 30_encoding.md rule R91). -/
structure Layout where
  size : Nat
  icrc : Field
  hsi : Field
  shi : Field
  preamble : Field
  xdir : Field
  seq : Field
  acfunc : Field
  cmd : Field
  opts : Field
  sur : Field
  psp : Field
  firmware : Field
  asiv : Field
  asv : Field
  variantCrc : Field
  retc : Field
  attn : Field
  progress : Field
  completionTs : Field
  driver : Field
  dispatchTs : Field
deriving DecidableEq, Repr

/-- `SHI_NEXT`, `SHI_PURGE`, `HSI_FETCHED`, `HSI_COMPLETED` (R10, 10_state.md rules R27, R28). -/
structure FlagMasks where
  next : Byte
  purge : Byte
  fetched : Byte
  completed : Byte
deriving DecidableEq, Repr

/-- Offsets of F-PFX, the prefix both ASIV overlays share (30_encoding.md rule R104). -/
structure PrefixLayout where
  inBuff : Nat
  inBuffLen : Nat
  inCrc32 : Nat
  outBuff : Nat
  outBuffLen : Nat
  inAdler32 : Nat
  inDict : Nat
  inDictLen : Nat
deriving DecidableEq, Repr

/-- Offsets of F-IASIV behind the prefix (R105). -/
structure InflAsivLayout where
  scratch : Nat
  scratchLen : Nat
  inHdrBits : Nat
  hdrIb : Nat
  scratchIb : Nat
  outDict : Nat
  outDictLen : Nat
deriving DecidableEq, Repr

/-- Offsets of F-DASIV behind the prefix (R106). -/
structure DeflAsivLayout where
  outDict : Nat
  outDictLen : Nat
  ibits : Nat
  inumbits : Nat
deriving DecidableEq, Repr

/-- Offsets of F-IASV (R107). -/
structure InflAsvLayout where
  outDictUsed : Nat
  copyblockLen : Nat
  inflStat : Nat
  hdrStart : Nat
  hdrStartBits : Nat
  outCrc32 : Nat
  outAdler32 : Nat
  inpProcessed : Nat
  outpReturned : Nat
  outDictOffs : Nat
deriving DecidableEq, Repr

/-- Offsets of F-DASV (R108). -/
structure DeflAsvLayout where
  outDictUsed : Nat
  onumbits : Nat
  outCrc32 : Nat
  outAdler32 : Nat
  inpProcessed : Nat
  outpReturned : Nat
  otail : Nat
deriving DecidableEq, Repr

/-- `OVL_LAYOUT`: the overlay offsets (R10, R104 to R108). The widths are those of the operands of
R121. -/
structure OvlLayout where
  pfx : PrefixLayout
  iasiv : InflAsivLayout
  dasiv : DeflAsivLayout
  iasv : InflAsvLayout
  dasv : DeflAsvLayout
deriving DecidableEq, Repr

/-- The nine `OPT_*` masks of `command_options` (30_encoding.md rule R100). -/
structure OptMasks where
  ibufIndir : U16
  obufIndir : U16
  dictSave : U16
  dictRestore : U16
  stateProvided : U16
  stateSave : U16
  blockStart : U16
  blockStop : U16
  integrityCheck : U16
deriving DecidableEq, Repr

/-- The operation codes (R10, 30_encoding.md rule R120), one for each operation. "These codes exist only in
this spec." -/
structure OpCodes where
  crc16 : Byte
  format : Byte
  submitMarker : Byte
  purgeMarker : Byte
  isFetched : Byte
  isCompleted : Byte
  verifyVariantCrc : Byte
  result : Byte
  verifyInvariantCrc : Byte
  hwFetch : Byte
  hwComplete : Byte
  encInflAsiv : Byte
  encDeflAsiv : Byte
  decInflAsv : Byte
  decDeflAsv : Byte
  carry : Byte
  decInflAsiv : Byte
  decDeflAsiv : Byte
  encInflAsv : Byte
  encDeflAsv : Byte
  fifoInit : Byte
  push : Byte
  push32 : Byte
  pop : Byte
  pop16 : Byte
  used : Byte
  free : Byte
deriving DecidableEq, Repr

/-- The error codes (R10, 60_exceptions.md rule R271), one for each status an operation returns. -/
structure ErrorCodes where
  ok : Nat
  integrityError : Nat
  payloadTooLarge : Nat
  missingWorkspace : Nat
  notCompleted : Nat
  operationFailed : Nat
  stagingOverflow : Nat
  stagingUnderflow : Nat
  badOptionCombination : Nat
  badCommand : Nat
deriving DecidableEq, Repr

/-- The parameters of R10. `NDESC` is the number of descriptors in `State`; `TREE_LEN`, `RETC_ICRC_FAIL`
and `RETC_BAD_CMD` have no default and are free values below. `zipOnly` is the choice named inside R186
("the model is restricted to the compression family"). -/
structure Config where
  /-- `DESC_SIZE` and `LAYOUT`. -/
  layout : Layout
  /-- The four interlock masks. -/
  masks : FlagMasks
  /-- `OVL_LAYOUT`. -/
  ovl : OvlLayout
  /-- `DESC_ALIGN` (R67). -/
  descAlign : Nat
  /-- `SEQ_WIDTH`: width of `sequence_number` in bits (R33). -/
  seqWidth : Nat
  /-- `CRC_LEN_BITS`: width of CRC16's length operand in bits (R141). -/
  crcLenBits : Nat
  /-- `RETC_OK`: the return codes that mean success (R179, ruling G7). -/
  retcOk : List U16
  /-- `ATS_PRESENT`: the 8-byte address-translation header is in front of the payload (R93). -/
  atsPresent : Bool
  /-- `LINK_FAULTS`: HW may see or store corrupted bytes (R184, R186). -/
  linkFaults : Bool
  /-- Whether HW_COMPLETE answers `RETC_BAD_CMD` to a command no overlay knows (R186, R187). -/
  zipOnly : Bool
  icrcRange : IcrcRange
  /-- `PRE`, `XDIR`, `SUR`, `PSP`: the opaque control bytes FORMAT writes (R35). -/
  pre : Byte
  xdir : Byte
  sur : Byte
  psp : Byte
  /-- `ACFUNC_ZIP`, `CMD_INFLATE`, `CMD_DEFLATE` (R98). -/
  acfuncZip : Byte
  cmdInflate : Byte
  cmdDeflate : Byte
  opt : OptMasks
  /-- `ONUMBYTES`, 23 or 24, and `OBITS_EXTRA` (R108). -/
  onumbytes : Nat
  obitsExtra : Nat
  /-- The operation codes (R120). -/
  opCodes : OpCodes
  /-- The error codes (R271). -/
  errCodes : ErrorCodes
deriving DecidableEq, Repr

/-- `TREE_LEN`: the size of the tree-scratch area, OPEN (R230, 92_eei_decisions.md D17). Free value. -/
opaque Config.treeLen : Nat

/-- `RETC_ICRC_FAIL - 1`: OPEN, any nonzero 16-bit value (R187). Free value. -/
opaque Config.retcIcrcFailPred : Fin 65535

/-- `RETC_BAD_CMD - 1`: OPEN, any nonzero 16-bit value (R187). Free value. -/
opaque Config.retcBadCmdPred : Fin 65535

/-- `RETC_ICRC_FAIL`: a nonzero value the document does not give (R187). -/
def Config.retcIcrcFail : U16 := BitVec.ofNat 16 (Config.retcIcrcFailPred.val + 1)

/-- `RETC_BAD_CMD`: a nonzero value the document does not give (R187). -/
def Config.retcBadCmd : U16 := BitVec.ofNat 16 (Config.retcBadCmdPred.val + 1)

/-- What a descriptor byte that nothing has written since boot holds (10_state.md rule R52,
70_reset_and_hazards.md rule R314: "every descriptor byte is a draw"). Free value of the address. -/
opaque Config.bootByte : Nat → Byte

/-- `dispatch_timestamp` of HW_FETCH (R184, R294). Free value of the draw's number. -/
opaque Config.drawDispatchTs : Nat → U64

/-- Byte `i` of the snapshot HW_FETCH takes when `LINK_FAULTS` (R184). Free value. -/
opaque Config.drawSnapByte : Nat → Nat → Byte

/-- Byte `i` of the ASV HW_COMPLETE writes (R186). Free value. -/
opaque Config.drawAsvByte : Nat → Nat → Byte

/-- `return_code` of HW_COMPLETE (R186). Free value. -/
opaque Config.drawRc : Nat → U16

/-- `attention_code` of HW_COMPLETE (R186). Free value. -/
opaque Config.drawAttn : Nat → U16

/-- `progress_indicator` of HW_COMPLETE (R186). Free value. -/
opaque Config.drawProgress : Nat → U32

/-- `completion_timestamp` of HW_COMPLETE (R186, R294). Free value. -/
opaque Config.drawCompletionTs : Nat → U64

/-- Byte `i` of the reserved variant ranges HW_COMPLETE writes (R43, R186). Free value. -/
opaque Config.drawReservedByte : Nat → Nat → Byte

/-- The `variant_crc` HW_COMPLETE stores when `LINK_FAULTS` (R186). Free value. -/
opaque Config.drawVariantCrc : Nat → U16

/-- The answer of VERIFY_VARIANT_CRC while HW may be writing (R176, R182). Free value. -/
opaque Config.drawVerify : Nat → Bool

end Sys2Proof
end

