-- ==== Sys2Proof/Machine/Layout.lean ====
section
/-! DEFINITION. The layouts: what follows from a configuration's layout numbers, the defaults of
00_scope.md rule R10 (30_encoding.md rules R91, R94, R100, R104 to R108, R120), what a configuration must satisfy,
and the constants the document fixes (R9). Every operation reaches a field through the configuration only, so
that a claim can quantify over `LAYOUT` and a corrected one is swapped in here (20_memory.md rule R71).
Offsets are in bytes. -/

namespace Sys2Proof.Machine

/-! Values the document fixes (R9). -/

/-- `INTERLOCK_LEN`. -/
def interlockLen : Nat := 4

/-- `ATS_LEN`. -/
def atsLen : Nat := 8

/-- `FWIV_LEN`. -/
def fwivLen : Nat := 8

/-- `ASIV_LEN`: the whole ASIV region. -/
def asivRegionLen : Nat := 104

/-- `ASIV_LEN_ATS`, and the length of an encoded ASIV payload (R105, R106). -/
def asivLen : Nat := 96

/-- `ASV_LEN` and `VCRC_LEN`. -/
def asvLen : Nat := 64

/-- `IBITS_LEN`. -/
def ibitsLen : Nat := 7

/-- `CRC_INIT`: the start value of a fresh computation. -/
def crcInit : U16 := 0xFFFF

/-- `DICT_SLOT_LEN`. -/
def dictSlotLen : Nat := 32784

/-- `DICT_SLOTS`. -/
def dictSlots : Nat := 2

/-- `FIFO_CAPACITY`. -/
def fifoCapacity : Nat := 256

/-! The inflate status byte, F-STAT (R109): the document's own positions. -/

def statPassedEob : Byte := 0x01
def statFinalEob : Byte := 0x04
def statReachedEob : Byte := 0x08
def statHdrFinal : Byte := 0x80

end Sys2Proof.Machine

namespace Sys2Proof

open Sys2Proof.Machine

/-! Fields. -/

/-- The byte at offset `o` is one of the field's (10_state.md rule R24). -/
def Field.covers (f : Field) (o : Nat) : Bool := decide (f.off ≤ o) && decide (o < f.off + f.len)

/-- Two fields share no byte. -/
def Field.disjoint (f g : Field) : Bool :=
  decide (f.off + f.len ≤ g.off) || decide (g.off + g.len ≤ f.off)

/-- The fields stand between two offsets and no two share a byte. -/
def fieldsFit (lo hi : Nat) (fs : List Field) : Bool :=
  decide (fs.Pairwise fun f g => f.disjoint g = true)
    && fs.all fun f => decide (lo ≤ f.off) && decide (f.off + f.len ≤ hi)

/-! The descriptor, F-DESC. -/

/-- The fields of the interlock word (R26). -/
def Layout.ilkFields (l : Layout) : List Field := [l.icrc, l.hsi, l.shi]

/-- The fields of the invariant part behind the interlock word: the header's and the ASIV region. -/
def Layout.invFields (l : Layout) : List Field :=
  [l.preamble, l.xdir, l.seq, l.acfunc, l.cmd, l.opts, l.sur, l.psp, l.firmware, l.asiv]

/-- The fields behind the invariant part: those HW_COMPLETE writes, the driver's, the dispatch stamp. -/
def Layout.varFields (l : Layout) : List Field :=
  [l.asv, l.variantCrc, l.retc, l.attn, l.progress, l.completionTs, l.driver, l.dispatchTs]

/-- Every field of the descriptor. -/
def Layout.fields (l : Layout) : List Field := l.ilkFields ++ l.invFields ++ l.varFields

/-- Length of the invariant part: the header and the ASIV region, which ends it (R91, R161). -/
def Layout.invariantLen (l : Layout) : Nat := l.asiv.off + l.asiv.len

/-- "Every byte of the descriptor that `LAYOUT` gives no field is reserved" (10_state.md rule R43). -/
def Layout.reserved (l : Layout) (o : Nat) : Bool := !(l.fields.any fun f => f.covers o)

/-- The reserved variant bytes, which HW_COMPLETE writes (R92, R186), by offset. -/
def Layout.reservedVariant (l : Layout) : List Nat :=
  (List.range l.size).filter fun o => decide (l.invariantLen ≤ o) && l.reserved o

/-- The distance of two descriptors' bases: room for one, rounded up to `DESC_ALIGN` (R67). -/
def Config.descStride (c : Config) : Nat :=
  (c.layout.size + c.descAlign - 1) / c.descAlign * c.descAlign

/-- Bytes of the ASIV region in front of the payload: the address-translation header (R93). -/
def Config.atsBytes (c : Config) : Nat := if c.atsPresent then atsLen else 0

/-- `ASIV_CAP`: the payload capacity of the ASIV region in the shape `ATS_PRESENT` chooses (R93). -/
def Config.asivCap (c : Config) : Nat := c.layout.asiv.len - c.atsBytes

/-- `ASIV_OFF`: the payload's first descriptor offset (R93). -/
def Config.asivOff (c : Config) : Nat := c.layout.asiv.off + c.atsBytes

/-- `OTAIL_LEN = ONUMBYTES + OBITS_EXTRA` (R108). -/
def Config.otailLen (c : Config) : Nat := c.onumbytes + c.obitsExtra

/-! The overlays. -/

/-- F-PFX (R104). -/
def PrefixLayout.fields (p : PrefixLayout) : List Field :=
  [⟨p.inBuff, 8⟩, ⟨p.inBuffLen, 4⟩, ⟨p.inCrc32, 4⟩, ⟨p.outBuff, 8⟩, ⟨p.outBuffLen, 4⟩,
    ⟨p.inAdler32, 4⟩, ⟨p.inDict, 8⟩, ⟨p.inDictLen, 4⟩]

/-- F-IASIV (R105). -/
def OvlLayout.inflAsivFields (o : OvlLayout) : List Field :=
  o.pfx.fields ++ [⟨o.iasiv.scratch, 8⟩, ⟨o.iasiv.scratchLen, 4⟩, ⟨o.iasiv.inHdrBits, 2⟩,
    ⟨o.iasiv.hdrIb, 1⟩, ⟨o.iasiv.scratchIb, 1⟩, ⟨o.iasiv.outDict, 8⟩, ⟨o.iasiv.outDictLen, 4⟩]

/-- F-DASIV (R106). -/
def OvlLayout.deflAsivFields (o : OvlLayout) : List Field :=
  o.pfx.fields ++ [⟨o.dasiv.outDict, 8⟩, ⟨o.dasiv.outDictLen, 4⟩, ⟨o.dasiv.ibits, ibitsLen⟩,
    ⟨o.dasiv.inumbits, 1⟩]

/-- F-IASV (R107). -/
def OvlLayout.inflAsvFields (o : OvlLayout) : List Field :=
  [⟨o.iasv.outDictUsed, 2⟩, ⟨o.iasv.copyblockLen, 1⟩, ⟨o.iasv.inflStat, 1⟩, ⟨o.iasv.hdrStart, 4⟩,
    ⟨o.iasv.hdrStartBits, 1⟩, ⟨o.iasv.outCrc32, 4⟩, ⟨o.iasv.outAdler32, 4⟩,
    ⟨o.iasv.inpProcessed, 4⟩, ⟨o.iasv.outpReturned, 4⟩, ⟨o.iasv.outDictOffs, 1⟩]

/-- F-DASV (R108), with an `otail` of the given length. -/
def OvlLayout.deflAsvFields (o : OvlLayout) (otailLen : Nat) : List Field :=
  [⟨o.dasv.outDictUsed, 2⟩, ⟨o.dasv.onumbits, 1⟩, ⟨o.dasv.outCrc32, 4⟩, ⟨o.dasv.outAdler32, 4⟩,
    ⟨o.dasv.inpProcessed, 4⟩, ⟨o.dasv.outpReturned, 4⟩, ⟨o.dasv.otail, otailLen⟩]

/-! What a configuration must satisfy. -/

/-- A mask of one bit. -/
def isSingleBit {n : Nat} (v : BitVec n) : Bool := (List.range n).any fun i => v == BitVec.twoPow n i

/-- Two flags of one byte: two different single bits (R27, R28). -/
def flagPair (a b : Byte) : Bool := isSingleBit a && isSingleBit b && a != b

/-- The nine masks in the order of R100. -/
def OptMasks.toList (m : OptMasks) : List U16 :=
  [m.ibufIndir, m.obufIndir, m.dictSave, m.dictRestore, m.stateProvided, m.stateSave,
    m.blockStart, m.blockStop, m.integrityCheck]

/-- The 27 codes in the order of R120. -/
def OpCodes.toList (k : OpCodes) : List Byte :=
  [k.crc16, k.format, k.submitMarker, k.purgeMarker, k.isFetched, k.isCompleted, k.verifyVariantCrc,
    k.result, k.verifyInvariantCrc, k.hwFetch, k.hwComplete, k.encInflAsiv, k.encDeflAsiv, k.decInflAsv,
    k.decDeflAsv, k.carry, k.decInflAsiv, k.decDeflAsiv, k.encInflAsv, k.encDeflAsv, k.fifoInit, k.push,
    k.push32, k.pop, k.pop16, k.used, k.free]

/-- The ten codes in the order of R271. -/
def ErrorCodes.toList (k : ErrorCodes) : List Nat :=
  [k.ok, k.integrityError, k.payloadTooLarge, k.missingWorkspace, k.notCompleted, k.operationFailed,
    k.stagingOverflow, k.stagingUnderflow, k.badOptionCombination, k.badCommand]

/-- The widths the document fixes (R9, R91) are those, and every other field has room for its value: the
sequence number of `seqWidth` bits, and the values whose types R160, R184 and R186 give. -/
def Layout.widthsFit (l : Layout) (seqWidth : Nat) : Bool :=
  l.icrc.len == 2 && l.hsi.len == 1 && l.shi.len == 1 && l.preamble.len == 1 && l.xdir.len == 1
    && l.firmware.len == fwivLen && l.asiv.len == asivRegionLen && l.asv.len == asvLen
    && l.variantCrc.len == 2
    && decide (seqWidth ≤ 8 * l.seq.len) && decide (1 ≤ l.acfunc.len) && decide (1 ≤ l.cmd.len)
    && decide (2 ≤ l.opts.len) && decide (1 ≤ l.sur.len) && decide (1 ≤ l.psp.len)
    && decide (2 ≤ l.retc.len) && decide (2 ≤ l.attn.len) && decide (4 ≤ l.progress.len)
    && decide (8 ≤ l.completionTs.len) && decide (8 ≤ l.dispatchTs.len)

/-- A descriptor layout: the interlock word first, then header and ASIV, then the variant part (R26, R71),
and no two fields share a byte. -/
def Layout.wf (l : Layout) (seqWidth : Nat) : Bool :=
  l.widthsFit seqWidth && fieldsFit 0 interlockLen l.ilkFields
    && fieldsFit interlockLen l.invariantLen l.invFields && fieldsFit l.invariantLen l.size l.varFields

/-- The overlay layouts: no two fields of an overlay share a byte, and all stand inside it. -/
def OvlLayout.wf (o : OvlLayout) (otailLen : Nat) : Bool :=
  fieldsFit 0 asivLen o.inflAsivFields && fieldsFit 0 asivLen o.deflAsivFields
    && fieldsFit 0 asvLen o.inflAsvFields && fieldsFit 0 asvLen (o.deflAsvFields otailLen)

/-- What the spec requires of a configuration: the layouts hold their fields, the flags of a byte are
different single bits (R27, R28), `DESC_ALIGN` is a positive multiple of 4 (R67), the two tags differ (R98)
and the nine option masks are nine different single bits (R100). No two operations have one code and no two
statuses (DEDUCED, log entry 7). -/
def Config.wf (c : Config) : Bool :=
  c.layout.wf c.seqWidth && c.ovl.wf c.otailLen
    && flagPair c.masks.next c.masks.purge && flagPair c.masks.fetched c.masks.completed
    && decide (0 < c.descAlign) && decide (c.descAlign % 4 = 0)
    && c.cmdInflate != c.cmdDeflate
    && c.opt.toList.all isSingleBit && decide c.opt.toList.Nodup
    && decide c.opCodes.toList.Nodup && decide c.errCodes.toList.Nodup

/-! The defaults of R10. -/

/-- R91. -/
def Layout.default : Layout where
  size := 256
  icrc := ⟨0x00, 2⟩
  hsi := ⟨0x02, 1⟩
  shi := ⟨0x03, 1⟩
  preamble := ⟨0x04, 1⟩
  xdir := ⟨0x05, 1⟩
  seq := ⟨0x06, 2⟩
  acfunc := ⟨0x08, 1⟩
  cmd := ⟨0x09, 1⟩
  opts := ⟨0x0A, 2⟩
  sur := ⟨0x0C, 1⟩
  psp := ⟨0x0D, 1⟩
  firmware := ⟨0x10, 8⟩
  asiv := ⟨0x18, 104⟩
  asv := ⟨0x80, 64⟩
  variantCrc := ⟨0xC2, 2⟩
  retc := ⟨0xD0, 2⟩
  attn := ⟨0xD2, 2⟩
  progress := ⟨0xD4, 4⟩
  completionTs := ⟨0xD8, 8⟩
  driver := ⟨0xF0, 8⟩
  dispatchTs := ⟨0xF8, 8⟩

/-- R27, R28, R94. -/
def FlagMasks.default : FlagMasks where
  next := 0x01
  purge := 0x02
  fetched := 0x04
  completed := 0x40

/-- R104 to R108. -/
def OvlLayout.default : OvlLayout where
  pfx :=
    { inBuff := 0x00, inBuffLen := 0x08, inCrc32 := 0x0C, outBuff := 0x10, outBuffLen := 0x18,
      inAdler32 := 0x1C, inDict := 0x20, inDictLen := 0x28 }
  iasiv :=
    { scratch := 0x30, scratchLen := 0x38, inHdrBits := 0x3C, hdrIb := 0x3E, scratchIb := 0x3F,
      outDict := 0x40, outDictLen := 0x48 }
  dasiv := { outDict := 0x40, outDictLen := 0x48, ibits := 0x50, inumbits := 0x57 }
  iasv :=
    { outDictUsed := 0x00, copyblockLen := 0x02, inflStat := 0x04, hdrStart := 0x08,
      hdrStartBits := 0x0E, outCrc32 := 0x10, outAdler32 := 0x14, inpProcessed := 0x18,
      outpReturned := 0x1C, outDictOffs := 0x38 }
  dasv :=
    { outDictUsed := 0x00, onumbits := 0x05, outCrc32 := 0x10, outAdler32 := 0x14,
      inpProcessed := 0x18, outpReturned := 0x1C, otail := 0x20 }

/-- R100. -/
def OptMasks.default : OptMasks where
  ibufIndir := 0x0001
  obufIndir := 0x0002
  dictSave := 0x0004
  dictRestore := 0x0008
  stateProvided := 0x0010
  stateSave := 0x0020
  blockStart := 0x0040
  blockStop := 0x0080
  integrityCheck := 0x0100

/-- R120. -/
def OpCodes.default : OpCodes where
  crc16 := 0x10
  format := 0x20
  submitMarker := 0x21
  purgeMarker := 0x22
  isFetched := 0x23
  isCompleted := 0x24
  verifyVariantCrc := 0x25
  result := 0x26
  verifyInvariantCrc := 0x27
  hwFetch := 0x30
  hwComplete := 0x31
  encInflAsiv := 0x40
  encDeflAsiv := 0x41
  decInflAsv := 0x42
  decDeflAsv := 0x43
  carry := 0x44
  decInflAsiv := 0x46
  decDeflAsiv := 0x47
  encInflAsv := 0x48
  encDeflAsv := 0x49
  fifoInit := 0x50
  push := 0x51
  push32 := 0x52
  pop := 0x53
  pop16 := 0x54
  used := 0x55
  free := 0x56

/-- R271. -/
def ErrorCodes.default : ErrorCodes where
  ok := 0
  integrityError := 1
  payloadTooLarge := 2
  missingWorkspace := 3
  notCompleted := 4
  operationFailed := 5
  stagingOverflow := 6
  stagingUnderflow := 7
  badOptionCombination := 8
  badCommand := 9

/-- R10. -/
def Config.default : Config where
  layout := Layout.default
  masks := FlagMasks.default
  ovl := OvlLayout.default
  descAlign := 256
  seqWidth := 16
  crcLenBits := 16
  retcOk := [0]
  atsPresent := true
  linkFaults := false
  zipOnly := true
  icrcRange := .zeroedWord
  pre := 0x00
  xdir := 0x00
  sur := 0x00
  psp := 0x00
  acfuncZip := 0x01
  cmdInflate := 0x01
  cmdDeflate := 0x02
  opt := OptMasks.default
  onumbytes := 24
  obitsExtra := 7
  opCodes := OpCodes.default
  errCodes := ErrorCodes.default

end Sys2Proof
end

