-- ==== Sys2Proof/Machine/Operands.lean ====
section
/-! DEFINITION. Byte sequences and multi-byte values (00_scope.md rule R12, 20_memory.md rules R60 to
R63, 30_encoding.md rule R96): the big-endian and little-endian forms, reading and writing a field at a
byte offset of a byte array, and laying out fields at their offsets. -/

namespace Sys2Proof.Machine

/-- `be16(b0,b1)` of R12. -/
def be16 (b0 b1 : Byte) : U16 := b0 ++ b1

/-- `be32(b0..b3)` of R12. -/
def be32 (b0 b1 b2 b3 : Byte) : U32 := be16 b0 b1 ++ be16 b2 b3

/-- `be64` of R12. -/
def be64 (b0 b1 b2 b3 b4 b5 b6 b7 : Byte) : U64 := be32 b0 b1 b2 b3 ++ be32 b4 b5 b6 b7

/-- `le16(b0,b1)` of R12: `POP16`'s order (R63). -/
def le16 (b0 b1 : Byte) : U16 := be16 b1 b0

/-- `le32(b0..b3)` of R12. -/
def le32 (b0 b1 b2 b3 : Byte) : U32 := be32 b3 b2 b1 b0

/-- `to_be16` of R12, most significant byte first. -/
def toBe16 (v : U16) : List Byte := [v.extractLsb' 8 8, v.extractLsb' 0 8]

/-- `to_be32` of R12. -/
def toBe32 (v : U32) : List Byte := toBe16 (v.extractLsb' 16 16) ++ toBe16 (v.extractLsb' 0 16)

/-- `to_be64` of R12. -/
def toBe64 (v : U64) : List Byte := toBe32 (v.extractLsb' 32 32) ++ toBe32 (v.extractLsb' 0 32)

/-- `to_le32` of R12: the order in which `PUSH32`'s bytes enter the FIFO (R63). -/
def toLe32 (v : U32) : List Byte := (toBe32 v).reverse

/-- A number as `n` bytes, most significant byte first: `to_be16`, `to_be32` and `to_be64` of R12 for a
field whose width is a parameter. A value shorter than the field gets leading 0x00 bytes. -/
def toBe : Nat → Nat → List Byte
  | 0, _ => []
  | n + 1, v => BitVec.ofNat 8 (v >>> (8 * n)) :: toBe n v

/-- The number whose bytes these are, most significant byte first. -/
def ofBe (bs : List Byte) : Nat := bs.foldl (fun v b => v * 256 + b.toNat) 0

/-- The bytes an operand of `bits` bits takes. -/
def widthBytes (bits : Nat) : Nat := (bits + 7) / 8

/-- `B[i]` of R12. -/
def byteAt (bs : List Byte) (i : Nat) : Byte := bs.getD i 0

/-- The be16 field at offset `o` of a byte array (R96). -/
def be16At (bs : List Byte) (o : Nat) : U16 := be16 (byteAt bs o) (byteAt bs (o + 1))

/-- The be32 field at offset `o` of a byte array (R96). -/
def be32At (bs : List Byte) (o : Nat) : U32 :=
  be32 (byteAt bs o) (byteAt bs (o + 1)) (byteAt bs (o + 2)) (byteAt bs (o + 3))

/-- The be64 field at offset `o` of a byte array (R96). -/
def be64At (bs : List Byte) (o : Nat) : U64 :=
  be64 (byteAt bs o) (byteAt bs (o + 1)) (byteAt bs (o + 2)) (byteAt bs (o + 3))
    (byteAt bs (o + 4)) (byteAt bs (o + 5)) (byteAt bs (o + 6)) (byteAt bs (o + 7))

/-- The big-endian field of `n` bytes at offset `o` of a byte array; bytes that are not there count as
0. -/
def beAt (bs : List Byte) (o n : Nat) : Nat := ofBe ((List.range n).map fun i => byteAt bs (o + i))

/-- The le32 field at offset `o` of a byte array: the operand of `PUSH32` (R121). -/
def le32At (bs : List Byte) (o : Nat) : U32 :=
  le32 (byteAt bs o) (byteAt bs (o + 1)) (byteAt bs (o + 2)) (byteAt bs (o + 3))

/-- `B[o..o+n-1]` of R12. -/
def slice (bs : List Byte) (o n : Nat) : List Byte := (bs.drop o).take n

/-- `a[o..o+len(B)-1] <- B` of the format rules: store a run of bytes inside a byte array, which keeps
its length. -/
def putBytes : List Byte → Nat → List Byte → List Byte
  | [], _, _ => []
  | a :: as, 0, [] => a :: as
  | _ :: as, 0, b :: bs => b :: putBytes as 0 bs
  | a :: as, o + 1, bs => a :: putBytes as o bs

/-- `len` bytes, all 0x00 but the fields given as (offset, bytes). -/
def layOut (len : Nat) (fields : List (Nat × List Byte)) : List Byte :=
  fields.foldl (fun a f => putBytes a f.1 f.2) (List.replicate len 0)

end Sys2Proof.Machine
end

