-- ==== Sys2Proof/Machine/Checksum.lean ====
section
/-! DEFINITION. The Checksum Engine (40_checksum_engine.md): CRC-16, polynomial 0x1021, most
significant bit first, no reflection, no final XOR (R142, R143). -/

namespace Sys2Proof.Machine

/-- One of the eight shifts of R142: shift left one, drop bit 16, XOR the polynomial when bit 15 was 1. -/
def crc16Shift (c : U16) : U16 :=
  if c &&& 0x8000 != 0 then (c <<< 1) ^^^ 0x1021 else c <<< 1

/-- `n` shifts. -/
def crc16Shifts : Nat → U16 → U16
  | 0, c => c
  | n + 1, c => crc16Shifts n (crc16Shift c)

/-- `crc16_step(c, b)` of R142: the byte enters at the top 8 bits, then eight shifts. -/
def crc16Step (c : U16) (b : Byte) : U16 := crc16Shifts 8 (c ^^^ (b.setWidth 16 <<< 8))

/-- `crc16(B, len(B), init)` of R141: bytes in order, first byte first. -/
def crc16 (data : List Byte) (init : U16) : U16 := data.foldl crc16Step init

/-- What stands for the interlock word in a copy of the invariant part (R161). -/
def blankWord : List Byte := List.replicate interlockLen 0

/-- The bytes the invariant CRC covers, of an invariant part: the interlock word enters as four zero bytes,
or not at all, as `ICRC_RANGE` says (R161). -/
def icrcBytes (c : Config) (inv : List Byte) : List Byte :=
  match c.icrcRange with
  | .zeroedWord => blankWord ++ inv.drop interlockLen
  | .fromByteFour => inv.drop interlockLen

/-- The invariant CRC of an invariant part (R149, R161). -/
def invariantCrc (c : Config) (inv : List Byte) : U16 := crc16 (icrcBytes c inv) crcInit

/-- The CRC HW computes of its snapshot (R184): all bytes as they are, the first four being what stands for
the interlock word; or bytes 0x04 up, as `ICRC_RANGE` says. -/
def snapshotCrc (c : Config) (snap : List Byte) : U16 :=
  match c.icrcRange with
  | .zeroedWord => crc16 snap crcInit
  | .fromByteFour => crc16 (snap.drop interlockLen) crcInit

/-- The variant CRC of an ASV (R149, R176). -/
def variantCrc (asv : List Byte) : U16 := crc16 asv crcInit

end Sys2Proof.Machine
end

