-- ==== Sys2Proof/Syntax.lean ====
section
/-! DEFINITION. The 27 operations of 30_encoding.md rule R120, one constructor per row of
spec/opcode_table.json, with the operands of each rule's Operands part (R121), and the logical
records of the overlays (42_payload_overlay.md rule R202). -/

namespace Sys2Proof

/-- What an input or output address references (30_encoding.md rule R103). -/
inductive BufKind
  | flat
  | segList
deriving DecidableEq, Repr

/-- The fifteen numeric fields of `InflParams` (R202): those F-IASIV holds (R105). -/
structure InflFields where
  inBuff : U64
  inBuffLen : U32
  inCrc32 : U32
  outBuff : U64
  outBuffLen : U32
  inAdler32 : U32
  inDict : U64
  inDictLen : U32
  scratch : U64
  scratchLen : U32
  inHdrBits : U16
  hdrIb : Byte
  scratchIb : Byte
  outDict : U64
  outDictLen : U32
deriving DecidableEq, Repr

/-- `InflParams` of R202: the numeric fields and the two buffer kinds, which ASIV does not hold. -/
structure InflParams extends InflFields where
  inKind : BufKind
  outKind : BufKind
deriving DecidableEq, Repr

/-- The fields of `DeflParams` (R202) that F-DASIV holds (R106); `ibits` is 7 bytes (WellFormed). -/
structure DeflFields where
  inBuff : U64
  inBuffLen : U32
  inCrc32 : U32
  outBuff : U64
  outBuffLen : U32
  inAdler32 : U32
  inDict : U64
  inDictLen : U32
  outDict : U64
  outDictLen : U32
  ibits : List Byte
  inumbits : Byte
deriving DecidableEq, Repr

/-- `DeflParams` of R202: the stored fields and the two buffer kinds. -/
structure DeflParams extends DeflFields where
  inKind : BufKind
  outKind : BufKind
deriving DecidableEq, Repr

/-- The ten stored fields of `InflResult` (R202, R107); the decoded flags of `infl_stat` are
`Machine.InflStat`. -/
structure InflResult where
  outDictUsed : U16
  copyblockLen : Byte
  inflStat : Byte
  hdrStart : U32
  hdrStartBits : Byte
  outCrc32 : U32
  outAdler32 : U32
  inpProcessed : U32
  outpReturned : U32
  outDictOffs : Byte
deriving DecidableEq, Repr

/-- `DeflResult` of R202; `otail` is `OTAIL_LEN` bytes (WellFormed). -/
structure DeflResult where
  outDictUsed : U16
  onumbits : Byte
  outCrc32 : U32
  outAdler32 : U32
  inpProcessed : U32
  outpReturned : U32
  otail : List Byte
deriving DecidableEq, Repr

/-- The operations. `d` is a descriptor index. CRC16's `n` has `CRC_LEN_BITS` bits and FORMAT's `seq` has
`SEQ_WIDTH` (WellFormed); both are 16 by default (00_scope.md rule R10). -/
inductive Instr
  /-- 0x10 `CRC16` (R141). -/
  | crc16 (init : U16) (n : Nat) (data : List Byte)
  /-- 0x20 `FORMAT` (R160); `ats` is in the request only when `ATS_PRESENT`. -/
  | format (d acfunc cmd : Byte) (opts : U16) (seq : Nat) (ats : U64) (alen : Byte) (asiv : List Byte)
  /-- 0x21 `SUBMIT_MARKER` (R166). -/
  | submitMarker (d : Byte)
  /-- 0x22 `PURGE_MARKER` (R170). -/
  | purgeMarker (d : Byte)
  /-- 0x23 `IS_FETCHED` (R173). -/
  | isFetched (d : Byte)
  /-- 0x24 `IS_COMPLETED` (R174). -/
  | isCompleted (d : Byte)
  /-- 0x25 `VERIFY_VARIANT_CRC` (R176). -/
  | verifyVariantCrc (d : Byte)
  /-- 0x26 `RESULT` (R178). -/
  | result (d : Byte)
  /-- 0x27 `VERIFY_INVARIANT_CRC` (R180). -/
  | verifyInvariantCrc (d : Byte)
  /-- 0x30 `HW_FETCH` (R184). -/
  | hwFetch (d : Byte)
  /-- 0x31 `HW_COMPLETE` (R186). -/
  | hwComplete (d : Byte)
  /-- 0x40 `ENC_INFL_ASIV` (R205). -/
  | encInflAsiv (opts : U16) (p : InflParams)
  /-- 0x41 `ENC_DEFL_ASIV` (R207). -/
  | encDeflAsiv (opts : U16) (p : DeflParams)
  /-- 0x42 `DEC_INFL_ASV` (R209). -/
  | decInflAsv (cmd : Byte) (asv : List Byte)
  /-- 0x43 `DEC_DEFL_ASV` (R212). -/
  | decDeflAsv (cmd : Byte) (asv : List Byte)
  /-- 0x44 `CARRY` (R220). -/
  | carry (onumbits k : Byte) (otail : List Byte)
  /-- 0x46 `DEC_INFL_ASIV` (R214). -/
  | decInflAsiv (cmd : Byte) (asiv : List Byte)
  /-- 0x47 `DEC_DEFL_ASIV` (R215). -/
  | decDeflAsiv (cmd : Byte) (asiv : List Byte)
  /-- 0x48 `ENC_INFL_ASV` (R216). -/
  | encInflAsv (r : InflResult)
  /-- 0x49 `ENC_DEFL_ASV` (R217). -/
  | encDeflAsv (r : DeflResult)
  /-- 0x50 `FIFO_INIT` (R242). -/
  | fifoInit
  /-- 0x51 `PUSH` (R244). -/
  | push (b : Byte)
  /-- 0x52 `PUSH32` (R246). -/
  | push32 (v : U32)
  /-- 0x53 `POP` (R250). -/
  | pop
  /-- 0x54 `POP16` (R252). -/
  | pop16
  /-- 0x55 `USED` (R255). -/
  | used
  /-- 0x56 `FREE` (R256). -/
  | free
deriving DecidableEq, Repr

end Sys2Proof
end

