-- ==== Sys2Proof/WellFormed.lean ====
section
/-! DEFINITION. Which terms of `Instr` stand for a request (30_encoding.md rule R121): a byte array
has the length its operand table gives it, an operand whose width is a parameter has a value of that width
(00_scope.md rule R10), and `ats` is zero where the request has no `ats`. -/

namespace Sys2Proof

/-- The lengths R121 fixes, `n` below `2^CRC_LEN_BITS` (R141) and `seq` below `2^SEQ_WIDTH` (R33). Other
range checks are no part of it: the operations make them. -/
def WellFormed (c : Config) : Instr → Bool
  | .crc16 _ n data => data.length == n && decide (n < 2 ^ c.crcLenBits)
  | .format _ _ _ _ seq ats alen asiv =>
    asiv.length == alen.toNat && decide (seq < 2 ^ c.seqWidth) && (c.atsPresent || ats == 0)
  | .submitMarker _ => true
  | .purgeMarker _ => true
  | .isFetched _ => true
  | .isCompleted _ => true
  | .verifyVariantCrc _ => true
  | .result _ => true
  | .verifyInvariantCrc _ => true
  | .hwFetch _ => true
  | .hwComplete _ => true
  | .encInflAsiv _ _ => true
  | .encDeflAsiv _ p => p.ibits.length == 7
  | .decInflAsv _ asv => asv.length == 64
  | .decDeflAsv _ asv => asv.length == 64
  | .carry _ _ otail => otail.length == c.otailLen
  | .decInflAsiv _ asiv => asiv.length == 96
  | .decDeflAsiv _ asiv => asiv.length == 96
  | .encInflAsv _ => true
  | .encDeflAsv r => r.otail.length == c.otailLen
  | .fifoInit => true
  | .push _ => true
  | .push32 _ => true
  | .pop => true
  | .pop16 => true
  | .used => true
  | .free => true

end Sys2Proof
end

