-- ==== Sys2Proof/Decode.lean ====
section
/-! DEFINITION. The decoder of operation requests (30_encoding.md rules R120 to R122), total on any
bytes and rejecting by name, then the encoder. A request is the code byte and the operand bytes; the
offsets below count from the code byte, as the byte offsets of spec/opcode_table.json do. -/

namespace Sys2Proof

open Sys2Proof.Machine

/-- The operation codes of R120, one per row. -/
inductive Opcode
  | crc16 | format | submitMarker | purgeMarker | isFetched | isCompleted | verifyVariantCrc
  | result | verifyInvariantCrc | hwFetch | hwComplete | encInflAsiv | encDeflAsiv | decInflAsv
  | decDeflAsv | carry | decInflAsiv | decDeflAsiv | encInflAsv | encDeflAsv | fifoInit | push
  | push32 | pop | pop16 | used | free
deriving DecidableEq, Repr

/-- The code byte of an operation (R120), a parameter (00_scope.md rule R10). -/
def opcodeByte (k : OpCodes) : Opcode → Byte
  | .crc16 => k.crc16
  | .format => k.format
  | .submitMarker => k.submitMarker
  | .purgeMarker => k.purgeMarker
  | .isFetched => k.isFetched
  | .isCompleted => k.isCompleted
  | .verifyVariantCrc => k.verifyVariantCrc
  | .result => k.result
  | .verifyInvariantCrc => k.verifyInvariantCrc
  | .hwFetch => k.hwFetch
  | .hwComplete => k.hwComplete
  | .encInflAsiv => k.encInflAsiv
  | .encDeflAsiv => k.encDeflAsiv
  | .decInflAsv => k.decInflAsv
  | .decDeflAsv => k.decDeflAsv
  | .carry => k.carry
  | .decInflAsiv => k.decInflAsiv
  | .decDeflAsiv => k.decDeflAsiv
  | .encInflAsv => k.encInflAsv
  | .encDeflAsv => k.encDeflAsv
  | .fifoInit => k.fifoInit
  | .push => k.push
  | .push32 => k.push32
  | .pop => k.pop
  | .pop16 => k.pop16
  | .used => k.used
  | .free => k.free

/-- The 27 operations in the order of R120's table. -/
def allOpcodes : List Opcode :=
  [.crc16, .format, .submitMarker, .purgeMarker, .isFetched, .isCompleted, .verifyVariantCrc,
    .result, .verifyInvariantCrc, .hwFetch, .hwComplete, .encInflAsiv, .encDeflAsiv, .decInflAsv,
    .decDeflAsv, .carry, .decInflAsiv, .decDeflAsiv, .encInflAsv, .encDeflAsv, .fifoInit, .push,
    .push32, .pop, .pop16, .used, .free]

/-- The operation a code byte names; none for every code the table does not list (R122). -/
def opcodeOf (k : OpCodes) (b : Byte) : Option Opcode :=
  allOpcodes.find? fun o => opcodeByte k o == b

/-- The operation of an instruction. -/
def instrOpcode : Instr → Opcode
  | .crc16 _ _ _ => .crc16
  | .format _ _ _ _ _ _ _ _ => .format
  | .submitMarker _ => .submitMarker
  | .purgeMarker _ => .purgeMarker
  | .isFetched _ => .isFetched
  | .isCompleted _ => .isCompleted
  | .verifyVariantCrc _ => .verifyVariantCrc
  | .result _ => .result
  | .verifyInvariantCrc _ => .verifyInvariantCrc
  | .hwFetch _ => .hwFetch
  | .hwComplete _ => .hwComplete
  | .encInflAsiv _ _ => .encInflAsiv
  | .encDeflAsiv _ _ => .encDeflAsiv
  | .decInflAsv _ _ => .decInflAsv
  | .decDeflAsv _ _ => .decDeflAsv
  | .carry _ _ _ => .carry
  | .decInflAsiv _ _ => .decInflAsiv
  | .decDeflAsiv _ _ => .decDeflAsiv
  | .encInflAsv _ => .encInflAsv
  | .encDeflAsv _ => .encDeflAsv
  | .fifoInit => .fifoInit
  | .push _ => .push
  | .push32 _ => .push32
  | .pop => .pop
  | .pop16 => .pop16
  | .used => .used
  | .free => .free

/-- Why a byte string is no request. -/
inductive DecodeError
  /-- There is no code byte. -/
  | noCode
  /-- The code byte is none of R120 (R122: "a decoder answers invalid"). -/
  | unknownCode (code : Byte)
  /-- Fewer bytes than the one length R121 fixes. -/
  | tooShort
  /-- More bytes than the one length R121 fixes. -/
  | tooLong
  /-- Bits 2 to 7 of `kinds` are not 0 (R121). -/
  | reservedKinds (kinds : Byte)
  /-- A value of more bits than `CRC_LEN_BITS` or `SEQ_WIDTH`, in the bytes that hold that width. -/
  | operandTooWide (v : Nat)
deriving DecidableEq, Repr

/-- The bytes CRC16's `n` takes in a request: 2 by default (R121). -/
def nBytes (c : Config) : Nat := widthBytes c.crcLenBits

/-- The bytes FORMAT's `seq` takes in a request: 2 by default (R121). -/
def seqBytes (c : Config) : Nat := widthBytes c.seqWidth

/-- CRC16's `n` as a request holds it. -/
def crcLength (c : Config) (bs : List Byte) : Nat := beAt bs 3 (nBytes c)

/-- FORMAT's `seq` as a request holds it. -/
def seqNumber (c : Config) (bs : List Byte) : Nat := beAt bs 6 (seqBytes c)

/-- Offset of `ats` in a FORMAT request. -/
def offAts (c : Config) : Nat := 6 + seqBytes c

/-- Offset of `alen` in a FORMAT request: the `ats` operand is there only when `ATS_PRESENT` (R121). -/
def offAlen (c : Config) : Nat := if c.atsPresent then offAts c + 8 else offAts c

/-- "A request has one length, fixed by its code and its length operands" (R121), the code byte
included; bytes that are not there count as 0. -/
def requestLength (c : Config) (bs : List Byte) : Opcode → Nat
  | .crc16 => 3 + nBytes c + crcLength c bs
  | .format => offAlen c + 1 + (byteAt bs (offAlen c)).toNat
  | .submitMarker => 2
  | .purgeMarker => 2
  | .isFetched => 2
  | .isCompleted => 2
  | .verifyVariantCrc => 2
  | .result => 2
  | .verifyInvariantCrc => 2
  | .hwFetch => 2
  | .hwComplete => 2
  | .encInflAsiv => 76
  | .encDeflAsiv => 68
  | .decInflAsv => 66
  | .decDeflAsv => 66
  | .carry => 3 + c.otailLen
  | .decInflAsiv => 98
  | .decDeflAsiv => 98
  | .encInflAsv => 27
  | .encDeflAsv => 20 + c.otailLen
  | .fifoInit => 1
  | .push => 2
  | .push32 => 5
  | .pop => 1
  | .pop16 => 1
  | .used => 1
  | .free => 1

/-- Bit `i` of `kinds`: 1 when the buffer is a `SegList` (R121). -/
def kindOfBit (kinds : Byte) (i : Nat) : BufKind := if kinds.getLsbD i then .segList else .flat

/-- Bits 2 to 7 of `kinds` are 0 (R121). -/
def kindsLegal (kinds : Byte) : Bool := kinds &&& 0xFC == 0

/-- The operands of an `ENC_INFL_ASIV` request after `opts` and `kinds` (R121, code 0x40). -/
def decodeInflParams (bs : List Byte) : InflParams where
  inKind := kindOfBit (byteAt bs 3) 0
  outKind := kindOfBit (byteAt bs 3) 1
  inBuff := be64At bs 4
  inBuffLen := be32At bs 12
  inCrc32 := be32At bs 16
  outBuff := be64At bs 20
  outBuffLen := be32At bs 28
  inAdler32 := be32At bs 32
  inDict := be64At bs 36
  inDictLen := be32At bs 44
  scratch := be64At bs 48
  scratchLen := be32At bs 56
  inHdrBits := be16At bs 60
  hdrIb := byteAt bs 62
  scratchIb := byteAt bs 63
  outDict := be64At bs 64
  outDictLen := be32At bs 72

/-- The operands of an `ENC_DEFL_ASIV` request after `opts` and `kinds` (R121, code 0x41). -/
def decodeDeflParams (bs : List Byte) : DeflParams where
  inKind := kindOfBit (byteAt bs 3) 0
  outKind := kindOfBit (byteAt bs 3) 1
  inBuff := be64At bs 4
  inBuffLen := be32At bs 12
  inCrc32 := be32At bs 16
  outBuff := be64At bs 20
  outBuffLen := be32At bs 28
  inAdler32 := be32At bs 32
  inDict := be64At bs 36
  inDictLen := be32At bs 44
  outDict := be64At bs 48
  outDictLen := be32At bs 56
  ibits := slice bs 60 7
  inumbits := byteAt bs 67

/-- The ten fields of an `ENC_INFL_ASV` request (R121, code 0x48). -/
def decodeInflResult (bs : List Byte) : InflResult where
  outDictUsed := be16At bs 1
  copyblockLen := byteAt bs 3
  inflStat := byteAt bs 4
  hdrStart := be32At bs 5
  hdrStartBits := byteAt bs 9
  outCrc32 := be32At bs 10
  outAdler32 := be32At bs 14
  inpProcessed := be32At bs 18
  outpReturned := be32At bs 22
  outDictOffs := byteAt bs 26

/-- The fields of an `ENC_DEFL_ASV` request (R121, code 0x49). -/
def decodeDeflResult (bs : List Byte) : DeflResult where
  outDictUsed := be16At bs 1
  onumbits := byteAt bs 3
  outCrc32 := be32At bs 4
  outAdler32 := be32At bs 8
  inpProcessed := be32At bs 12
  outpReturned := be32At bs 16
  otail := bs.drop 20

/-- The instruction of a request of the right length (R121). -/
def decodeFields (c : Config) (bs : List Byte) : Opcode → Except DecodeError Instr
  | .crc16 =>
    if crcLength c bs < 2 ^ c.crcLenBits then
      .ok (.crc16 (be16At bs 1) (crcLength c bs) (bs.drop (3 + nBytes c)))
    else .error (.operandTooWide (crcLength c bs))
  | .format =>
    if seqNumber c bs < 2 ^ c.seqWidth then
      .ok (.format (byteAt bs 1) (byteAt bs 2) (byteAt bs 3) (be16At bs 4) (seqNumber c bs)
        (if c.atsPresent then be64At bs (offAts c) else 0) (byteAt bs (offAlen c))
        (bs.drop (offAlen c + 1)))
    else .error (.operandTooWide (seqNumber c bs))
  | .submitMarker => .ok (.submitMarker (byteAt bs 1))
  | .purgeMarker => .ok (.purgeMarker (byteAt bs 1))
  | .isFetched => .ok (.isFetched (byteAt bs 1))
  | .isCompleted => .ok (.isCompleted (byteAt bs 1))
  | .verifyVariantCrc => .ok (.verifyVariantCrc (byteAt bs 1))
  | .result => .ok (.result (byteAt bs 1))
  | .verifyInvariantCrc => .ok (.verifyInvariantCrc (byteAt bs 1))
  | .hwFetch => .ok (.hwFetch (byteAt bs 1))
  | .hwComplete => .ok (.hwComplete (byteAt bs 1))
  | .encInflAsiv =>
    if kindsLegal (byteAt bs 3) then .ok (.encInflAsiv (be16At bs 1) (decodeInflParams bs))
    else .error (.reservedKinds (byteAt bs 3))
  | .encDeflAsiv =>
    if kindsLegal (byteAt bs 3) then .ok (.encDeflAsiv (be16At bs 1) (decodeDeflParams bs))
    else .error (.reservedKinds (byteAt bs 3))
  | .decInflAsv => .ok (.decInflAsv (byteAt bs 1) (bs.drop 2))
  | .decDeflAsv => .ok (.decDeflAsv (byteAt bs 1) (bs.drop 2))
  | .carry => .ok (.carry (byteAt bs 1) (byteAt bs 2) (bs.drop 3))
  | .decInflAsiv => .ok (.decInflAsiv (byteAt bs 1) (bs.drop 2))
  | .decDeflAsiv => .ok (.decDeflAsiv (byteAt bs 1) (bs.drop 2))
  | .encInflAsv => .ok (.encInflAsv (decodeInflResult bs))
  | .encDeflAsv => .ok (.encDeflAsv (decodeDeflResult bs))
  | .fifoInit => .ok .fifoInit
  | .push => .ok (.push (byteAt bs 1))
  | .push32 => .ok (.push32 (le32At bs 1))
  | .pop => .ok .pop
  | .pop16 => .ok .pop16
  | .used => .ok .used
  | .free => .ok .free

/-- The decoder of R121 and R122: the code, then the one length, then the operands. -/
def decode (c : Config) (bs : List Byte) : Except DecodeError Instr :=
  match bs with
  | [] => .error .noCode
  | code :: _ =>
    match opcodeOf c.opCodes code with
    | none => .error (.unknownCode code)
    | some op =>
      if bs.length < requestLength c bs op then .error .tooShort
      else if requestLength c bs op < bs.length then .error .tooLong
      else decodeFields c bs op

/-- The `kinds` byte of two buffer kinds (R121). -/
def kindsByte (inKind outKind : BufKind) : Byte :=
  (match inKind with | .flat => 0x00 | .segList => 0x01) |||
    (match outKind with | .flat => 0x00 | .segList => 0x02)

/-- The operand bytes of an instruction in the order of R121. -/
def encodeOperands (c : Config) : Instr → List Byte
  | .crc16 init n data => toBe16 init ++ toBe (nBytes c) n ++ data
  | .format d acfunc cmd opts seq ats alen asiv =>
    [d, acfunc, cmd] ++ toBe16 opts ++ toBe (seqBytes c) seq
      ++ (if c.atsPresent then toBe64 ats else []) ++ [alen] ++ asiv
  | .submitMarker d => [d]
  | .purgeMarker d => [d]
  | .isFetched d => [d]
  | .isCompleted d => [d]
  | .verifyVariantCrc d => [d]
  | .result d => [d]
  | .verifyInvariantCrc d => [d]
  | .hwFetch d => [d]
  | .hwComplete d => [d]
  | .encInflAsiv opts p =>
    toBe16 opts ++ [kindsByte p.inKind p.outKind] ++ toBe64 p.inBuff ++ toBe32 p.inBuffLen
      ++ toBe32 p.inCrc32 ++ toBe64 p.outBuff ++ toBe32 p.outBuffLen ++ toBe32 p.inAdler32
      ++ toBe64 p.inDict ++ toBe32 p.inDictLen ++ toBe64 p.scratch ++ toBe32 p.scratchLen
      ++ toBe16 p.inHdrBits ++ [p.hdrIb, p.scratchIb] ++ toBe64 p.outDict ++ toBe32 p.outDictLen
  | .encDeflAsiv opts p =>
    toBe16 opts ++ [kindsByte p.inKind p.outKind] ++ toBe64 p.inBuff ++ toBe32 p.inBuffLen
      ++ toBe32 p.inCrc32 ++ toBe64 p.outBuff ++ toBe32 p.outBuffLen ++ toBe32 p.inAdler32
      ++ toBe64 p.inDict ++ toBe32 p.inDictLen ++ toBe64 p.outDict ++ toBe32 p.outDictLen
      ++ p.ibits ++ [p.inumbits]
  | .decInflAsv cmd asv => cmd :: asv
  | .decDeflAsv cmd asv => cmd :: asv
  | .carry onumbits k otail => onumbits :: k :: otail
  | .decInflAsiv cmd asiv => cmd :: asiv
  | .decDeflAsiv cmd asiv => cmd :: asiv
  | .encInflAsv r =>
    toBe16 r.outDictUsed ++ [r.copyblockLen, r.inflStat] ++ toBe32 r.hdrStart ++ [r.hdrStartBits]
      ++ toBe32 r.outCrc32 ++ toBe32 r.outAdler32 ++ toBe32 r.inpProcessed
      ++ toBe32 r.outpReturned ++ [r.outDictOffs]
  | .encDeflAsv r =>
    toBe16 r.outDictUsed ++ [r.onumbits] ++ toBe32 r.outCrc32 ++ toBe32 r.outAdler32
      ++ toBe32 r.inpProcessed ++ toBe32 r.outpReturned ++ r.otail
  | .fifoInit => []
  | .push b => [b]
  | .push32 v => toLe32 v
  | .pop => []
  | .pop16 => []
  | .used => []
  | .free => []

/-- The request of an instruction: its code byte and its operand bytes (R121). -/
def encode (c : Config) (i : Instr) : List Byte :=
  opcodeByte c.opCodes (instrOpcode i) :: encodeOperands c i

/-- The bytes of an opcode-table word: bit 0 is the least significant bit of the first byte. -/
def wordBytes (nbits w : Nat) : List Byte :=
  (List.range (nbits / 8)).map fun i => BitVec.ofNat 8 (w >>> (8 * i))

/-- The request an opcode-table word stands for: its bytes, and zero bytes up to the length R121 gives
the request. -/
def requestOfWord (c : Config) (nbits w : Nat) : List Byte :=
  let bs := wordBytes nbits w
  match opcodeOf c.opCodes (byteAt bs 0) with
  | none => bs
  | some op => bs ++ List.replicate (requestLength c bs op - bs.length) 0

/-- The instruction the decoder reads from an opcode-table word, in the default configuration. -/
def decodeTableWord (nbits w : Nat) : Option Instr :=
  match decode Config.default (requestOfWord Config.default nbits w) with
  | .ok i => some i
  | .error _ => none

end Sys2Proof
end

