-- ==== Sys2Proof/Machine/State.lean ====
section
/-! DEFINITION. The state of the block as plain data (10_state.md rule R22), the answers an operation
returns to its caller (60_exceptions.md rule R271), the reasons a step can stop, and the state the
agents start from (10_state.md rule R52, 70_reset_and_hazards.md rule R314). -/

namespace Sys2Proof.Machine

/-- The parties of 00_scope.md rule R8 and 60_exceptions.md rules R290 and R293: a software thread, the
hardware queue engine, and the encode or decode session that owns the FIFO. -/
inductive Agent
  | sw (thread : Nat)
  | hw
  | owner (session : Nat)
deriving DecidableEq, Repr

/-- The roles of R290 that may issue operations. -/
inductive Role
  | sw
  | hw
  | owner
deriving DecidableEq, Repr

/-- The status names of R271. -/
inductive Status
  | ok
  | integrityError
  | payloadTooLarge
  | missingWorkspace
  | notCompleted
  | operationFailed
  | stagingOverflow
  | stagingUnderflow
  | badOptionCombination
  | badCommand
deriving DecidableEq, Repr

/-- The decoded flags of `infl_stat` (42_payload_overlay.md rules R202, R210). -/
structure InflStat where
  passedEob : Bool
  finalEob : Bool
  reachedEob : Bool
  hdrType : BitVec 2
  hdrFinal : Bool
deriving DecidableEq, Repr

/-- What an operation returns besides its status: the Results part of each rule. -/
inductive Payload
  /-- Nothing besides the status. -/
  | empty
  /-- `CRC16`: the checksum (R141). -/
  | crc (v : U16)
  /-- `IS_FETCHED`, `IS_COMPLETED` and the two verify operations: a Bool. -/
  | flag (b : Bool)
  /-- `RESULT`: `rc`, `attn`, `progress`, `asv` (R178). -/
  | result (rc attn : U16) (progress : U32) (asv : List Byte)
  /-- The encoders: the ASIV payload or the ASV (R205, R207, R216, R217). -/
  | bytes (bs : List Byte)
  /-- `DEC_INFL_ASV`: the record with its decoded flags (R209). -/
  | inflResult (r : InflResult) (flags : InflStat)
  /-- `DEC_DEFL_ASV` (R212). -/
  | deflResult (r : DeflResult)
  /-- `DEC_INFL_ASIV`: the fifteen numeric fields (R214). -/
  | inflFields (f : InflFields)
  /-- `DEC_DEFL_ASIV` (R215). -/
  | deflFields (f : DeflFields)
  /-- `CARRY` (R220). -/
  | carry (drained ibits : List Byte) (inumbits : Byte)
  /-- `POP` (R250). -/
  | byte (b : Byte)
  /-- `POP16` (R252). -/
  | half (v : U16)
  /-- `USED`, `FREE`: a number 0 to 255 (R255, R256). -/
  | count (n : Nat)
deriving DecidableEq, Repr

/-- What the caller of an operation gets (60_exceptions.md rule R270). -/
structure Answer where
  status : Status
  payload : Payload
deriving DecidableEq, Repr

/-- An operation presented to the block: who issues it and its request bytes (R121, R21). -/
structure Request where
  agent : Agent
  bytes : List Byte
deriving DecidableEq, Repr

/-- Descriptor memory as (address, byte) pairs, addresses strictly rising. The address of `D_d.b[o]` is
`DESC_SIZE * d + o` (20_memory.md rule R65, R23). -/
abbrev Memory := List Host.Cell

/-- The interlock word as the value one atomic access moves (R26, R68): the invariant CRC and the two
flag bytes. -/
structure Interlock where
  icrc : U16
  hsi : Byte
  shi : Byte
deriving DecidableEq, Repr

/-- `hw_snap[D]` (R32): HW's copy of the invariant part, 128 bytes in the default `LAYOUT`, and the
result of its check. -/
structure Snapshot where
  bytes : List Byte
  icrcOk : Bool
deriving DecidableEq, Repr

/-- What the model keeps beside the memory for one descriptor: the ghost flags and the hidden snapshot
(R32), the base address its alignment is judged by (R67), and the software thread that issues its
operations (R293). `base` and `thread` never change. -/
structure Desc where
  base : Nat
  thread : Nat
  fmt : Bool
  swObsDone : Bool
  snap : Snapshot
deriving DecidableEq, Repr

/-- The Staging Ring Buffer (R44), and the session that owns it (43_staging_fifo.md rule R260), which
never changes. -/
structure Fifo where
  push : Byte
  pop : Byte
  store : Vector Byte 256
  session : Nat
deriving DecidableEq, Repr

/-- All state: the descriptors (memory and what is kept beside it), the FIFO, and the model's own
fields: the configuration, the operations the agents will present, who presented the last one, what it
returned, and the number of draws taken so far (R22). -/
structure State where
  cfg : Config
  mem : Memory
  descs : List Desc
  fifo : Fifo
  stream : List Request
  issuer : Agent
  answer : Option Answer
  draws : Nat
deriving DecidableEq, Repr

/-- Faults. -/
inductive Fault
  /-- Raised by every operation on a descriptor when the index names none of the `NDESC` descriptors
  (R23): the address space has no such place. Safe: the model stops where nothing is specified. -/
  | noSuchDescriptor (d : Byte)
deriving DecidableEq, Repr

/-- Refusals: the situations of 60_exceptions.md rule R281, for which the model has no step. Each is
safe: no claim about such a run can be proved. -/
inductive Refusal
  /-- An instruction without a meaning. No arm of exec answers it. Safe. -/
  | notModelled (mnemonic : String)
  /-- The request bytes are no operation (R122). Raised by the step. Safe. -/
  | invalidRequest (e : DecodeError)
  /-- The issuer's role may not issue the operation (R290). Raised by every operation. Safe. -/
  | roleNotGranted
  /-- A FIFO operation by another session than the owner (R83). Safe. -/
  | notFifoOwner
  /-- An operation on a descriptor by another software thread than its own (R293). Safe. -/
  | secondSoftwareThread
  /-- The descriptor's base is not a multiple of 4 (R67). Raised by every descriptor operation. Safe. -/
  | misalignedDescriptor
  /-- An access the ownership table does not grant (R79): HW verifying a descriptor that is SW's. Safe. -/
  | accessNotGranted
  /-- FORMAT of a descriptor that HW owns or whose completion is not observed (R78). Safe. -/
  | formatNotOwned
  /-- SUBMIT_MARKER of a descriptor never formatted (R166). Safe. -/
  | submitUnformatted
  /-- PURGE_MARKER before any FORMAT or after completion was observed (R170). Safe. -/
  | purgeOutsideWindow
  /-- HW_FETCH outside phase NEXT (R184, R188). Safe. -/
  | fetchOutsideNext
  /-- HW_COMPLETE outside phase FETCHED (R186, R188). Safe. -/
  | completeOutsideFetched
  /-- ENC_DEFL_ASIV with more than 56 carried bits (R207). Safe. -/
  | carryTooWide
  /-- CARRY outside its precondition (R220). Safe. -/
  | carryOutsidePrecondition
deriving DecidableEq, Repr

/-- The three outcomes of a step of this machine. -/
abbrev Out := Host.Outcome State Fault Refusal

/-- The descriptor `i` after boot: `fmt` and `sw_obs_done` false (R52). Its base is a multiple of
`DESC_ALIGN` (R315). The snapshot is never read before HW_FETCH writes it; zero bytes stand in it
(DESIGN CHOICE, log entry 3). -/
def Desc.boot (c : Config) (i : Nat) : Desc where
  base := c.descStride * i
  thread := 0
  fmt := false
  swObsDone := false
  snap := ⟨List.replicate c.layout.invariantLen 0, false⟩

/-- The FIFO as `init()` leaves it (R52). -/
def Fifo.boot : Fifo where
  push := 0
  pop := 0
  store := Vector.replicate 256 0
  session := 0

/-- The state after boot (R314) of a machine with configuration `c` and `n` descriptors: nothing is
written in memory, no operation has been presented. -/
def State.boot (c : Config) (n : Nat) : State where
  cfg := c
  mem := []
  descs := (List.range n).map (Desc.boot c)
  fifo := Fifo.boot
  stream := []
  issuer := .sw 0
  answer := none
  draws := 0

/-- The machine right after reset: the default configuration of R10, whose `NDESC` is 1. -/
def State.reset : State := State.boot Config.default 1

end Sys2Proof.Machine
end

