-- ==== Sys2Proof/Machine/Flags.lean ====
section
/-! DEFINITION. Every flag of the block (10_state.md rules R27 to R31, R51): the interlock flags, the
phase, the option flags and the inflate status flags. There are no arithmetic condition codes (R51). -/

namespace Sys2Proof.Machine

/-- `v AND mask != 0` on a flag byte (R96). -/
def hasFlag (b mask : Byte) : Bool := b &&& mask != 0

/-- `shi.next` (R27). -/
def Interlock.isNext (m : FlagMasks) (w : Interlock) : Bool := hasFlag w.shi m.next

/-- `shi.purge` (R27). -/
def Interlock.isPurged (m : FlagMasks) (w : Interlock) : Bool := hasFlag w.shi m.purge

/-- `hsi.fetched` (R28). -/
def Interlock.isFetched (m : FlagMasks) (w : Interlock) : Bool := hasFlag w.hsi m.fetched

/-- `hsi.completed` (R28). -/
def Interlock.isCompleted (m : FlagMasks) (w : Interlock) : Bool := hasFlag w.hsi m.completed

/-- The reserved bits of HSI and SHI are 0 (R27, R28). -/
def Interlock.reservedClear (m : FlagMasks) (w : Interlock) : Bool :=
  w.hsi &&& ~~~(m.fetched ||| m.completed) == 0 && w.shi &&& ~~~(m.next ||| m.purge) == 0

/-- The OR of two interlock values, field by field: the OR of the two words. -/
def Interlock.or (w v : Interlock) : Interlock where
  icrc := w.icrc ||| v.icrc
  hsi := w.hsi ||| v.hsi
  shi := w.shi ||| v.shi

/-- The one-bit masks of 41_command_descriptor.md: `SHI_NEXT_W`. -/
def maskNext (m : FlagMasks) : Interlock := ⟨0, 0, m.next⟩

/-- `SHI_PURGE_W`. -/
def maskPurge (m : FlagMasks) : Interlock := ⟨0, 0, m.purge⟩

/-- `HSI_FETCHED_W`. -/
def maskFetched (m : FlagMasks) : Interlock := ⟨0, m.fetched, 0⟩

/-- `HSI_COMPLETED_W`. -/
def maskCompleted (m : FlagMasks) : Interlock := ⟨0, m.completed, 0⟩

/-- The four bytes of an interlock value, each field where `LAYOUT` puts it (R26). -/
def Interlock.bytes (l : Layout) (w : Interlock) : List Byte :=
  layOut interlockLen [(l.icrc.off, toBe16 w.icrc), (l.hsi.off, [w.hsi]), (l.shi.off, [w.shi])]

/-- The interlock value four bytes hold (R26, R94). -/
def Interlock.ofBytes (l : Layout) (b : List Byte) : Interlock where
  icrc := be16At b l.icrc.off
  hsi := byteAt b l.hsi.off
  shi := byteAt b l.shi.off

/-- `W = be32(D.b[0..3])` of R26; in the default `LAYOUT` `icrc` is in bits 31 to 16, `hsi` in 15 to 8, `shi`
in 7 to 0 (R94). -/
def Interlock.word (l : Layout) (w : Interlock) : U32 := be32At (w.bytes l) 0

/-- The position of a descriptor in its submission cycle (R30). -/
inductive Phase
  | unformatted
  | formatted
  | next
  | fetched
  | completed
deriving DecidableEq, Repr

/-- `phase(D)` of R30, a function of the interlock word and `fmt[D]`, tests in the rule's order. -/
def phaseOf (m : FlagMasks) (w : Interlock) (fmt : Bool) : Phase :=
  if w.isCompleted m then .completed
  else if w.isFetched m then .fetched
  else if w.isNext m then .next
  else if fmt then .formatted
  else .unformatted

/-- The place of a phase in the order of R31. -/
def phaseRank : Phase → Nat
  | .unformatted => 0
  | .formatted => 1
  | .next => 2
  | .fetched => 3
  | .completed => 4

/-- An option flag of `command_options` is set (R100). -/
def hasOpt (opts mask : U16) : Bool := opts &&& mask != 0

/-- Decoding `infl_stat` (R109, R210); bits 1 and 4 are ignored. -/
def inflStatOf (s : Byte) : InflStat where
  passedEob := hasFlag s statPassedEob
  finalEob := hasFlag s statFinalEob
  reachedEob := hasFlag s statReachedEob
  hdrType := s.extractLsb' 5 2
  hdrFinal := hasFlag s statHdrFinal

/-- The code of a status (R271), a parameter (00_scope.md rule R10). -/
def statusCode (k : ErrorCodes) : Status → Nat
  | .ok => k.ok
  | .integrityError => k.integrityError
  | .payloadTooLarge => k.payloadTooLarge
  | .missingWorkspace => k.missingWorkspace
  | .notCompleted => k.notCompleted
  | .operationFailed => k.operationFailed
  | .stagingOverflow => k.stagingOverflow
  | .stagingUnderflow => k.stagingUnderflow
  | .badOptionCombination => k.badOptionCombination
  | .badCommand => k.badCommand

/-- The code an operation returns to its caller (R270, R271). -/
def Answer.code (c : Config) (a : Answer) : Nat := statusCode c.errCodes a.status

/-- `used = (push - pop) mod 256` (R45, R241). -/
def Fifo.used (f : Fifo) : Nat := (f.push - f.pop).toNat

/-- `free = 255 - used`: one slot is always reserved (R45). -/
def Fifo.free (f : Fifo) : Nat := fifoCapacity - 1 - f.used

/-- `empty`: `push = pop` (R45). -/
def Fifo.isEmpty (f : Fifo) : Bool := f.push == f.pop

/-- `full`: `(push + 1) mod 256 = pop` (R45). -/
def Fifo.isFull (f : Fifo) : Bool := f.push + 1 == f.pop

end Sys2Proof.Machine
end

