-- ==== Sys2Proof/Machine/Ownership.lean ====
section
/-! DEFINITION. Who may do what: the roles of 60_exceptions.md rule R290 and the ownership table of
20_memory.md rule R77. -/

namespace Sys2Proof.Machine

/-- The role of an agent; it never changes (R290). -/
def roleOf : Agent → Role
  | .sw _ => .sw
  | .hw => .hw
  | .owner _ => .owner

/-- The operations each role may issue: the table of R290. The agent "any" of `CRC16` (R140, R141) is SW or HW
(log entry 12). -/
def rolesOf : Opcode → List Role
  | .crc16 => [.sw, .hw]
  | .format => [.sw]
  | .submitMarker => [.sw]
  | .purgeMarker => [.sw]
  | .isFetched => [.sw]
  | .isCompleted => [.sw]
  | .verifyVariantCrc => [.sw]
  | .result => [.sw]
  | .verifyInvariantCrc => [.sw, .hw]
  | .hwFetch => [.hw]
  | .hwComplete => [.hw]
  | .encInflAsiv => [.sw]
  | .encDeflAsiv => [.sw]
  | .decInflAsv => [.sw]
  | .decDeflAsv => [.sw]
  | .carry => [.sw]
  | .decInflAsiv => [.hw]
  | .decDeflAsiv => [.hw]
  | .encInflAsv => [.hw]
  | .encDeflAsv => [.hw]
  | .fifoInit => [.owner]
  | .push => [.owner]
  | .push32 => [.owner]
  | .pop => [.owner]
  | .pop16 => [.owner]
  | .used => [.owner]
  | .free => [.owner]

/-- The rows of R77's table, by descriptor offset. -/
inductive Region
  | interlock
  | invariantPart
  | variantPart
  | driverBytes
deriving DecidableEq, Repr

/-- The row of R77 an offset falls in. -/
def regionOf (l : Layout) (o : Nat) : Region :=
  if o < interlockLen then .interlock
  else if o < l.invariantLen then .invariantPart
  else if l.driver.covers o then .driverBytes
  else .variantPart

/-- The columns of R77's table. -/
inductive Stage
  | software
  | submitted
  | completedUnseen
  | completedSeen
deriving DecidableEq, Repr

/-- The column of R77 a descriptor is in. -/
def stageOf (p : Phase) (observed : Bool) : Stage :=
  match p with
  | .unformatted => .software
  | .formatted => .software
  | .next => .submitted
  | .fetched => .submitted
  | .completed => if observed then .completedSeen else .completedUnseen

/-- Whether R77 lets a role read a region that is not the interlock word ("HW: read, after it has
seen next" in the second column). The model keeps no record of what HW has seen: it grants the read from
NEXT on, log entry 27. -/
def readGranted : Role → Region → Stage → Bool
  | .sw, .invariantPart, _ => true
  | .sw, .variantPart, .software => true
  | .sw, .variantPart, .completedSeen => true
  | .hw, .invariantPart, .submitted => true
  | .hw, .invariantPart, .completedUnseen => true
  | _, _, _ => false

/-- Whether R77 lets a role write a region that is not the interlock word. The driver's bytes are
SW's only through FORMAT, which zero-fills them (R42, R162). -/
def writeGranted : Role → Region → Stage → Bool
  | .sw, .invariantPart, .software => true
  | .sw, .invariantPart, .completedSeen => true
  | .sw, .variantPart, .software => true
  | .sw, .variantPart, .completedSeen => true
  | .sw, .driverBytes, .software => true
  | .sw, .driverBytes, .completedSeen => true
  | .hw, .variantPart, .submitted => true
  | _, _, _ => false

/-- Whether R77 lets a role turn the interlock word's byte at offset `o` from `b` into `v`. SW stores the
whole word where FORMAT may, ORs `next` or `purge` into SHI while HW owns the descriptor, and `purge`
until it observes the completion; HW ORs `fetched` or `completed` into HSI while it owns. -/
def interlockGranted (c : Config) (o : Nat) (b v : Byte) : Role → Stage → Bool
  | .sw, .software => true
  | .sw, .completedSeen => true
  | .sw, .submitted => o == c.layout.shi.off && (v == b ||| c.masks.next || v == b ||| c.masks.purge)
  | .sw, .completedUnseen => o == c.layout.shi.off && v == b ||| c.masks.purge
  | .hw, .submitted =>
    o == c.layout.hsi.off && (v == b ||| c.masks.fetched || v == b ||| c.masks.completed)
  | _, _ => false

end Sys2Proof.Machine
end

