-- ==== Sys2Proof/Machine/Ops.lean ====
section
/-! DEFINITION. The primitives of 00_scope.md rule R13 over the state: memory and interlock accesses,
barriers, what `fail` does, and the checks every operation makes before it is enabled. -/

namespace Sys2Proof.Machine

/-! Descriptor memory. -/

/-- What a byte that nothing has written reads as in the state after boot (R314): the `hsi` and `shi` bytes
of a descriptor read 0x00; every other byte is unspecified (`none`: the free value `Config.bootByte` of its
address). -/
def Memory.unlisted (l : Layout) (a : Nat) : Option Byte :=
  if a % l.size = l.hsi.off ∨ a % l.size = l.shi.off then some 0x00 else none

/-- What the byte at address `a` holds when the memory does not list it (R314, R52). -/
def unlistedByte (l : Layout) (a : Nat) : Byte := (Memory.unlisted l a).getD (Config.bootByte a)

/-- The byte at address `a`. Reading changes nothing (R70). -/
def Memory.read (l : Layout) (m : Memory) (a : Nat) : Byte :=
  match m.lookup a with
  | some b => b
  | none => unlistedByte l a

/-- List `b` at address `a`, addresses rising. -/
def Memory.insert (m : Memory) (a : Nat) (b : Byte) : Memory :=
  match m with
  | [] => [(a, b)]
  | (k, v) :: rest =>
    if a < k then (a, b) :: (k, v) :: rest
    else if a = k then (a, b) :: rest
    else (k, v) :: Memory.insert rest a b

/-- Store `b` at address `a`, keeping the canonical form: the value an unlisted address reads as is not
listed. -/
def Memory.write (l : Layout) (m : Memory) (a : Nat) (b : Byte) : Memory :=
  if Memory.unlisted l a = some b then m.filter (fun c => c.1 != a) else m.insert a b

/-- Store a run of bytes from address `a` up. -/
def Memory.writeBytes (l : Layout) (m : Memory) (a : Nat) : List Byte → Memory
  | [] => m
  | b :: bs => Memory.writeBytes l (m.write l a b) (a + 1) bs

/-- Store several runs of bytes, each at its offset from address `a`, in order. -/
def Memory.writeRuns (l : Layout) (m : Memory) (a : Nat) : List (Nat × List Byte) → Memory
  | [] => m
  | r :: rs => Memory.writeRuns l (m.writeBytes l (a + r.1) r.2) a rs

/-- The `n` bytes from address `a` up. -/
def Memory.readBytes (l : Layout) (m : Memory) (a n : Nat) : List Byte :=
  (List.range n).map fun i => m.read l (a + i)

/-- The canonical form: addresses strictly rising, and nothing listed that reads the same unlisted. -/
def Memory.wf (l : Layout) (m : Memory) : Bool :=
  decide (m.Pairwise fun x y => x.1 < y.1)
    && m.all fun c => decide (Memory.unlisted l c.1 ≠ some c.2)

/-- `LAYOUT` of the machine. -/
abbrev State.layout (s : State) : Layout := s.cfg.layout

/-- The address of `D_d.b[o]` (R65). -/
def descAddr (l : Layout) (d o : Nat) : Nat := l.size * d + o

/-- The byte at address `a`. -/
def State.read (s : State) (a : Nat) : Byte := s.mem.read s.layout a

/-- The address of `D_d.b[o]` in this machine (R65). -/
def State.addr (s : State) (d o : Nat) : Nat := descAddr s.layout d o

/-- `D.b[o]` (R24). -/
def State.byte (s : State) (d o : Nat) : Byte := s.read (s.addr d o)

/-- `MemRead(D, o, n)` (R66). -/
def State.memRead (s : State) (d o n : Nat) : List Byte :=
  s.mem.readBytes s.layout (s.addr d o) n

/-- `MemWrite(D, o, n, B)` (R66). -/
def State.memWrite (s : State) (d o : Nat) (bs : List Byte) : State :=
  { s with mem := s.mem.writeBytes s.layout (s.addr d o) bs }

/-- Several `MemWrite`s into one descriptor, each at its offset, in order. -/
def State.memWriteRuns (s : State) (d : Nat) (rs : List (Nat × List Byte)) : State :=
  { s with mem := s.mem.writeRuns s.layout (s.addr d 0) rs }

/-- The bytes of a field (R24). -/
def State.fieldBytes (s : State) (d : Nat) (f : Field) : List Byte := s.memRead d f.off f.len

/-- Reading a numeric field: its bytes composed big-endian (R24, R60). -/
def State.fieldNat (s : State) (d : Nat) (f : Field) : Nat := ofBe (s.fieldBytes d f)

/-! The interlock word: accessed only as one 32-bit unit (R68). -/

/-- `AtomicRead32(D)` (R68). -/
def State.atomicRead32 (s : State) (d : Nat) : Interlock :=
  Interlock.ofBytes s.layout (s.memRead d 0 interlockLen)

/-- `AtomicWrite32(D, w)` (R68). -/
def State.atomicWrite32 (s : State) (d : Nat) (w : Interlock) : State :=
  s.memWrite d 0 (w.bytes s.layout)

/-- `AtomicOr32(D, m)` (R69): read, OR, store in one indivisible step. -/
def State.atomicOr32 (s : State) (d : Nat) (m : Interlock) : State :=
  s.atomicWrite32 d ((s.atomicRead32 d).or m)

/-- `Release()` (R72). Each operation is one step and the steps of all agents are in one order, so every
earlier write is visible already (log entry 9). -/
def State.release (s : State) : State := s

/-- `Acquire()` (R72); see `State.release`. -/
def State.acquire (s : State) : State := s

/-! What stands beside the memory. -/

/-- Replace what is kept for descriptor `d`. -/
def State.setDesc (s : State) (d : Nat) (x : Desc) : State :=
  { s with descs := s.descs.set d x }

/-- `phase(D)` (R30). -/
def State.phase (s : State) (d : Nat) (x : Desc) : Phase :=
  phaseOf s.cfg.masks (s.atomicRead32 d) x.fmt

/-- `if fmt[D]: sw_obs_done[D] <- true` (R174, R178). -/
def State.observeDone (s : State) (d : Nat) (x : Desc) : State :=
  if x.fmt then s.setDesc d { x with swObsDone := true } else s

/-- The `fetched` flag of a descriptor. -/
def State.isFetched (s : State) (d : Nat) : Bool := (s.atomicRead32 d).isFetched s.cfg.masks

/-- The `completed` flag of a descriptor. -/
def State.isCompleted (s : State) (d : Nat) : Bool := (s.atomicRead32 d).isCompleted s.cfg.masks

/-- The invariant part as HW copies it and VERIFY_INVARIANT_CRC checks it (R180, R184): four zero bytes,
then the header behind the interlock word and the ASIV region (bytes 0x04 to 0x7F by default). -/
def State.invariantPart (s : State) (d : Nat) : List Byte :=
  blankWord ++ s.memRead d interlockLen (s.layout.invariantLen - interlockLen)

/-- A draw has been taken (R13): the next one is another. -/
def State.nextDraw (s : State) : State := { s with draws := s.draws + 1 }

/-! Delivery (60_exceptions.md rules R270 to R277). -/

/-- Return results to the caller: the operation's step is over. -/
def State.give (s : State) (st : Status) (p : Payload) : Out :=
  .next { s with answer := some ⟨st, p⟩ }

/-- `fail <Error>` (R273), the block's counterpart of taking an exception: the operation ends, returns the
code, and has changed no state. There is no handler, no vector and no saved state, and so no operation
that returns from it (R276). -/
def State.fail (s : State) (e : Status) : Out := s.give e .empty

/-! Enabling. -/

/-- The issuer's role may issue the operation, or the operation is refused (R290). -/
def issue (s : State) (op : Opcode) (k : Out) : Out :=
  if (rolesOf op).contains (roleOf s.issuer) then k else .refused .roleNotGranted

/-- The issuer is not a software thread other than `thread` (R293). -/
def threadAllowed (a : Agent) (thread : Nat) : Bool :=
  match a with
  | .sw t => t == thread
  | .hw => true
  | .owner _ => true

/-- An operation on descriptor `d`: the index names a descriptor (R23), its base is a multiple of 4
(R67), and the issuer is not a second software thread (R293). -/
def onDescriptor (s : State) (d : Byte) (k : Desc → Out) : Out :=
  match s.descs[d.toNat]? with
  | none => .fault (.noSuchDescriptor d)
  | some x =>
    if x.base % 4 ≠ 0 then .refused .misalignedDescriptor
    else if threadAllowed s.issuer x.thread then k x
    else .refused .secondSoftwareThread

/-- The issuer is the session that owns the FIFO (R260). -/
def ownsFifo (a : Agent) (session : Nat) : Bool :=
  match a with
  | .owner n => n == session
  | .sw _ => false
  | .hw => false

/-- An operation of the FIFO: only its owner issues it (R83). -/
def onFifo (s : State) (k : Out) : Out :=
  if ownsFifo s.issuer s.fifo.session then k else .refused .notFifoOwner

end Sys2Proof.Machine
end

