-- ==== Sys2Proof/Machine/Descriptor.lean ====
section
/-! DEFINITION. The software side of the Command Descriptor unit (41_command_descriptor.md rules R160 to
R182). -/

namespace Sys2Proof.Machine

/-- The fields FORMAT sets, each at its offset (R160, R162). -/
def formatFields (c : Config) (acfunc cmd : Byte) (opts : U16) (seq : Nat) (ats : U64)
    (asiv : List Byte) : List (Nat × List Byte) :=
  [(c.layout.preamble.off, [c.pre]), (c.layout.xdir.off, [c.xdir]),
    (c.layout.seq.off, toBe c.layout.seq.len seq),
    (c.layout.acfunc.off, toBe c.layout.acfunc.len acfunc.toNat),
    (c.layout.cmd.off, toBe c.layout.cmd.len cmd.toNat),
    (c.layout.opts.off, toBe c.layout.opts.len opts.toNat),
    (c.layout.sur.off, toBe c.layout.sur.len c.sur.toNat),
    (c.layout.psp.off, toBe c.layout.psp.len c.psp.toNat),
    (c.layout.asiv.off, if c.atsPresent then toBe64 ats else []),
    (c.asivOff, asiv)]

/-- The descriptor image FORMAT builds before the CRC is stored: everything it does not set is 0x00 (R160,
R162). -/
def formatImage (c : Config) (acfunc cmd : Byte) (opts : U16) (seq : Nat) (ats : U64)
    (asiv : List Byte) : List Byte :=
  layOut c.layout.size (formatFields c acfunc cmd opts seq ats asiv)

/-- The state FORMAT leaves (R160, R74): every byte but the interlock word, then the interlock word in one
atomic store with the invariant CRC and all flags 0; a new submission cycle begins. -/
def formatted (s : State) (d : Nat) (x : Desc) (img : List Byte) : State :=
  ((s.memWrite d interlockLen (img.drop interlockLen)).atomicWrite32 d
      ⟨invariantCrc s.cfg (img.take s.layout.invariantLen), 0, 0⟩).setDesc d
    { x with fmt := true, swObsDone := false }

/-- FORMAT is enabled while SW owns every byte: phase UNFORMATTED or FORMATTED, or completion observed
(R78, R160). -/
def formatEnabled (p : Phase) (observed : Bool) : Bool :=
  p == .unformatted || p == .formatted || observed

/-- `FORMAT` (R160). -/
def execFormat (d acfunc cmd : Byte) (opts : U16) (seq : Nat) (ats : U64) (alen : Byte)
    (asiv : List Byte) (s : State) : Out :=
  issue s .format <| onDescriptor s d fun x =>
    if formatEnabled (s.phase d.toNat x) x.swObsDone then
      if s.cfg.asivCap < alen.toNat then s.fail .payloadTooLarge
      else
        (formatted s d.toNat x (formatImage s.cfg acfunc cmd opts seq ats asiv)).give .ok .empty
    else .refused .formatNotOwned

/-- `SUBMIT_MARKER` (R166): a release, then `next` is set; refused on a descriptor never formatted. In COMPLETED
it runs and changes nothing (R166, R182), although R77 lists no OR of `next` there: the model's choice, log
entry 26. -/
def execSubmitMarker (d : Byte) (s : State) : Out :=
  issue s .submitMarker <| onDescriptor s d fun x =>
    if s.phase d.toNat x = .unformatted then .refused .submitUnformatted
    else (s.release.atomicOr32 d.toNat (maskNext s.cfg.masks)).give .ok .empty

/-- `PURGE_MARKER` (R170): `purge` is set; from the FORMAT until completion is observed. No barrier. -/
def execPurgeMarker (d : Byte) (s : State) : Out :=
  issue s .purgeMarker <| onDescriptor s d fun x =>
    if x.fmt && !x.swObsDone then (s.atomicOr32 d.toNat (maskPurge s.cfg.masks)).give .ok .empty
    else .refused .purgeOutsideWindow

/-- `IS_FETCHED` (R173). -/
def execIsFetched (d : Byte) (s : State) : Out :=
  issue s .isFetched <| onDescriptor s d fun _ =>
    s.give .ok (.flag (s.isFetched d.toNat))

/-- `IS_COMPLETED` (R174): seeing `completed` is an acquire and is what "observed by software" means. -/
def execIsCompleted (d : Byte) (s : State) : Out :=
  issue s .isCompleted <| onDescriptor s d fun x =>
    if s.isCompleted d.toNat then
      (s.acquire.observeDone d.toNat x).give .ok (.flag true)
    else s.give .ok (.flag false)

/-- The answer of the two verify operations: `ok`, with status `IntegrityError` when it is false. -/
def State.giveVerify (s : State) (ok : Bool) : Out :=
  s.give (if ok then .ok else .integrityError) (.flag ok)

/-- The ASV region (R25). -/
def State.asvBytes (s : State) (d : Nat) : List Byte := s.fieldBytes d s.layout.asv

/-- `variant_crc` (R39). -/
def State.storedVariantCrc (s : State) (d : Nat) : U16 :=
  BitVec.ofNat 16 (s.fieldNat d s.layout.variantCrc)

/-- The stored variant CRC is that of the ASV (R176). -/
def State.variantCrcMatches (s : State) (d : Nat) : Bool :=
  variantCrc (s.asvBytes d) == s.storedVariantCrc d

/-- HW may be writing the variant part, or SW has not observed that it is done: phases NEXT and FETCHED,
and COMPLETED before the observation (R176, R77). -/
def variantRaces (p : Phase) (observed : Bool) : Bool :=
  match p with
  | .unformatted => false
  | .formatted => false
  | .next => true
  | .fetched => true
  | .completed => !observed

/-- `VERIFY_VARIANT_CRC` (R176): the comparison, and a draw where the reads race with HW. -/
def execVerifyVariantCrc (d : Byte) (s : State) : Out :=
  issue s .verifyVariantCrc <| onDescriptor s d fun x =>
    if variantRaces (s.phase d.toNat x) x.swObsDone then
      s.nextDraw.giveVerify (Config.drawVerify s.draws)
    else s.giveVerify (s.variantCrcMatches d.toNat)

/-- `return_code` (R40). -/
def State.returnCode (s : State) (d : Nat) : U16 := BitVec.ofNat 16 (s.fieldNat d s.layout.retc)

/-- `attention_code` (R40). -/
def State.attentionCode (s : State) (d : Nat) : U16 := BitVec.ofNat 16 (s.fieldNat d s.layout.attn)

/-- `progress_indicator` (R40). -/
def State.progressIndicator (s : State) (d : Nat) : U32 :=
  BitVec.ofNat 32 (s.fieldNat d s.layout.progress)

/-- When a completed command counts as failed (R179). -/
def resultStatus (c : Config) (rc attn : U16) : Status :=
  if c.retcOk.contains rc && attn == 0 then .ok else .operationFailed

/-- `RESULT` (R178): `NotCompleted` first; then the four values, with `OperationFailed` where R179 says. -/
def execResult (d : Byte) (s : State) : Out :=
  issue s .result <| onDescriptor s d fun x =>
    if s.isCompleted d.toNat then
      (s.acquire.observeDone d.toNat x).give
        (resultStatus s.cfg (s.returnCode d.toNat) (s.attentionCode d.toNat))
        (.result (s.returnCode d.toNat) (s.attentionCode d.toNat) (s.progressIndicator d.toNat)
          (s.asvBytes d.toNat))
    else s.fail .notCompleted

/-- The stored invariant CRC is that of the invariant part (R180); the flags do not enter. -/
def State.invariantCrcMatches (s : State) (d : Nat) : Bool :=
  invariantCrc s.cfg (s.invariantPart d) == (s.atomicRead32 d).icrc

/-- `VERIFY_INVARIANT_CRC` (R180): SW in any phase; HW where R77 lets it read the invariant part (log entry 13).
By HW in NEXT, before any HW_FETCH and so before an acquire, it compares the bytes as they stand: the
model's choice, log entry 27. -/
def execVerifyInvariantCrc (d : Byte) (s : State) : Out :=
  issue s .verifyInvariantCrc <| onDescriptor s d fun x =>
    if readGranted (roleOf s.issuer) .invariantPart (stageOf (s.phase d.toNat x) x.swObsDone) then
      s.giveVerify (s.invariantCrcMatches d.toNat)
    else .refused .accessNotGranted

end Sys2Proof.Machine
end

