-- ==== Sys2Proof/Machine/Engine.lean ====
section
/-! DEFINITION. The meaning of the Checksum Engine's one operation (40_checksum_engine.md rule R141). -/

namespace Sys2Proof.Machine

/-- `CRC16` (R141): the checksum of the first `n` bytes of `data`, continued from `init`. It reads and
writes no state, and is always enabled. SW and HW may issue it (R290, log entry 12). -/
def execCrc16 (init : U16) (n : Nat) (data : List Byte) (s : State) : Out :=
  issue s .crc16 <| s.give .ok (.crc (crc16 (data.take n) init))

end Sys2Proof.Machine
end

