-- ==== Sys2Proof/Machine/Overlay.lean ====
section
/-! DEFINITION. The Compression Payload Overlay unit (42_payload_overlay.md): validation, the encoders and
decoders of the four overlays, the carry, and the workspace layout. Every operation is a pure function:
it reads and writes no state of the block but the answer it returns. -/

namespace Sys2Proof.Machine

/-! Selection and validation (R200 to R204). -/

/-- Whether an overlay applies to a descriptor's `accelerator_function` and `command` (R99). -/
def overlayApplies (c : Config) (acfunc cmd : Byte) : Bool :=
  acfunc == c.acfuncZip && (cmd == c.cmdInflate || cmd == c.cmdDeflate)

/-- The buffer is a list-of-segments. -/
def isSegList : BufKind → Bool
  | .flat => false
  | .segList => true

/-- The indirect-buffer option bits agree with the buffer kinds (R203). -/
def kindsConsistent (m : OptMasks) (opts : U16) (inKind outKind : BufKind) : Bool :=
  hasOpt opts m.ibufIndir == isSegList inKind &&
    hasOpt opts m.obufIndir == isSegList outKind

/-- A set option requires its address to be nonzero, and it is 0 (R204). -/
def requiredMissing (opts mask : U16) (addr : U64) : Bool := hasOpt opts mask && addr == 0

/-- Some required address is absent, inflate column of R204, rows in table order. -/
def inflWorkspaceMissing (m : OptMasks) (opts : U16) (f : InflFields) : Bool :=
  requiredMissing opts m.dictRestore f.inDict || requiredMissing opts m.dictSave f.outDict
    || requiredMissing opts m.stateProvided f.scratch || requiredMissing opts m.stateSave f.scratch

/-- Some required address is absent, deflate column of R204: the state options require nothing. -/
def deflWorkspaceMissing (m : OptMasks) (opts : U16) (f : DeflFields) : Bool :=
  requiredMissing opts m.dictRestore f.inDict || requiredMissing opts m.dictSave f.outDict

/-! The byte layouts. -/

/-- F-PFX, the fields both ASIV overlays begin with (R104). -/
def prefixRuns (p : PrefixLayout) (inBuff : U64) (inBuffLen inCrc32 : U32) (outBuff : U64)
    (outBuffLen inAdler32 : U32) (inDict : U64) (inDictLen : U32) : List (Nat × List Byte) :=
  [(p.inBuff, toBe64 inBuff), (p.inBuffLen, toBe32 inBuffLen), (p.inCrc32, toBe32 inCrc32),
    (p.outBuff, toBe64 outBuff), (p.outBuffLen, toBe32 outBuffLen), (p.inAdler32, toBe32 inAdler32),
    (p.inDict, toBe64 inDict), (p.inDictLen, toBe32 inDictLen)]

/-- The fields of F-IASIV, each at its offset (R105). -/
def inflAsivRuns (o : OvlLayout) (f : InflFields) : List (Nat × List Byte) :=
  prefixRuns o.pfx f.inBuff f.inBuffLen f.inCrc32 f.outBuff f.outBuffLen f.inAdler32 f.inDict
      f.inDictLen
    ++ [(o.iasiv.scratch, toBe64 f.scratch), (o.iasiv.scratchLen, toBe32 f.scratchLen),
      (o.iasiv.inHdrBits, toBe16 f.inHdrBits), (o.iasiv.hdrIb, [f.hdrIb]),
      (o.iasiv.scratchIb, [f.scratchIb]), (o.iasiv.outDict, toBe64 f.outDict),
      (o.iasiv.outDictLen, toBe32 f.outDictLen)]

/-- F-IASIV, the inflate ASIV payload (R105, R205). -/
def inflAsivBytes (o : OvlLayout) (f : InflFields) : List Byte := layOut asivLen (inflAsivRuns o f)

/-- The fields of F-DASIV, each at its offset (R106). -/
def deflAsivRuns (o : OvlLayout) (f : DeflFields) : List (Nat × List Byte) :=
  prefixRuns o.pfx f.inBuff f.inBuffLen f.inCrc32 f.outBuff f.outBuffLen f.inAdler32 f.inDict
      f.inDictLen
    ++ [(o.dasiv.outDict, toBe64 f.outDict), (o.dasiv.outDictLen, toBe32 f.outDictLen),
      (o.dasiv.ibits, f.ibits), (o.dasiv.inumbits, [f.inumbits])]

/-- F-DASIV, the deflate ASIV payload (R106, R207): `ibits` verbatim. -/
def deflAsivBytes (o : OvlLayout) (f : DeflFields) : List Byte := layOut asivLen (deflAsivRuns o f)

/-- The fields of F-IASIV (R105, R214); reserved bytes are ignored. -/
def inflAsivFields (o : OvlLayout) (a : List Byte) : InflFields where
  inBuff := be64At a o.pfx.inBuff
  inBuffLen := be32At a o.pfx.inBuffLen
  inCrc32 := be32At a o.pfx.inCrc32
  outBuff := be64At a o.pfx.outBuff
  outBuffLen := be32At a o.pfx.outBuffLen
  inAdler32 := be32At a o.pfx.inAdler32
  inDict := be64At a o.pfx.inDict
  inDictLen := be32At a o.pfx.inDictLen
  scratch := be64At a o.iasiv.scratch
  scratchLen := be32At a o.iasiv.scratchLen
  inHdrBits := be16At a o.iasiv.inHdrBits
  hdrIb := byteAt a o.iasiv.hdrIb
  scratchIb := byteAt a o.iasiv.scratchIb
  outDict := be64At a o.iasiv.outDict
  outDictLen := be32At a o.iasiv.outDictLen

/-- The fields of F-DASIV (R106, R215). -/
def deflAsivFields (o : OvlLayout) (a : List Byte) : DeflFields where
  inBuff := be64At a o.pfx.inBuff
  inBuffLen := be32At a o.pfx.inBuffLen
  inCrc32 := be32At a o.pfx.inCrc32
  outBuff := be64At a o.pfx.outBuff
  outBuffLen := be32At a o.pfx.outBuffLen
  inAdler32 := be32At a o.pfx.inAdler32
  inDict := be64At a o.pfx.inDict
  inDictLen := be32At a o.pfx.inDictLen
  outDict := be64At a o.dasiv.outDict
  outDictLen := be32At a o.dasiv.outDictLen
  ibits := slice a o.dasiv.ibits ibitsLen
  inumbits := byteAt a o.dasiv.inumbits

/-- The fields of F-IASV, each at its offset (R107). -/
def inflAsvRuns (o : OvlLayout) (r : InflResult) : List (Nat × List Byte) :=
  [(o.iasv.outDictUsed, toBe16 r.outDictUsed), (o.iasv.copyblockLen, [r.copyblockLen]),
    (o.iasv.inflStat, [r.inflStat]), (o.iasv.hdrStart, toBe32 r.hdrStart),
    (o.iasv.hdrStartBits, [r.hdrStartBits]), (o.iasv.outCrc32, toBe32 r.outCrc32),
    (o.iasv.outAdler32, toBe32 r.outAdler32), (o.iasv.inpProcessed, toBe32 r.inpProcessed),
    (o.iasv.outpReturned, toBe32 r.outpReturned), (o.iasv.outDictOffs, [r.outDictOffs])]

/-- F-IASV, the inflate ASV (R107, R216). `infl_stat` is stored as given, its reserved bits 1 and 4 too: R216
stores the operand, where R122 and ruling G2 have reserved bits written 0 (DEDUCED, log entry 25). -/
def inflAsvBytes (o : OvlLayout) (r : InflResult) : List Byte := layOut asvLen (inflAsvRuns o r)

/-- The fields of F-DASV, each at its offset (R108). -/
def deflAsvRuns (o : OvlLayout) (r : DeflResult) : List (Nat × List Byte) :=
  [(o.dasv.outDictUsed, toBe16 r.outDictUsed), (o.dasv.onumbits, [r.onumbits]),
    (o.dasv.outCrc32, toBe32 r.outCrc32), (o.dasv.outAdler32, toBe32 r.outAdler32),
    (o.dasv.inpProcessed, toBe32 r.inpProcessed), (o.dasv.outpReturned, toBe32 r.outpReturned),
    (o.dasv.otail, r.otail)]

/-- F-DASV, the deflate ASV (R108, R217): `otail` verbatim. -/
def deflAsvBytes (o : OvlLayout) (r : DeflResult) : List Byte := layOut asvLen (deflAsvRuns o r)

/-- The fields of F-IASV (R107, R209). -/
def inflAsvFields (o : OvlLayout) (a : List Byte) : InflResult where
  outDictUsed := be16At a o.iasv.outDictUsed
  copyblockLen := byteAt a o.iasv.copyblockLen
  inflStat := byteAt a o.iasv.inflStat
  hdrStart := be32At a o.iasv.hdrStart
  hdrStartBits := byteAt a o.iasv.hdrStartBits
  outCrc32 := be32At a o.iasv.outCrc32
  outAdler32 := be32At a o.iasv.outAdler32
  inpProcessed := be32At a o.iasv.inpProcessed
  outpReturned := be32At a o.iasv.outpReturned
  outDictOffs := byteAt a o.iasv.outDictOffs

/-- The fields of F-DASV (R108, R212). -/
def deflAsvFields (o : OvlLayout) (otailLen : Nat) (a : List Byte) : DeflResult where
  outDictUsed := be16At a o.dasv.outDictUsed
  onumbits := byteAt a o.dasv.onumbits
  outCrc32 := be32At a o.dasv.outCrc32
  outAdler32 := be32At a o.dasv.outAdler32
  inpProcessed := be32At a o.dasv.inpProcessed
  outpReturned := be32At a o.dasv.outpReturned
  otail := slice a o.dasv.otail otailLen

/-! The operations. -/

/-- `ENC_INFL_ASIV` (R205): `BadOptionCombination` before `MissingWorkspace` (R274). -/
def execEncInflAsiv (opts : U16) (p : InflParams) (s : State) : Out :=
  issue s .encInflAsiv <|
    if !kindsConsistent s.cfg.opt opts p.inKind p.outKind then s.fail .badOptionCombination
    else if inflWorkspaceMissing s.cfg.opt opts p.toInflFields then s.fail .missingWorkspace
    else s.give .ok (.bytes (inflAsivBytes s.cfg.ovl p.toInflFields))

/-- `ENC_DEFL_ASIV` (R207): refused when the carry cannot be held in 7 bytes. -/
def execEncDeflAsiv (opts : U16) (p : DeflParams) (s : State) : Out :=
  issue s .encDeflAsiv <|
    if 8 * ibitsLen < p.inumbits.toNat then .refused .carryTooWide
    else if !kindsConsistent s.cfg.opt opts p.inKind p.outKind then s.fail .badOptionCombination
    else if deflWorkspaceMissing s.cfg.opt opts p.toDeflFields then s.fail .missingWorkspace
    else s.give .ok (.bytes (deflAsivBytes s.cfg.ovl p.toDeflFields))

/-- `DEC_INFL_ASV` (R209): total on the 64 bytes; `BadCommand` on another tag. -/
def execDecInflAsv (cmd : Byte) (asv : List Byte) (s : State) : Out :=
  issue s .decInflAsv <|
    if cmd ≠ s.cfg.cmdInflate then s.fail .badCommand
    else s.give .ok (.inflResult (inflAsvFields s.cfg.ovl asv)
      (inflStatOf (inflAsvFields s.cfg.ovl asv).inflStat))

/-- `DEC_DEFL_ASV` (R212). -/
def execDecDeflAsv (cmd : Byte) (asv : List Byte) (s : State) : Out :=
  issue s .decDeflAsv <|
    if cmd ≠ s.cfg.cmdDeflate then s.fail .badCommand
    else s.give .ok (.deflResult (deflAsvFields s.cfg.ovl s.cfg.otailLen asv))

/-- `DEC_INFL_ASIV` (R214). -/
def execDecInflAsiv (cmd : Byte) (asiv : List Byte) (s : State) : Out :=
  issue s .decInflAsiv <|
    if cmd ≠ s.cfg.cmdInflate then s.fail .badCommand
    else s.give .ok (.inflFields (inflAsivFields s.cfg.ovl asiv))

/-- `DEC_DEFL_ASIV` (R215). -/
def execDecDeflAsiv (cmd : Byte) (asiv : List Byte) (s : State) : Out :=
  issue s .decDeflAsiv <|
    if cmd ≠ s.cfg.cmdDeflate then s.fail .badCommand
    else s.give .ok (.deflFields (deflAsivFields s.cfg.ovl asiv))

/-- `ENC_INFL_ASV` (R216): every field as the operand gives it (log entry 25). -/
def execEncInflAsv (r : InflResult) (s : State) : Out :=
  issue s .encInflAsv <| s.give .ok (.bytes (inflAsvBytes s.cfg.ovl r))

/-- `ENC_DEFL_ASV` (R217). -/
def execEncDeflAsv (r : DeflResult) (s : State) : Out :=
  issue s .encDeflAsv <| s.give .ok (.bytes (deflAsvBytes s.cfg.ovl r))

/-- The precondition of `CARRY` (R220): at most `8*OTAIL_LEN` bits, whole drained bytes among them, and at
most 56 bits left. -/
def carryEnabled (c : Config) (onumbits k : Nat) : Bool :=
  decide (onumbits ≤ 8 * c.otailLen) && decide (8 * k ≤ onumbits)
    && decide (onumbits - 8 * k ≤ 8 * ibitsLen)

/-- The seven `ibits` bytes of R220: the bytes that hold the remaining bits, then 0x00. -/
def carryIbits (onumbits k : Nat) (otail : List Byte) : List Byte :=
  (List.range ibitsLen).map fun i =>
    if i < (onumbits - 8 * k + 7) / 8 then byteAt otail (k + i) else 0

/-- `CARRY` (R220): `k` whole bytes are drained, the rest is carried; no byte is swapped, no bit shifted. -/
def execCarry (onumbits k : Byte) (otail : List Byte) (s : State) : Out :=
  issue s .carry <|
    if carryEnabled s.cfg onumbits.toNat k.toNat then
      s.give .ok (.carry (otail.take k.toNat) (carryIbits onumbits.toNat k.toNat otail)
        (BitVec.ofNat 8 (onumbits.toNat - 8 * k.toNat)))
    else .refused .carryOutsidePrecondition

/-- `bits(B, n)` of R221: the first `n` bits of a byte array, bit `j` being bit `j mod 8` of byte
`j div 8` (R110). -/
def bitsOf (bs : List Byte) (n : Nat) : List Bool :=
  (List.range n).map fun j => (byteAt bs (j / 8)).getLsbD (j % 8)

/-! The workspace (R230), address arithmetic for the caller's convenience. -/

/-- Where dictionary slot `i` of a workspace at `wsp` begins. -/
def workspaceSlot (wsp i : Nat) : Nat := wsp + i * dictSlotLen

/-- Where the tree-scratch area begins. -/
def workspaceTree (wsp : Nat) : Nat := wsp + dictSlots * dictSlotLen

/-- `WSP_LEN`. -/
def workspaceLen : Nat := dictSlots * dictSlotLen + Config.treeLen

end Sys2Proof.Machine
end

