-- ==== Sys2Proof/Machine/Hardware.lean ====
section
/-! DEFINITION. The hardware side of the Command Descriptor unit (41_command_descriptor.md rules R184 to
R188). What the accelerator computes is not in the spec: every such value is a draw. -/

namespace Sys2Proof.Machine

/-- The overlay HW decodes from a snapshot (R185). -/
inductive OverlayView
  | inflate (f : InflFields)
  | deflate (f : DeflFields)
  | none
deriving DecidableEq, Repr

/-- What HW parses from its snapshot (R185). The two buffer kinds are not in ASIV: they are read from
`command_options` (R214). -/
structure HwCommand where
  acfunc : Byte
  cmd : Byte
  opts : U16
  seq : Nat
  ats : Option U64
  inKind : BufKind
  outKind : BufKind
  overlay : OverlayView
deriving DecidableEq, Repr

/-- The overlay that `command` selects, on the ASIV payload (R99, R185, R214, R215). -/
def overlayView (c : Config) (acfunc cmd : Byte) (payload : List Byte) : OverlayView :=
  if overlayApplies c acfunc cmd then
    if cmd = c.cmdInflate then .inflate (inflAsivFields c.ovl payload)
    else .deflate (deflAsivFields c.ovl payload)
  else .none

/-- A buffer kind as an indirect-buffer option bit gives it (R214). -/
def kindOfOption (opts mask : U16) : BufKind := if hasOpt opts mask then .segList else .flat

/-- A numeric field of a snapshot. -/
def snapNat (snap : List Byte) (f : Field) : Nat := beAt snap f.off f.len

/-- `accelerator_function` of a snapshot (R185). -/
def snapAcfunc (c : Config) (snap : List Byte) : Byte := BitVec.ofNat 8 (snapNat snap c.layout.acfunc)

/-- `command` of a snapshot (R185). -/
def snapCmd (c : Config) (snap : List Byte) : Byte := BitVec.ofNat 8 (snapNat snap c.layout.cmd)

/-- `command_options` of a snapshot (R185). -/
def snapOpts (c : Config) (snap : List Byte) : U16 := BitVec.ofNat 16 (snapNat snap c.layout.opts)

/-- Parsing the snapshot (R185). -/
def parseSnapshot (c : Config) (snap : List Byte) : HwCommand where
  acfunc := snapAcfunc c snap
  cmd := snapCmd c snap
  opts := snapOpts c snap
  seq := snapNat snap c.layout.seq
  ats := if c.atsPresent then some (be64At snap c.layout.asiv.off) else none
  inKind := kindOfOption (snapOpts c snap) c.opt.ibufIndir
  outKind := kindOfOption (snapOpts c snap) c.opt.obufIndir
  overlay := overlayView c (snapAcfunc c snap) (snapCmd c snap) (snap.drop c.asivOff)

/-- The draws of HW_FETCH (R184). -/
structure FetchDraws where
  ts : U64
  snap : List Byte
deriving DecidableEq, Repr

/-- The draws of HW_FETCH number `n`. -/
def fetchDraws (l : Layout) (n : Nat) : FetchDraws where
  ts := Config.drawDispatchTs n
  snap := (List.range l.invariantLen).map (Config.drawSnapByte n)

/-- The snapshot HW takes: the invariant part, or a draw when `LINK_FAULTS`; and the result of checking
it against the CRC in the interlock word (R184). -/
def takeSnapshot (s : State) (d : Nat) (draws : FetchDraws) : Snapshot :=
  let snap := if s.cfg.linkFaults then draws.snap else s.invariantPart d
  ⟨snap, snapshotCrc s.cfg snap == (s.atomicRead32 d).icrc⟩

/-- The state HW_FETCH leaves (R184), on the given draws. -/
def fetched (s : State) (d : Nat) (x : Desc) (draws : FetchDraws) : State :=
  ((s.acquire.setDesc d { x with snap := takeSnapshot s d draws }).memWrite d
    s.layout.dispatchTs.off (toBe s.layout.dispatchTs.len draws.ts.toNat)).atomicOr32 d
    (maskFetched s.cfg.masks)

/-- `HW_FETCH` (R184): enabled in phase NEXT; HW acts on the interlock bits alone, and `purge` does not
disable it. -/
def execHwFetch (d : Byte) (s : State) : Out :=
  issue s .hwFetch <| onDescriptor s d fun x =>
    if s.phase d.toNat x = .next then
      ((fetched s d.toNat x (fetchDraws s.layout s.draws)).nextDraw).give .ok .empty
    else .refused .fetchOutsideNext

/-- The draws of HW_COMPLETE (R186); `rsv` holds the bytes of the reserved variant ranges by descriptor
offset. -/
structure CompletionDraws where
  asv : List Byte
  rc : U16
  attn : U16
  progress : U32
  ts : U64
  rsv : List Byte
  variantCrc : U16
deriving DecidableEq, Repr

/-- The draws of HW_COMPLETE number `n`. -/
def completionDraws (l : Layout) (n : Nat) : CompletionDraws where
  asv := (List.range asvLen).map (Config.drawAsvByte n)
  rc := Config.drawRc n
  attn := Config.drawAttn n
  progress := Config.drawProgress n
  ts := Config.drawCompletionTs n
  rsv := (List.range l.size).map (Config.drawReservedByte n)
  variantCrc := Config.drawVariantCrc n

/-- The `return_code` HW stores: its own two checks first, then the draw (R186, R187). -/
def completionCode (c : Config) (snap : Snapshot) (drawn : U16) : U16 :=
  if !snap.icrcOk then Config.retcIcrcFail
  else if c.zipOnly && !overlayApplies c (snapAcfunc c snap.bytes) (snapCmd c snap.bytes) then
    Config.retcBadCmd
  else drawn

/-- The `variant_crc` HW stores: the CRC of the ASV it stores, or a draw when `LINK_FAULTS` (R186). -/
def completionCrc (c : Config) (draws : CompletionDraws) : U16 :=
  if c.linkFaults then draws.variantCrc else variantCrc draws.asv

/-- The plain writes of HW_COMPLETE, in the order of R186, the reserved variant bytes last. -/
def completionRuns (c : Config) (snap : Snapshot) (draws : CompletionDraws) :
    List (Nat × List Byte) :=
  [(c.layout.asv.off, draws.asv), (c.layout.variantCrc.off, toBe16 (completionCrc c draws)),
    (c.layout.retc.off, toBe c.layout.retc.len (completionCode c snap draws.rc).toNat),
    (c.layout.attn.off, toBe c.layout.attn.len draws.attn.toNat),
    (c.layout.progress.off, toBe c.layout.progress.len draws.progress.toNat),
    (c.layout.completionTs.off, toBe c.layout.completionTs.len draws.ts.toNat)]
    ++ c.layout.reservedVariant.map fun o => (o, [byteAt draws.rsv o])

/-- The state HW_COMPLETE leaves (R186), on the given draws: the plain writes, a release, and `completed`
last. -/
def completed (s : State) (d : Nat) (x : Desc) (draws : CompletionDraws) : State :=
  (s.memWriteRuns d (completionRuns s.cfg x.snap draws)).release.atomicOr32 d
    (maskCompleted s.cfg.masks)

/-- `HW_COMPLETE` (R186): enabled in phase FETCHED. -/
def execHwComplete (d : Byte) (s : State) : Out :=
  issue s .hwComplete <| onDescriptor s d fun x =>
    if s.phase d.toNat x = .fetched then
      ((completed s d.toNat x (completionDraws s.layout s.draws)).nextDraw).give .ok .empty
    else .refused .completeOutsideFetched

end Sys2Proof.Machine
end

