-- ==== Sys2Proof/Machine/Staging.lean ====
section
/-! DEFINITION. The Staging Ring Buffer (43_staging_fifo.md). Cursors are 8 bits and wrap by themselves
(R241). -/

namespace Sys2Proof.Machine

/-- `store[i]`. -/
def Fifo.at (f : Fifo) (i : Byte) : Byte := f.store[i.toNat]'i.isLt

/-- `store[push] <- b ; push <- (push + 1) AND 0xFF` (R244). -/
def Fifo.put (f : Fifo) (b : Byte) : Fifo :=
  { f with store := f.store.set f.push.toNat b f.push.isLt, push := f.push + 1 }

/-- Put a run of bytes, first byte first (R246). -/
def Fifo.putAll (f : Fifo) : List Byte → Fifo
  | [] => f
  | b :: bs => (f.put b).putAll bs

/-- `pop <- (pop + n) AND 0xFF`; the bytes stay in `store` (R250). -/
def Fifo.drop (f : Fifo) (n : Byte) : Fifo := { f with pop := f.pop + n }

/-- The bytes held, oldest first (R45, R257). -/
def Fifo.held (f : Fifo) : List Byte :=
  (List.range f.used).map fun i => f.at (f.pop + BitVec.ofNat 8 i)

/-- `FIFO_INIT` (R242): cursors to zero, storage cleared. -/
def execFifoInit (s : State) : Out :=
  issue s .fifoInit <| onFifo s <|
    { s with fifo := { s.fifo with push := 0, pop := 0, store := Vector.replicate 256 0 } }.give .ok
      .empty

/-- `PUSH` (R244): all or nothing. -/
def execPush (b : Byte) (s : State) : Out :=
  issue s .push <| onFifo s <|
    if s.fifo.free < 1 then s.fail .stagingOverflow
    else { s with fifo := s.fifo.put b }.give .ok .empty

/-- `PUSH32` (R246): four bytes, little-endian, or none. -/
def execPush32 (v : U32) (s : State) : Out :=
  issue s .push32 <| onFifo s <|
    if s.fifo.free < 4 then s.fail .stagingOverflow
    else { s with fifo := s.fifo.putAll (toLe32 v) }.give .ok .empty

/-- `POP` (R250). -/
def execPop (s : State) : Out :=
  issue s .pop <| onFifo s <|
    if s.fifo.used < 1 then s.fail .stagingUnderflow
    else { s with fifo := s.fifo.drop 1 }.give .ok (.byte (s.fifo.at s.fifo.pop))

/-- `POP16` (R252): two bytes, little-endian, or none. -/
def execPop16 (s : State) : Out :=
  issue s .pop16 <| onFifo s <|
    if s.fifo.used < 2 then s.fail .stagingUnderflow
    else { s with fifo := s.fifo.drop 2 }.give .ok
      (.half (le16 (s.fifo.at s.fifo.pop) (s.fifo.at (s.fifo.pop + 1))))

/-- `USED` (R255). -/
def execUsed (s : State) : Out :=
  issue s .used <| onFifo s <| s.give .ok (.count s.fifo.used)

/-- `FREE` (R256). -/
def execFree (s : State) : Out :=
  issue s .free <| onFifo s <| s.give .ok (.count s.fifo.free)

end Sys2Proof.Machine
end

