-- ==== Sys2Proof/Machine/Dispatch.lean ====
section
/-! DEFINITION. The meaning of each instruction, one arm per constructor. -/

namespace Sys2Proof.Machine

def exec (i : Instr) (s : State) : Host.Outcome State Fault Refusal :=
  match i with
  | .crc16 init n data => Sys2Proof.Machine.execCrc16 init n data s
  | .format d acfunc cmd opts seq ats alen asiv => Sys2Proof.Machine.execFormat d acfunc cmd opts seq ats alen asiv s
  | .submitMarker d => Sys2Proof.Machine.execSubmitMarker d s
  | .purgeMarker d => Sys2Proof.Machine.execPurgeMarker d s
  | .isFetched d => Sys2Proof.Machine.execIsFetched d s
  | .isCompleted d => Sys2Proof.Machine.execIsCompleted d s
  | .verifyVariantCrc d => Sys2Proof.Machine.execVerifyVariantCrc d s
  | .result d => Sys2Proof.Machine.execResult d s
  | .verifyInvariantCrc d => Sys2Proof.Machine.execVerifyInvariantCrc d s
  | .hwFetch d => Sys2Proof.Machine.execHwFetch d s
  | .hwComplete d => Sys2Proof.Machine.execHwComplete d s
  | .encInflAsiv opts p => Sys2Proof.Machine.execEncInflAsiv opts p s
  | .encDeflAsiv opts p => Sys2Proof.Machine.execEncDeflAsiv opts p s
  | .decInflAsv cmd asv => Sys2Proof.Machine.execDecInflAsv cmd asv s
  | .decDeflAsv cmd asv => Sys2Proof.Machine.execDecDeflAsv cmd asv s
  | .carry onumbits k otail => Sys2Proof.Machine.execCarry onumbits k otail s
  | .decInflAsiv cmd asiv => Sys2Proof.Machine.execDecInflAsiv cmd asiv s
  | .decDeflAsiv cmd asiv => Sys2Proof.Machine.execDecDeflAsiv cmd asiv s
  | .encInflAsv r => Sys2Proof.Machine.execEncInflAsv r s
  | .encDeflAsv r => Sys2Proof.Machine.execEncDeflAsv r s
  | .fifoInit => Sys2Proof.Machine.execFifoInit s
  | .push b => Sys2Proof.Machine.execPush b s
  | .push32 v => Sys2Proof.Machine.execPush32 v s
  | .pop => Sys2Proof.Machine.execPop s
  | .pop16 => Sys2Proof.Machine.execPop16 s
  | .used => Sys2Proof.Machine.execUsed s
  | .free => Sys2Proof.Machine.execFree s

end Sys2Proof.Machine
end

