-- ==== Sys2Proof/Machine/Fetch.lean ====
section
/-! DEFINITION. How the block takes its next operation: "An agent presents one operation at a time"
(10_state.md rule R21). The operations all agents will present stand in one list, each with its agent:
that list is one interleaving of the agents, and a claim for every list is a claim for every interleaving
(00_scope.md rule R8). -/

namespace Sys2Proof.Machine

/-- What the next step has to do. -/
inductive Fetched
  /-- No operation is presented. -/
  | idle
  /-- The request bytes are no operation (R122). -/
  | invalid (e : DecodeError)
  /-- The instruction, and the state in which its agent is the issuer and the request is taken. -/
  | run (i : Instr) (s : State)
deriving DecidableEq, Repr

/-- The request is taken: the rest of the list stays, and its agent is the issuer. -/
def State.take (s : State) (r : Request) (rest : List Request) : State :=
  { s with stream := rest, issuer := r.agent }

/-- Take the next request and decode it (R121). Requests are the only steps (R22): an agent's plain access
outside the 27 operations, such as the `MemRead` by which SW reads the two timestamps after it observed
`completed` (R294), or an access R79 would refuse, is no step of this machine and no request stands for it
(DESIGN CHOICE, log entry 24). The bytes such a read returns are `State.memRead`'s; R70 says that a read
changes nothing. -/
def fetch (s : State) : Fetched :=
  match s.stream with
  | [] => .idle
  | r :: rest =>
    match decode s.cfg r.bytes with
    | .error e => .invalid e
    | .ok i => .run i (s.take r rest)

/-- The software thread a descriptor is issued by; thread 0 where there is no such descriptor. -/
def threadFor (s : State) (d : Byte) : Nat :=
  match s.descs[d.toNat]? with
  | some x => x.thread
  | none => 0

/-- An agent whose role R290 lets issue the request: HW or the FIFO's owner for their operations, the
descriptor's software thread for SW's. -/
def rightfulAgent (s : State) (bs : List Byte) : Agent :=
  match opcodeOf s.cfg.opCodes (byteAt bs 0) with
  | none => .sw 0
  | some op =>
    if (rolesOf op).contains .sw then .sw (threadFor s (byteAt bs 1))
    else if (rolesOf op).contains .hw then .hw
    else .owner s.fifo.session

/-- The request an opcode-table word stands for, from an agent that may issue it, put first in line. -/
def present (s : State) (nbits w : Nat) : State :=
  let bs := requestOfWord s.cfg nbits w
  { s with stream := ⟨rightfulAgent s bs, bs⟩ :: s.stream }

end Sys2Proof.Machine
end

