-- ==== Sys2Proof/Machine/Step.lean ====
section
/-! DEFINITION. One step of the machine: one operation of one agent, from its request to its end
(00_scope.md rule R7). -/

namespace Sys2Proof.Machine

/-- The step. With no operation presented nothing changes; bytes that are no operation are refused
(R122). -/
def step (s : State) : Host.Outcome State Fault Refusal :=
  match fetch s with
  | .idle => .next s
  | .invalid e => .refused (.invalidRequest e)
  | .run i t => exec i t

/-- `s` with the instruction of an opcode-table word as the next request, from an agent that may issue
it. -/
def State.withFetchWord (s : State) (nbits w : Nat) : State := present s nbits w

end Sys2Proof.Machine
end

