-- ==== Sys2Proof/Safety.lean ====
section
/-! DEFINITION. The terms claims about the machine use: when an operation is admitted, the invariants of
reachable states, what a step may change, and the values the rules give, over the layout numbers of the
machine's configuration. That the defaults are the numbers of 30_encoding.md is a claim of its own. -/

namespace Sys2Proof.Safety

open Sys2Proof.Machine

/-! ### Admission -/

/-- The issuer's role may issue `op` (R290). -/
def RoleGranted (s : State) (op : Opcode) : Prop := roleOf s.issuer ∈ rolesOf op

/-- An operation on descriptor `d`, whose record is `x`, is admitted: the role is granted (R290), the
descriptor exists (R23), its base is a multiple of 4 (R67) and the issuer is no second software thread
(R293). -/
def Admitted (s : State) (op : Opcode) (d : Byte) (x : Desc) : Prop :=
  RoleGranted s op ∧ s.descs[d.toNat]? = some x ∧ x.base % 4 = 0 ∧
    threadAllowed s.issuer x.thread = true

/-- The issuer is the FIFO's owner (R83, R260). -/
def IsFifoOwner (s : State) : Prop := s.issuer = .owner s.fifo.session

/-! ### Frames -/

/-- Every byte of memory outside the `n` bytes from offset `o` of descriptor `d` reads as before. -/
def BytesKeptOutside (s t : State) (d o n : Nat) : Prop :=
  ∀ a, (a < s.addr d o ∨ s.addr d o + n ≤ a) → t.read a = s.read a

/-- What no descriptor operation changes: the configuration, the FIFO, the requests still to come and the
issuer. -/
def UnitsKept (s t : State) : Prop :=
  t.cfg = s.cfg ∧ t.fifo = s.fifo ∧ t.stream = s.stream ∧ t.issuer = s.issuer

/-- The records of all descriptors but `d` are as before, and `d`'s is `x`. -/
def DescBecomes (s t : State) (d : Nat) (x : Desc) : Prop := t.descs = s.descs.set d x

/-! ### What FORMAT writes (R160, R162) -/

/-- The byte at offset `o` of a numeric field that holds `v`, most significant byte first (R60). -/
def numByte (f : Field) (v o : Nat) : Byte := BitVec.ofNat 8 (v / 256 ^ (f.off + f.len - 1 - o))

/-- The byte R162 gives offset `o` of a formatted descriptor, the interlock word apart. -/
def formatByte (c : Config) (acfunc cmd : Byte) (opts : U16) (seq : Nat) (ats : U64)
    (asiv : List Byte) (o : Nat) : Byte :=
  let l := c.layout
  let off := l.asiv.off + if c.atsPresent then 8 else 0
  if l.preamble.covers o then c.pre
  else if l.xdir.covers o then c.xdir
  else if l.seq.covers o then numByte l.seq seq o
  else if l.acfunc.covers o then numByte l.acfunc acfunc.toNat o
  else if l.cmd.covers o then numByte l.cmd cmd.toNat o
  else if l.opts.covers o then numByte l.opts opts.toNat o
  else if l.sur.covers o then numByte l.sur c.sur.toNat o
  else if l.psp.covers o then numByte l.psp c.psp.toNat o
  else if c.atsPresent ∧ l.asiv.off ≤ o ∧ o < off then ats.extractLsb' (8 * (off - 1 - o)) 8
  else if off ≤ o ∧ o < off + asiv.length then asiv.getD (o - off) 0
  else 0

/-- The bytes the invariant CRC covers, of a descriptor whose byte at offset `o` is `b o` (R161): four zero
bytes and the invariant part from byte 4 on, or the latter alone, as `ICRC_RANGE` says. -/
def coveredBytes (c : Config) (b : Nat → Byte) : List Byte :=
  match c.icrcRange with
  | .zeroedWord => [0, 0, 0, 0] ++ (List.range (c.layout.invariantLen - 4)).map fun i => b (4 + i)
  | .fromByteFour => (List.range (c.layout.invariantLen - 4)).map fun i => b (4 + i)

/-! ### What HW reads in its snapshot (R185) -/

/-- An overlay is known for the command a snapshot names (R99): the compression family's function with one of
its two tags. -/
def SnapshotKnown (c : Config) (snap : List Byte) : Prop :=
  BitVec.ofNat 8 (beAt snap c.layout.acfunc.off c.layout.acfunc.len) = c.acfuncZip ∧
    (BitVec.ofNat 8 (beAt snap c.layout.cmd.off c.layout.cmd.len) = c.cmdInflate ∨
      BitVec.ofNat 8 (beAt snap c.layout.cmd.off c.layout.cmd.len) = c.cmdDeflate)

/-! ### Invariants -/

/-- The memory is in its canonical form. -/
def MemoryCanonical (s : State) : Prop := s.mem.wf s.layout = true

/-- The interlock word of every descriptor is one a submission cycle can show (R190, R31, R32): reserved
bits are 0, `fetched` implies `next`, `completed` implies `fetched`, a flag is set only on a formatted
descriptor, and software has observed only a completion that is there. -/
def InterlockLegal (s : State) : Prop :=
  ∀ d x, s.descs[d]? = some x →
    (s.atomicRead32 d).reservedClear s.cfg.masks = true ∧
    (s.isFetched d = true → (s.atomicRead32 d).isNext s.cfg.masks = true) ∧
    (s.isCompleted d = true → s.isFetched d = true) ∧
    ((s.atomicRead32 d).isNext s.cfg.masks = true → x.fmt = true) ∧
    ((s.atomicRead32 d).isPurged s.cfg.masks = true → x.fmt = true) ∧
    (x.swObsDone = true → x.fmt = true ∧ s.isCompleted d = true)

/-- The protected sections agree with their CRCs (R164, R184, R186): a formatted descriptor's invariant CRC
is right; without link faults, HW's snapshot of a fetched one is the invariant part and its check
succeeded; without link faults, a completed one's variant CRC is right. -/
def SectionsProtected (s : State) : Prop :=
  ∀ d x, s.descs[d]? = some x → x.fmt = true →
    s.invariantCrcMatches d = true ∧
    (s.cfg.linkFaults = false → s.isFetched d = true →
      x.snap.bytes = s.invariantPart d ∧ x.snap.icrcOk = true) ∧
    (s.cfg.linkFaults = false → s.isCompleted d = true →
      s.variantCrcMatches d = true)

/-- What is fixed before RESET stays (R316, R315, R260, R293): the configuration, the number of
descriptors, each one's base and software thread, and the FIFO's owner. -/
def FixedPartsKept (s t : State) : Prop :=
  t.cfg = s.cfg ∧ t.fifo.session = s.fifo.session ∧
    t.descs.map (fun x => (x.base, x.thread)) = s.descs.map (fun x => (x.base, x.thread))

/-! ### Whole-machine rules -/

/-- The instruction starts a new submission cycle of descriptor `d` (R16, R31). -/
def isFormatOf (i : Instr) (d : Nat) : Bool :=
  match i with
  | .format e _ _ _ _ _ _ _ => e.toNat == d
  | _ => false

/-- The descriptor an instruction names, if it names one. -/
def descriptorOf (i : Instr) : Option Byte :=
  match i with
  | .format d _ _ _ _ _ _ _ => some d
  | .submitMarker d => some d
  | .purgeMarker d => some d
  | .isFetched d => some d
  | .isCompleted d => some d
  | .verifyVariantCrc d => some d
  | .result d => some d
  | .verifyInvariantCrc d => some d
  | .hwFetch d => some d
  | .hwComplete d => some d
  | _ => none

/-- No flag that is 1 becomes 0, the CRC in the word stays, and the phase moves forward by at most one
(R31, R190). -/
def CycleAdvances (s t : State) (d : Nat) (x y : Desc) : Prop :=
  (t.atomicRead32 d).icrc = (s.atomicRead32 d).icrc ∧
  (s.atomicRead32 d).hsi &&& (t.atomicRead32 d).hsi = (s.atomicRead32 d).hsi ∧
  (s.atomicRead32 d).shi &&& (t.atomicRead32 d).shi = (s.atomicRead32 d).shi ∧
  phaseRank (s.phase d x) ≤ phaseRank (t.phase d y) ∧
  phaseRank (t.phase d y) ≤ phaseRank (s.phase d x) + 1

/-- The statuses R271 lets an operation return. -/
def statusesOf : Opcode → List Status
  | .format => [.ok, .payloadTooLarge]
  | .verifyVariantCrc => [.ok, .integrityError]
  | .result => [.ok, .notCompleted, .operationFailed]
  | .verifyInvariantCrc => [.ok, .integrityError]
  | .encInflAsiv => [.ok, .missingWorkspace, .badOptionCombination]
  | .encDeflAsiv => [.ok, .missingWorkspace, .badOptionCombination]
  | .decInflAsv => [.ok, .badCommand]
  | .decDeflAsv => [.ok, .badCommand]
  | .decInflAsiv => [.ok, .badCommand]
  | .decDeflAsiv => [.ok, .badCommand]
  | .push => [.ok, .stagingOverflow]
  | .push32 => [.ok, .stagingOverflow]
  | .pop => [.ok, .stagingUnderflow]
  | .pop16 => [.ok, .stagingUnderflow]
  | .crc16 => [.ok]
  | .submitMarker => [.ok]
  | .purgeMarker => [.ok]
  | .isFetched => [.ok]
  | .isCompleted => [.ok]
  | .hwFetch => [.ok]
  | .hwComplete => [.ok]
  | .encInflAsv => [.ok]
  | .encDeflAsv => [.ok]
  | .carry => [.ok]
  | .fifoInit => [.ok]
  | .used => [.ok]
  | .free => [.ok]

/-- The answer of a verify operation whose comparison gives `ok` (R176, R180). -/
def verifyAnswer (ok : Bool) : Answer := ⟨if ok then .ok else .integrityError, .flag ok⟩

/-! ### Option checks (R203, R204) -/

/-- An option flag is set. -/
def OptSet (opts mask : U16) : Prop := opts &&& mask ≠ 0

/-- R203: each indirect-buffer bit says what its buffer kind is. -/
def KindsAgree (m : OptMasks) (opts : U16) (inKind outKind : BufKind) : Prop :=
  (OptSet opts m.ibufIndir ↔ inKind = .segList) ∧ (OptSet opts m.obufIndir ↔ outKind = .segList)

/-- R204, inflate column: every required address is nonzero. -/
def InflAddressesPresent (m : OptMasks) (opts : U16) (f : InflFields) : Prop :=
  (OptSet opts m.dictRestore → f.inDict ≠ 0) ∧ (OptSet opts m.dictSave → f.outDict ≠ 0) ∧
    (OptSet opts m.stateProvided → f.scratch ≠ 0) ∧ (OptSet opts m.stateSave → f.scratch ≠ 0)

/-- R204, deflate column. -/
def DeflAddressesPresent (m : OptMasks) (opts : U16) (f : DeflFields) : Prop :=
  (OptSet opts m.dictRestore → f.inDict ≠ 0) ∧ (OptSet opts m.dictSave → f.outDict ≠ 0)

/-- The fields of R104's prefix in an encoded payload. -/
def PrefixAt (p : PrefixLayout) (a : List Byte) (inBuff : U64) (inBuffLen inCrc32 : U32)
    (outBuff : U64) (outBuffLen inAdler32 : U32) (inDict : U64) (inDictLen : U32) : Prop :=
  be64At a p.inBuff = inBuff ∧ be32At a p.inBuffLen = inBuffLen ∧ be32At a p.inCrc32 = inCrc32 ∧
    be64At a p.outBuff = outBuff ∧ be32At a p.outBuffLen = outBuffLen ∧
    be32At a p.inAdler32 = inAdler32 ∧ be64At a p.inDict = inDict ∧ be32At a p.inDictLen = inDictLen

/-- Every byte of a byte array that is in none of the fields is 0x00. -/
def ZeroOutside (a : List Byte) (fs : List Field) : Prop :=
  ∀ o, o < a.length → (∀ f ∈ fs, f.covers o = false) → byteAt a o = 0

end Sys2Proof.Safety
end

