-- ==== Sys2Proof/Certificates/Slice0/Obligations.lean ====
section
/-! DEFINITION. The statements about the machine. Each docstring names the rule of the spec it
formalises; a statement that rests on a choice of the model names the log entry. The layout numbers, masks,
widths and codes are the configuration's (00_scope.md rule R10): where a statement needs them to be a layout at all its
premise is `cfg.wf`, and the two statements of the last section say what the defaults are. -/

open Sys2Proof Sys2Proof.Machine Sys2Proof.Safety

/-! ### Requests -/

/-- R120, R121: the request of a well-formed instruction decodes to that instruction, in every
configuration in which no two operations have one code, whatever the codes and the widths of the sequence
number and the length operand, and with every operand at every value its width admits. -/
def Obligations.DecodeEncodeRoundTrip : Prop :=
  ∀ (c : Config) (i : Instr), c.opCodes.toList.Nodup → WellFormed c i = true →
    decode c (encode c i) = .ok i

/-- What decodes is well formed, and is the one request of the instruction it decodes to, so no two byte
strings are the same instruction. R121 fixes that one request ("A request has one length") and does not
say what a decoder does with other bytes: that a string too long, a `kinds` byte with a reserved bit set or
an operand wider than `SEQ_WIDTH` or `CRC_LEN_BITS` decodes to nothing is the model's choice, log entries
17 and 7. -/
def Obligations.DecodedRequestIsItsEncoding : Prop :=
  ∀ (c : Config) (bs : List Byte) (i : Instr), decode c bs = .ok i →
    WellFormed c i = true ∧ encode c i = bs

/-- R122: every code byte that the table of codes does not list names no operation, and the machine refuses
it; the default table is that of R120, so 0x45 and 0x00 are among the unlisted. That another table may stand
in its place follows R10 (log entry 7). -/
def Obligations.UnlistedCodesAreRefused : Prop :=
  (∀ (s : State) (a : Agent) (code : Byte) (ops : List Byte) (rest : List Request),
    s.stream = ⟨a, code :: ops⟩ :: rest → code ∉ s.cfg.opCodes.toList →
    decode s.cfg (code :: ops) = .error (.unknownCode code) ∧
    step s = .refused (.invalidRequest (.unknownCode code))) ∧
  OpCodes.default.toList = [0x10, 0x20, 0x21, 0x22, 0x23, 0x24, 0x25, 0x26, 0x27, 0x30, 0x31, 0x40,
    0x41, 0x42, 0x43, 0x44, 0x46, 0x47, 0x48, 0x49, 0x50, 0x51, 0x52, 0x53, 0x54, 0x55, 0x56]

/-- R121: requests written out byte by byte from the operand table (95_test_vectors.md gives the same
bytes) decode to the instructions they stand for; one of each unit. A sanity statement. -/
def Obligations.WrittenRequestsDecode : Prop :=
  decode Config.default [0x10, 0x0E, 0x7C, 0x00, 0x02, 0x03, 0x04] =
    .ok (.crc16 0x0E7C 2 [0x03, 0x04]) ∧
  decode Config.default
    [0x20, 0x00, 0x01, 0x02, 0x00, 0x44, 0x00, 0x03, 0x11, 0x22, 0x33, 0x44, 0x55, 0x66, 0x77, 0x88,
      0x01, 0xAB] = .ok (.format 0 1 2 0x0044 0x0003 0x1122334455667788 1 [0xAB]) ∧
  decode Config.default [0x31, 0x00] = .ok (.hwComplete 0) ∧
  decode Config.default ([0x44, 0x0B, 0x01, 0xA7, 0x05] ++ List.replicate 29 0x00) =
    .ok (.carry 11 1 ([0xA7, 0x05] ++ List.replicate 29 0x00)) ∧
  decode Config.default [0x52, 0xDD, 0xCC, 0xBB, 0xAA] = .ok (.push32 0xAABBCCDD)

/-! ### Steps, roles, what is fixed -/

/-- R7, R21: when the request first in line decodes to a well-formed instruction, the step is that
instruction, run in the state in which the request is taken and its agent is the issuer. With no request in
line nothing changes (log entry 5). -/
def Obligations.StepRunsPresentedInstruction : Prop :=
  (∀ (s : State) (r : Request) (rest : List Request) (i : Instr),
    s.stream = r :: rest → decode s.cfg r.bytes = .ok i → WellFormed s.cfg i = true →
    step s = exec i { s with stream := rest, issuer := r.agent }) ∧
  ∀ s : State, s.stream = [] → step s = .next s

/-- R290: an operation issued by a role that the table does not give it is refused, whatever the codes of the
configuration; R120's codes stand for the operations here, as in R290's table. CRC16,
which R140 and R141 give to any agent, is refused to the FIFO's owner with the rest: log entry 12. -/
def Obligations.UngrantedRoleIsRefused : Prop :=
  ∀ (i : Instr) (s : State),
    (∀ t, s.issuer = .sw t →
      opcodeByte OpCodes.default (instrOpcode i) ∉ ([0x10, 0x20, 0x21, 0x22, 0x23, 0x24, 0x25, 0x26, 0x27, 0x40, 0x41,
        0x42, 0x43, 0x44] : List Byte) → exec i s = .refused .roleNotGranted) ∧
    (s.issuer = .hw →
      opcodeByte OpCodes.default (instrOpcode i) ∉ ([0x10, 0x27, 0x30, 0x31, 0x46, 0x47, 0x48, 0x49] : List Byte) →
      exec i s = .refused .roleNotGranted) ∧
    (∀ n, s.issuer = .owner n →
      opcodeByte OpCodes.default (instrOpcode i) ∉ ([0x50, 0x51, 0x52, 0x53, 0x54, 0x55, 0x56] : List Byte) →
      exec i s = .refused .roleNotGranted)

/-- R23, R67, R83, R293: an instruction on a descriptor stops when the index names no descriptor, when
the base is not a multiple of 4, or when a second software thread issues it; a FIFO operation stops when
another session than the owner issues it. The fault for a missing descriptor and the fixed thread and
session numbers are the model's (log entries 10, 15). -/
def Obligations.InadmissibleOperationsStop : Prop :=
  (∀ (i : Instr) (s : State) (d : Byte), descriptorOf i = some d → RoleGranted s (instrOpcode i) →
    (s.descs[d.toNat]? = none → exec i s = .fault (.noSuchDescriptor d)) ∧
    ∀ x, s.descs[d.toNat]? = some x →
      (x.base % 4 ≠ 0 → exec i s = .refused .misalignedDescriptor) ∧
      ∀ t, s.issuer = .sw t → x.base % 4 = 0 → t ≠ x.thread →
        exec i s = .refused .secondSoftwareThread) ∧
  ∀ (i : Instr) (s : State) (n : Nat),
    i = .fifoInit ∨ (∃ b, i = .push b) ∨ (∃ v, i = .push32 v) ∨ i = .pop ∨ i = .pop16 ∨ i = .used ∨
      i = .free →
    s.issuer = .owner n → n ≠ s.fifo.session → exec i s = .refused .notFifoOwner

/-- R316: the configuration does not change, and neither do the number of descriptors, their bases (R315)
and, as the model fixes them, threads and the FIFO's owner (log entry 15). -/
def Obligations.StepKeepsFixedParts : Prop :=
  ∀ s t : State, step s = .next t → FixedPartsKept s t

/-- R52, R314: the state the agents start from: FIFO cursors 0 and store 0x00, `hsi` and `shi` of every
descriptor 0 and so its phase UNFORMATTED, ghost flags false. In every well-formed configuration and with
any number of descriptors; reset is the default configuration with one (log entries 4, 7). -/
def Obligations.BootLeavesWhatTheSpecStates : Prop :=
  State.reset = State.boot Config.default 1 ∧
  ∀ (c : Config) (n : Nat), c.wf = true →
    (State.boot c n).fifo.push = 0 ∧ (State.boot c n).fifo.pop = 0 ∧
    (∀ i : Byte, (State.boot c n).fifo.at i = 0) ∧
    (State.boot c n).descs.length = n ∧
    ∀ d x, (State.boot c n).descs[d]? = some x →
      ((State.boot c n).atomicRead32 d).hsi = 0 ∧ ((State.boot c n).atomicRead32 d).shi = 0 ∧
      (State.boot c n).phase d x = .unformatted ∧ x.fmt = false ∧ x.swObsDone = false

/-! ### Invariants -/

/-- R314: the state after boot, in every well-formed configuration, satisfies the three invariants: the memory
is in its canonical form (log entry 2), every interlock word is legal, every section is protected. -/
def Obligations.BootSatisfiesInvariants : Prop :=
  ∀ (c : Config) (n : Nat), c.wf = true →
    MemoryCanonical (State.boot c n) ∧ InterlockLegal (State.boot c n) ∧
    SectionsProtected (State.boot c n)

/-- Every step keeps the memory's canonical form (log entry 2). -/
def Obligations.StepKeepsMemoryCanonical : Prop :=
  ∀ s t : State, MemoryCanonical s → step s = .next t → MemoryCanonical t

/-- R190: what every interlock word shows in a reachable state, kept by every step: reserved bits 0,
`fetched` only with `next`, `completed` only with `fetched`; a flag only on a formatted descriptor, and an
observation only of a completion. -/
def Obligations.StepKeepsInterlockLegal : Prop :=
  ∀ s t : State, s.cfg.wf = true → InterlockLegal s → step s = .next t → InterlockLegal t

/-- R164, R184, R186, R190: every step keeps the agreement of the protected sections with their CRCs. -/
def Obligations.StepKeepsSectionsProtected : Prop :=
  ∀ s t : State, s.cfg.wf = true → SectionsProtected s → step s = .next t → SectionsProtected t

/-! ### Rules over all instructions -/

/-- R31: within a submission cycle, that is in every operation but a FORMAT of the descriptor, no flag that
is 1 becomes 0 and the phase moves forward by at most one; the stored CRC stays too. -/
def Obligations.FlagsOnlyGrowWithinCycle : Prop :=
  ∀ (i : Instr) (s t : State) (d : Nat) (x y : Desc), s.cfg.wf = true → exec i s = .next t →
    s.descs[d]? = some x → t.descs[d]? = some y → isFormatOf i d = false → CycleAdvances s t d x y

/-- R77, R79: a byte of a descriptor that an operation changes is one the ownership table lets the issuer
write in the descriptor's phase. In the interlock word SW changes, between submission and the observed
completion, the SHI byte only, by the OR of a flag of its own; HW changes the HSI byte only, by the OR of
`fetched` or `completed`, while it owns the descriptor. FORMAT's zero-fill of the driver's bytes counts as
granted while SW owns the descriptor (R42, R162): that is the model's choice, log entry 11. -/
def Obligations.OwnershipTableIsRespected : Prop :=
  ∀ (i : Instr) (s t : State) (d : Nat) (x : Desc) (o : Nat), s.cfg.wf = true →
    InterlockLegal s → exec i s = .next t → s.descs[d]? = some x → o < s.cfg.layout.size →
    t.byte d o ≠ s.byte d o →
    if o < 4 then interlockGranted s.cfg o (s.byte d o) (t.byte d o) (roleOf s.issuer)
      (stageOf (s.phase d x) x.swObsDone) = true
    else writeGranted (roleOf s.issuer) (regionOf s.cfg.layout o)
      (stageOf (s.phase d x) x.swObsDone) = true

/-- R23, R277: an operation leaves every descriptor it does not name as it was, bytes and flags; one that
names none leaves the whole memory and every descriptor; only FIFO_INIT, the pushes and the pops change the
FIFO. -/
def Obligations.DescriptorsAreIndependent : Prop :=
  ∀ (i : Instr) (s t : State), s.cfg.wf = true → exec i s = .next t →
    (∀ e : Nat, (∀ d, descriptorOf i = some d → d.toNat ≠ e) →
      (∀ o, o < s.cfg.layout.size → t.byte e o = s.byte e o) ∧ t.descs[e]? = s.descs[e]?) ∧
    (instrOpcode i ∉ ([.fifoInit, .push, .push32, .pop, .pop16] : List Opcode) → t.fifo = s.fifo) ∧
    (descriptorOf i = none → t.mem = s.mem ∧ t.descs = s.descs)

/-- R273: an operation that fails has changed no state; the same of the two verify operations' mismatch. The
draw counter is the model's own. -/
def Obligations.FailedOperationsChangeNothing : Prop :=
  ∀ (i : Instr) (s t : State) (e : Status) (p : Payload), exec i s = .next t →
    t.answer = some ⟨e, p⟩ → e ≠ .ok → e ≠ .operationFailed →
    t = { s with answer := some ⟨e, p⟩, draws := t.draws } ∧ (e ≠ .integrityError → p = .empty)

/-- R271: every operation that answers returns one of the statuses the error table gives it, and the code it
returns tells that status where no two statuses have one code. -/
def Obligations.StatusesAreThoseOfTheErrorTable : Prop :=
  ∀ (i : Instr) (s t : State), exec i s = .next t →
    ∃ a, t.answer = some a ∧ a.status ∈ statusesOf (instrOpcode i) ∧
      (s.cfg.errCodes.toList.Nodup →
        ∀ e : Status, statusCode s.cfg.errCodes e = a.code s.cfg → e = a.status)

/-! ### The Checksum Engine -/

/-- R140, R141: CRC16 is always enabled and returns the left fold of R142's byte step over the data; it changes
nothing but the answer. That "any agent" is SW or HW, the roles to which R290 gives it, is the model's
choice: log entry 12. -/
def Obligations.Crc16ReturnsFold : Prop :=
  ∀ (s : State) (init : U16) (n : Nat) (data : List Byte), RoleGranted s .crc16 → data.length = n →
    exec (.crc16 init n data) s =
      .next { s with answer := some ⟨.ok, .crc (data.foldl crc16Step init)⟩ }

/-- R142: the byte step is the bit-serial form: each data bit, most significant first, shifts the value
left, and the polynomial is added when the bit differs from bit 15. -/
def Obligations.Crc16StepIsBitSerial : Prop :=
  ∀ (c : U16) (b : Byte),
    crc16Step c b =
      [7, 6, 5, 4, 3, 2, 1, 0].foldl
        (fun (v : U16) (k : Nat) => (v <<< 1) ^^^ (if v.getLsbD 15 ^^ b.getLsbD k then 0x1021 else 0)) c

/-- R144: the two-phase computation gives the one-phase value, whatever the two lengths. -/
def Obligations.Crc16Composes : Prop :=
  ∀ (s t u : State) (a b : List Byte) (na nb : Nat) (init va vb : U16),
    a.length = na → b.length = nb →
    exec (.crc16 init na a) s = .next t → t.answer = some ⟨.ok, .crc va⟩ →
    exec (.crc16 va nb b) s = .next u → u.answer = some ⟨.ok, .crc vb⟩ →
    exec (.crc16 init (na + nb) (a ++ b)) s = .next { s with answer := some ⟨.ok, .crc vb⟩ }

/-- R145: the byte step is linear over GF(2) and, for each byte, a bijection. -/
def Obligations.Crc16StepIsLinearAndBijective : Prop :=
  (∀ (c1 c2 : U16) (b1 b2 : Byte),
    crc16Step (c1 ^^^ c2) (b1 ^^^ b2) = crc16Step c1 b1 ^^^ crc16Step c2 b2 ^^^ crc16Step 0 0) ∧
  crc16Step 0 0 = 0 ∧ ∀ b : Byte, Function.Bijective fun c => crc16Step c b

/-- R147: changing any single bit of the data changes the checksum. -/
def Obligations.Crc16DetectsSingleBitErrors : Prop :=
  ∀ (pre post : List Byte) (b : Byte) (k : Nat) (init : U16), k < 8 →
    crc16 (pre ++ (b ^^^ (1#8 <<< k)) :: post) init ≠ crc16 (pre ++ b :: post) init

/-- R148: the checksum of data followed by its own checksum, high byte first, is 0. -/
def Obligations.Crc16ResidueIsZero : Prop :=
  ∀ (data : List Byte) (init : U16), crc16 (data ++ toBe16 (crc16 data init)) init = 0

/-! ### The Command Descriptor unit, software side -/

/-- R160, R162: FORMAT of a descriptor SW owns, with a payload that fits, sets every byte of it to the value
R162 gives it, stores the CRC of the header and ASIV with all flags 0, starts a submission cycle, and
changes nothing else. -/
def Obligations.FormatWritesWholeDescriptor : Prop :=
  ∀ (s : State) (d acfunc cmd : Byte) (opts : U16) (seq : Nat) (ats : U64) (alen : Byte)
    (asiv : List Byte) (x : Desc), s.cfg.wf = true → Admitted s .format d x →
    s.phase d.toNat x = .unformatted ∨ s.phase d.toNat x = .formatted ∨ x.swObsDone = true →
    asiv.length = alen.toNat → alen.toNat ≤ (if s.cfg.atsPresent then 96 else 104) →
    ∃ t, exec (.format d acfunc cmd opts seq ats alen asiv) s = .next t ∧
      (∀ o, 4 ≤ o → o < s.cfg.layout.size →
        t.byte d.toNat o = formatByte s.cfg acfunc cmd opts seq ats asiv o) ∧
      t.atomicRead32 d.toNat =
        ⟨crc16 (coveredBytes s.cfg fun o => t.byte d.toNat o) 0xFFFF, 0, 0⟩ ∧
      DescBecomes s t d.toNat { x with fmt := true, swObsDone := false } ∧
      BytesKeptOutside s t d.toNat 0 s.cfg.layout.size ∧ UnitsKept s t ∧ t.draws = s.draws ∧
      t.answer = some ⟨.ok, .empty⟩

/-- R160: FORMAT of a descriptor SW owns, with a payload longer than the region, fails `PayloadTooLarge` and
changes nothing. -/
def Obligations.FormatRejectsLongPayload : Prop :=
  ∀ (s : State) (d acfunc cmd : Byte) (opts : U16) (seq : Nat) (ats : U64) (alen : Byte)
    (asiv : List Byte) (x : Desc), s.cfg.wf = true → Admitted s .format d x →
    s.phase d.toNat x = .unformatted ∨ s.phase d.toNat x = .formatted ∨ x.swObsDone = true →
    (if s.cfg.atsPresent then 96 else 104) < alen.toNat →
    exec (.format d acfunc cmd opts seq ats alen asiv) s =
      .next { s with answer := some ⟨.payloadTooLarge, .empty⟩ }

/-- R78: FORMAT is enabled only in UNFORMATTED and FORMATTED, or when completion was observed; elsewhere it
is refused. -/
def Obligations.FormatOfOwnedDescriptorIsRefused : Prop :=
  ∀ (s : State) (d acfunc cmd : Byte) (opts : U16) (seq : Nat) (ats : U64) (alen : Byte)
    (asiv : List Byte) (x : Desc), Admitted s .format d x →
    s.phase d.toNat x = .next ∨ s.phase d.toNat x = .fetched ∨ s.phase d.toNat x = .completed →
    x.swObsDone = false →
    exec (.format d acfunc cmd opts seq ats alen asiv) s = .refused .formatNotOwned

/-- R166: SUBMIT_MARKER sets `next` and nothing else, takes FORMATTED to NEXT and leaves the later phases; on
a descriptor never formatted it is refused. That it runs in COMPLETED, where R77 lists no OR of `next`, is
the model's choice of R166 and R182: log entry 26. -/
def Obligations.SubmitMarkerSetsNext : Prop :=
  ∀ (s : State) (d : Byte) (x : Desc), s.cfg.wf = true → Admitted s .submitMarker d x →
    (s.phase d.toNat x = .unformatted → exec (.submitMarker d) s = .refused .submitUnformatted) ∧
    (s.phase d.toNat x ≠ .unformatted →
      ∃ t, exec (.submitMarker d) s = .next t ∧
        t.atomicRead32 d.toNat = { s.atomicRead32 d.toNat with
          shi := (s.atomicRead32 d.toNat).shi ||| s.cfg.masks.next } ∧
        t.phase d.toNat x =
          (if s.phase d.toNat x = .formatted then .next else s.phase d.toNat x) ∧
        BytesKeptOutside s t d.toNat s.cfg.layout.shi.off 1 ∧ t.descs = s.descs ∧
        UnitsKept s t ∧ t.draws = s.draws ∧
        t.answer = some ⟨.ok, .empty⟩)

/-- R170: PURGE_MARKER, from a FORMAT until completion is observed, sets `purge` and nothing else and leaves
the phase; outside that window it is refused. -/
def Obligations.PurgeMarkerSetsPurge : Prop :=
  ∀ (s : State) (d : Byte) (x : Desc), s.cfg.wf = true → Admitted s .purgeMarker d x →
    (x.fmt = false ∨ x.swObsDone = true → exec (.purgeMarker d) s = .refused .purgeOutsideWindow) ∧
    (x.fmt = true → x.swObsDone = false →
      ∃ t, exec (.purgeMarker d) s = .next t ∧
        t.atomicRead32 d.toNat = { s.atomicRead32 d.toNat with
          shi := (s.atomicRead32 d.toNat).shi ||| s.cfg.masks.purge } ∧
        t.phase d.toNat x = s.phase d.toNat x ∧
        BytesKeptOutside s t d.toNat s.cfg.layout.shi.off 1 ∧ t.descs = s.descs ∧
        UnitsKept s t ∧ t.draws = s.draws ∧
        t.answer = some ⟨.ok, .empty⟩)

/-- R173: IS_FETCHED returns the `fetched` flag of the interlock word and changes nothing. -/
def Obligations.IsFetchedReadsFlag : Prop :=
  ∀ (s : State) (d : Byte) (x : Desc), Admitted s .isFetched d x →
    exec (.isFetched d) s =
      .next { s with
        answer := some ⟨.ok, .flag ((s.atomicRead32 d.toNat).hsi &&& s.cfg.masks.fetched != 0)⟩ }

/-- R174: IS_COMPLETED returns the `completed` flag; seeing it set on a formatted descriptor is the
observation; nothing else changes. -/
def Obligations.IsCompletedReadsAndObserves : Prop :=
  ∀ (s : State) (d : Byte) (x : Desc), Admitted s .isCompleted d x →
    exec (.isCompleted d) s =
      if (s.atomicRead32 d.toNat).hsi &&& s.cfg.masks.completed ≠ 0 then
        .next { s with
          descs := s.descs.set d.toNat { x with swObsDone := x.swObsDone || x.fmt }
          answer := some ⟨.ok, .flag true⟩ }
      else .next { s with answer := some ⟨.ok, .flag false⟩ }

/-- R176: where SW may read the variant part, VERIFY_VARIANT_CRC compares the CRC of the 64 ASV bytes with
`variant_crc`, high byte first, and changes nothing; where HW may be writing it, it answers a draw, of which
nothing is known. -/
def Obligations.VerifyVariantCrcCompares : Prop :=
  ∀ (s : State) (d : Byte) (x : Desc), s.cfg.wf = true → Admitted s .verifyVariantCrc d x →
    (s.phase d.toNat x = .unformatted ∨ s.phase d.toNat x = .formatted ∨
        (s.phase d.toNat x = .completed ∧ x.swObsDone = true) →
      exec (.verifyVariantCrc d) s =
        .next { s with answer := some (verifyAnswer
          (crc16 ((List.range 64).map fun i => s.byte d.toNat (s.cfg.layout.asv.off + i)) 0xFFFF ==
            be16 (s.byte d.toNat s.cfg.layout.variantCrc.off)
              (s.byte d.toNat (s.cfg.layout.variantCrc.off + 1)))) }) ∧
    (s.phase d.toNat x = .next ∨ s.phase d.toNat x = .fetched ∨
        (s.phase d.toNat x = .completed ∧ x.swObsDone = false) →
      exec (.verifyVariantCrc d) s =
        .next { s with
          draws := s.draws + 1
          answer := some (verifyAnswer (Config.drawVerify s.draws)) })

/-- R178, R179: RESULT fails `NotCompleted` and changes nothing when `completed` is 0; else it observes the
completion and returns the four fields, with `OperationFailed` exactly when `return_code` is none of
`RETC_OK` or `attention_code` is nonzero. -/
def Obligations.ResultReturnsFields : Prop :=
  ∀ (s : State) (d : Byte) (x : Desc) (rc attn : U16) (progress : U32), s.cfg.wf = true →
    Admitted s .result d x →
    rc = BitVec.ofNat 16 (s.fieldNat d.toNat s.cfg.layout.retc) →
    attn = BitVec.ofNat 16 (s.fieldNat d.toNat s.cfg.layout.attn) →
    progress = BitVec.ofNat 32 (s.fieldNat d.toNat s.cfg.layout.progress) →
    exec (.result d) s =
      if (s.atomicRead32 d.toNat).hsi &&& s.cfg.masks.completed = 0 then
        .next { s with answer := some ⟨.notCompleted, .empty⟩ }
      else
        .next { s with
          descs := s.descs.set d.toNat { x with swObsDone := x.swObsDone || x.fmt }
          answer := some
            ⟨if rc ∈ s.cfg.retcOk ∧ attn = 0 then .ok else .operationFailed,
              .result rc attn progress
                ((List.range 64).map fun i => s.byte d.toNat (s.cfg.layout.asv.off + i))⟩ }

/-- R180, R77: VERIFY_INVARIANT_CRC compares the CRC of the bytes `ICRC_RANGE` covers with the CRC in the
interlock word and changes nothing: for SW in any phase, for HW while it may read the invariant part;
elsewhere HW is refused (log entry 13). That HW in NEXT, before an HW_FETCH, gets the comparison of the bytes
as they stand is the model's choice: log entry 27. -/
def Obligations.VerifyInvariantCrcCompares : Prop :=
  ∀ (s : State) (d : Byte) (x : Desc), Admitted s .verifyInvariantCrc d x →
    (roleOf s.issuer = .sw ∨ s.phase d.toNat x = .next ∨ s.phase d.toNat x = .fetched ∨
        (s.phase d.toNat x = .completed ∧ x.swObsDone = false) →
      exec (.verifyInvariantCrc d) s =
        .next { s with answer := some (verifyAnswer
          (crc16 (coveredBytes s.cfg fun o => s.byte d.toNat o) 0xFFFF ==
            (s.atomicRead32 d.toNat).icrc)) }) ∧
    (roleOf s.issuer = .hw →
      s.phase d.toNat x = .unformatted ∨ s.phase d.toNat x = .formatted ∨
        (s.phase d.toNat x = .completed ∧ x.swObsDone = true) →
      exec (.verifyInvariantCrc d) s = .refused .accessNotGranted)

/-- R177: right after a FORMAT that returned OK, VERIFY_VARIANT_CRC returns false with `IntegrityError`. -/
def Obligations.PrematureVerifyFails : Prop :=
  ∀ (s t : State) (d acfunc cmd : Byte) (opts : U16) (seq : Nat) (ats : U64) (alen : Byte)
    (asiv : List Byte), s.cfg.wf = true → asiv.length = alen.toNat →
    exec (.format d acfunc cmd opts seq ats alen asiv) s = .next t →
    t.answer = some ⟨.ok, .empty⟩ →
    exec (.verifyVariantCrc d) t =
      .next { t with answer := some ⟨.integrityError, .flag false⟩ }

/-- R164, R186: in a state whose sections are protected, VERIFY_INVARIANT_CRC by SW returns true in every
phase of the cycle of a formatted descriptor, and, without link faults, VERIFY_VARIANT_CRC returns true once
completion has been observed. -/
def Obligations.ProtectedSectionsVerify : Prop :=
  ∀ (s : State) (d : Byte) (x : Desc), SectionsProtected s → x.fmt = true →
    (Admitted s .verifyInvariantCrc d x → roleOf s.issuer = .sw →
      exec (.verifyInvariantCrc d) s = .next { s with answer := some ⟨.ok, .flag true⟩ }) ∧
    (Admitted s .verifyVariantCrc d x → s.cfg.linkFaults = false →
      s.phase d.toNat x = .completed → x.swObsDone = true →
      exec (.verifyVariantCrc d) s = .next { s with answer := some ⟨.ok, .flag true⟩ })

/-! ### The Command Descriptor unit, hardware side -/

/-- R184, R188: HW_FETCH in phase NEXT keeps a snapshot of the invariant part and the result of its check,
stamps `dispatch_timestamp` with a free value, sets `fetched`, and changes nothing else; outside NEXT it is
refused. With link faults every byte of the snapshot is a free value of the draw's number. -/
def Obligations.HwFetchTakesSnapshot : Prop :=
  ∀ (s : State) (d : Byte) (x : Desc) (l : Layout), s.cfg.wf = true → s.cfg.layout = l →
    Admitted s .hwFetch d x →
    (s.phase d.toNat x ≠ .next → exec (.hwFetch d) s = .refused .fetchOutsideNext) ∧
    (s.phase d.toNat x = .next →
      ∃ t snap, exec (.hwFetch d) s = .next t ∧
        t.atomicRead32 d.toNat = { s.atomicRead32 d.toNat with
          hsi := (s.atomicRead32 d.toNat).hsi ||| s.cfg.masks.fetched } ∧
        snap.bytes.length = l.invariantLen ∧
        (s.cfg.linkFaults = false → snap.bytes = [0, 0, 0, 0] ++
          (List.range (l.invariantLen - 4)).map fun i => s.byte d.toNat (4 + i)) ∧
        (s.cfg.linkFaults = true → ∀ i, i < l.invariantLen →
          byteAt snap.bytes i = Config.drawSnapByte s.draws i) ∧
        snap.icrcOk =
          ((if s.cfg.icrcRange = .zeroedWord then crc16 snap.bytes 0xFFFF
            else crc16 (snap.bytes.drop 4) 0xFFFF) == (s.atomicRead32 d.toNat).icrc) ∧
        DescBecomes s t d.toNat { x with snap := snap } ∧
        t.fieldNat d.toNat l.dispatchTs = (Config.drawDispatchTs s.draws).toNat ∧
        (∀ a, a ≠ s.addr d.toNat l.hsi.off →
          (a < s.addr d.toNat l.dispatchTs.off ∨
            s.addr d.toNat l.dispatchTs.off + l.dispatchTs.len ≤ a) → t.read a = s.read a) ∧
        UnitsKept s t ∧ t.draws = s.draws + 1 ∧ t.answer = some ⟨.ok, .empty⟩)

/-- R186, R187, R188: HW_COMPLETE in phase FETCHED writes the variant part and sets `completed`: without
link faults the stored `variant_crc` is that of the ASV it stored; `return_code` is the nonzero
`RETC_ICRC_FAIL` when the check of the fetch failed, the nonzero `RETC_BAD_CMD` when no overlay knows the
command and the model is restricted to the compression family, else free; the other values, the reserved
variant bytes among them, are free. It changes nothing else: not the invariant part, the driver's bytes or
`dispatch_timestamp`, nor any byte outside the descriptor. Outside FETCHED it is refused. -/
def Obligations.HwCompleteWritesVariantPart : Prop :=
  ∀ (s : State) (d : Byte) (x : Desc) (l : Layout), s.cfg.wf = true → s.cfg.layout = l →
    Admitted s .hwComplete d x →
    (s.phase d.toNat x ≠ .fetched → exec (.hwComplete d) s = .refused .completeOutsideFetched) ∧
    (s.phase d.toNat x = .fetched →
      ∃ t rc, exec (.hwComplete d) s = .next t ∧
        t.atomicRead32 d.toNat = { s.atomicRead32 d.toNat with
          hsi := (s.atomicRead32 d.toNat).hsi ||| s.cfg.masks.completed } ∧
        (s.cfg.linkFaults = false →
          t.fieldNat d.toNat l.variantCrc = (crc16 (t.fieldBytes d.toNat l.asv) 0xFFFF).toNat) ∧
        (s.cfg.linkFaults = true →
          t.fieldNat d.toNat l.variantCrc = (Config.drawVariantCrc s.draws).toNat) ∧
        (∀ i, i < 64 → t.byte d.toNat (l.asv.off + i) = Config.drawAsvByte s.draws i) ∧
        t.fieldNat d.toNat l.retc = BitVec.toNat (w := 16) rc ∧
        (x.snap.icrcOk = false → rc = Config.retcIcrcFail ∧ rc ≠ 0) ∧
        (x.snap.icrcOk = true → ¬SnapshotKnown s.cfg x.snap.bytes → s.cfg.zipOnly = true →
          rc = Config.retcBadCmd ∧ rc ≠ 0) ∧
        (x.snap.icrcOk = true → SnapshotKnown s.cfg x.snap.bytes ∨ s.cfg.zipOnly = false →
          rc = Config.drawRc s.draws) ∧
        t.fieldNat d.toNat l.attn = (Config.drawAttn s.draws).toNat ∧
        t.fieldNat d.toNat l.progress = (Config.drawProgress s.draws).toNat ∧
        t.fieldNat d.toNat l.completionTs = (Config.drawCompletionTs s.draws).toNat ∧
        (∀ o, o ∈ l.reservedVariant → t.byte d.toNat o = Config.drawReservedByte s.draws o) ∧
        (∀ o, o < l.size → o ≠ l.hsi.off →
          o < l.invariantLen ∨ l.driver.covers o = true ∨ l.dispatchTs.covers o = true →
          t.byte d.toNat o = s.byte d.toNat o) ∧
        BytesKeptOutside s t d.toNat 0 l.size ∧
        t.descs = s.descs ∧ UnitsKept s t ∧ t.draws = s.draws + 1 ∧ t.answer = some ⟨.ok, .empty⟩)

/-- R191: a purge and a fetch of one descriptor in phase NEXT, in either order, leave the same interlock
word with both flags set, and the CRC and the other flags as they were: no flag is lost. In the default layout
and with `next` the only flag that word is `icrc || 0x04 || 0x03`. -/
def Obligations.PurgeFetchRaceKeepsBothFlags : Prop :=
  ∀ (s : State) (d : Byte) (x : Desc) (a : Agent), s.cfg.wf = true →
    Admitted { s with issuer := a } .purgeMarker d x →
    s.phase d.toNat x = .next → x.fmt = true → x.swObsDone = false →
    ∃ t1 t2 u1 u2,
      exec (.purgeMarker d) { s with issuer := a } = .next t1 ∧
      exec (.hwFetch d) { t1 with issuer := .hw } = .next t2 ∧
      exec (.hwFetch d) { s with issuer := .hw } = .next u1 ∧
      exec (.purgeMarker d) { u1 with issuer := a } = .next u2 ∧
      t2.atomicRead32 d.toNat = u2.atomicRead32 d.toNat ∧
      t2.atomicRead32 d.toNat =
        ⟨(s.atomicRead32 d.toNat).icrc, (s.atomicRead32 d.toNat).hsi ||| s.cfg.masks.fetched,
          (s.atomicRead32 d.toNat).shi ||| s.cfg.masks.purge⟩ ∧
      (s.cfg.layout = Layout.default → s.cfg.masks = FlagMasks.default →
        (s.atomicRead32 d.toNat).hsi = 0 → (s.atomicRead32 d.toNat).shi = 0x01 →
        (t2.atomicRead32 d.toNat).word s.cfg.layout =
          (s.atomicRead32 d.toNat).icrc ++ (0x0403 : BitVec 16))

/-! ### The overlay unit -/

/-- R205: ENC_INFL_ASIV on consistent options returns 96 bytes with every field at its offset, big-endian,
and every byte of no field 0x00; it changes nothing but the answer. -/
def Obligations.EncInflAsivWritesLayout : Prop :=
  ∀ (s : State) (opts : U16) (p : InflParams) (l : InflAsivLayout), s.cfg.wf = true →
    s.cfg.ovl.iasiv = l → RoleGranted s .encInflAsiv →
    KindsAgree s.cfg.opt opts p.inKind p.outKind →
    InflAddressesPresent s.cfg.opt opts p.toInflFields →
    ∃ a, exec (.encInflAsiv opts p) s = .next { s with answer := some ⟨.ok, .bytes a⟩ } ∧
      a.length = 96 ∧
      PrefixAt s.cfg.ovl.pfx a p.inBuff p.inBuffLen p.inCrc32 p.outBuff p.outBuffLen p.inAdler32
        p.inDict p.inDictLen ∧
      be64At a l.scratch = p.scratch ∧ be32At a l.scratchLen = p.scratchLen ∧
      be16At a l.inHdrBits = p.inHdrBits ∧ byteAt a l.hdrIb = p.hdrIb ∧
      byteAt a l.scratchIb = p.scratchIb ∧ be64At a l.outDict = p.outDict ∧
      be32At a l.outDictLen = p.outDictLen ∧ ZeroOutside a s.cfg.ovl.inflAsivFields

/-- R207: ENC_DEFL_ASIV, the same for the deflate layout, `ibits` verbatim; with more than 56 carried bits it
is refused. -/
def Obligations.EncDeflAsivWritesLayout : Prop :=
  ∀ (s : State) (opts : U16) (p : DeflParams) (l : DeflAsivLayout), s.cfg.wf = true →
    s.cfg.ovl.dasiv = l → RoleGranted s .encDeflAsiv →
    (56 < p.inumbits.toNat → exec (.encDeflAsiv opts p) s = .refused .carryTooWide) ∧
    (p.inumbits.toNat ≤ 56 → p.ibits.length = 7 →
      KindsAgree s.cfg.opt opts p.inKind p.outKind →
      DeflAddressesPresent s.cfg.opt opts p.toDeflFields →
      ∃ a, exec (.encDeflAsiv opts p) s = .next { s with answer := some ⟨.ok, .bytes a⟩ } ∧
        a.length = 96 ∧
        PrefixAt s.cfg.ovl.pfx a p.inBuff p.inBuffLen p.inCrc32 p.outBuff p.outBuffLen p.inAdler32
          p.inDict p.inDictLen ∧
        be64At a l.outDict = p.outDict ∧ be32At a l.outDictLen = p.outDictLen ∧
        (∀ i, i < 7 → byteAt a (l.ibits + i) = byteAt p.ibits i) ∧
        byteAt a l.inumbits = p.inumbits ∧ ZeroOutside a s.cfg.ovl.deflAsivFields)

/-- R203, R204, R274: an option that disagrees with a buffer kind fails `BadOptionCombination`, before
`MissingWorkspace`, which is the failure when a required address is 0; both encoders, and nothing changes. -/
def Obligations.EncodersRejectBadOptions : Prop :=
  (∀ (s : State) (opts : U16) (p : InflParams), RoleGranted s .encInflAsiv →
    (¬KindsAgree s.cfg.opt opts p.inKind p.outKind →
      exec (.encInflAsiv opts p) s =
        .next { s with answer := some ⟨.badOptionCombination, .empty⟩ }) ∧
    (KindsAgree s.cfg.opt opts p.inKind p.outKind →
      ¬InflAddressesPresent s.cfg.opt opts p.toInflFields →
      exec (.encInflAsiv opts p) s =
        .next { s with answer := some ⟨.missingWorkspace, .empty⟩ })) ∧
  ∀ (s : State) (opts : U16) (p : DeflParams), RoleGranted s .encDeflAsiv →
    p.inumbits.toNat ≤ 56 →
    (¬KindsAgree s.cfg.opt opts p.inKind p.outKind →
      exec (.encDeflAsiv opts p) s =
        .next { s with answer := some ⟨.badOptionCombination, .empty⟩ }) ∧
    (KindsAgree s.cfg.opt opts p.inKind p.outKind →
      ¬DeflAddressesPresent s.cfg.opt opts p.toDeflFields →
      exec (.encDeflAsiv opts p) s =
        .next { s with answer := some ⟨.missingWorkspace, .empty⟩ })

/-- R209, R210: DEC_INFL_ASV with the inflate tag returns the ten fields at their offsets and the status
flags at the document's bit positions; it changes nothing but the answer. -/
def Obligations.DecInflAsvReadsLayout : Prop :=
  ∀ (s : State) (cmd : Byte) (a : List Byte) (l : InflAsvLayout), s.cfg.ovl.iasv = l →
    RoleGranted s .decInflAsv → cmd = s.cfg.cmdInflate →
    exec (.decInflAsv cmd a) s =
      .next { s with answer := some ⟨.ok, .inflResult
        ⟨be16At a l.outDictUsed, byteAt a l.copyblockLen, byteAt a l.inflStat, be32At a l.hdrStart,
          byteAt a l.hdrStartBits, be32At a l.outCrc32, be32At a l.outAdler32,
          be32At a l.inpProcessed, be32At a l.outpReturned, byteAt a l.outDictOffs⟩
        ⟨(byteAt a l.inflStat).getLsbD 0, (byteAt a l.inflStat).getLsbD 2,
          (byteAt a l.inflStat).getLsbD 3, (byteAt a l.inflStat).extractLsb' 5 2,
          (byteAt a l.inflStat).getLsbD 7⟩⟩ }

/-- R212: DEC_DEFL_ASV with the deflate tag returns the fields at their offsets and `otail` verbatim; it
changes nothing but the answer. -/
def Obligations.DecDeflAsvReadsLayout : Prop :=
  ∀ (s : State) (cmd : Byte) (a : List Byte) (l : DeflAsvLayout), s.cfg.ovl.dasv = l →
    RoleGranted s .decDeflAsv → cmd = s.cfg.cmdDeflate →
    exec (.decDeflAsv cmd a) s =
      .next { s with answer := some ⟨.ok, .deflResult
        ⟨be16At a l.outDictUsed, byteAt a l.onumbits, be32At a l.outCrc32, be32At a l.outAdler32,
          be32At a l.inpProcessed, be32At a l.outpReturned,
          (a.drop l.otail).take (s.cfg.onumbytes + s.cfg.obitsExtra)⟩⟩ }

/-- R214, R215: the two ASIV decoders, with their tag, are enabled for HW and return a record whose every
field is at its offset in the payload; they change nothing but the answer. -/
def Obligations.AsivDecodersReadLayout : Prop :=
  (∀ (s : State) (cmd : Byte) (a : List Byte) (l : InflAsivLayout), s.cfg.ovl.iasiv = l →
    RoleGranted s .decInflAsiv → cmd = s.cfg.cmdInflate →
    ∃ f, exec (.decInflAsiv cmd a) s = .next { s with answer := some ⟨.ok, .inflFields f⟩ } ∧
      PrefixAt s.cfg.ovl.pfx a f.inBuff f.inBuffLen f.inCrc32 f.outBuff f.outBuffLen f.inAdler32
        f.inDict f.inDictLen ∧
      f.scratch = be64At a l.scratch ∧ f.scratchLen = be32At a l.scratchLen ∧
      f.inHdrBits = be16At a l.inHdrBits ∧ f.hdrIb = byteAt a l.hdrIb ∧
      f.scratchIb = byteAt a l.scratchIb ∧ f.outDict = be64At a l.outDict ∧
      f.outDictLen = be32At a l.outDictLen) ∧
  ∀ (s : State) (cmd : Byte) (a : List Byte) (l : DeflAsivLayout), s.cfg.ovl.dasiv = l →
    RoleGranted s .decDeflAsiv → cmd = s.cfg.cmdDeflate →
    ∃ f, exec (.decDeflAsiv cmd a) s = .next { s with answer := some ⟨.ok, .deflFields f⟩ } ∧
      PrefixAt s.cfg.ovl.pfx a f.inBuff f.inBuffLen f.inCrc32 f.outBuff f.outBuffLen f.inAdler32
        f.inDict f.inDictLen ∧
      f.outDict = be64At a l.outDict ∧ f.outDictLen = be32At a l.outDictLen ∧
      f.ibits = (a.drop l.ibits).take 7 ∧ f.inumbits = byteAt a l.inumbits

/-- R201: each decoder fails `BadCommand` on another tag than its own, and nothing changes. -/
def Obligations.DecodersRejectWrongTag : Prop :=
  ∀ (s : State) (cmd : Byte) (a : List Byte),
    (cmd ≠ s.cfg.cmdInflate →
      (RoleGranted s .decInflAsv →
        exec (.decInflAsv cmd a) s = .next { s with answer := some ⟨.badCommand, .empty⟩ }) ∧
      (RoleGranted s .decInflAsiv →
        exec (.decInflAsiv cmd a) s = .next { s with answer := some ⟨.badCommand, .empty⟩ })) ∧
    (cmd ≠ s.cfg.cmdDeflate →
      (RoleGranted s .decDeflAsv →
        exec (.decDeflAsv cmd a) s = .next { s with answer := some ⟨.badCommand, .empty⟩ }) ∧
      (RoleGranted s .decDeflAsiv →
        exec (.decDeflAsiv cmd a) s = .next { s with answer := some ⟨.badCommand, .empty⟩ }))

/-- R216, R217: the two ASV encoders return 64 bytes with every field at its offset and every byte of no field
0x00; they change nothing but the answer. The reserved bits of `infl_stat` are stored as given (R216, log
entry 25). -/
def Obligations.AsvEncodersWriteLayout : Prop :=
  (∀ (s : State) (r : InflResult) (l : InflAsvLayout), s.cfg.wf = true → s.cfg.ovl.iasv = l →
    RoleGranted s .encInflAsv →
    ∃ a, exec (.encInflAsv r) s = .next { s with answer := some ⟨.ok, .bytes a⟩ } ∧
      a.length = 64 ∧ be16At a l.outDictUsed = r.outDictUsed ∧
      byteAt a l.copyblockLen = r.copyblockLen ∧ byteAt a l.inflStat = r.inflStat ∧
      be32At a l.hdrStart = r.hdrStart ∧ byteAt a l.hdrStartBits = r.hdrStartBits ∧
      be32At a l.outCrc32 = r.outCrc32 ∧ be32At a l.outAdler32 = r.outAdler32 ∧
      be32At a l.inpProcessed = r.inpProcessed ∧ be32At a l.outpReturned = r.outpReturned ∧
      byteAt a l.outDictOffs = r.outDictOffs ∧ ZeroOutside a s.cfg.ovl.inflAsvFields) ∧
  ∀ (s : State) (r : DeflResult) (l : DeflAsvLayout), s.cfg.wf = true → s.cfg.ovl.dasv = l →
    RoleGranted s .encDeflAsv → r.otail.length = s.cfg.otailLen →
    ∃ a, exec (.encDeflAsv r) s = .next { s with answer := some ⟨.ok, .bytes a⟩ } ∧
      a.length = 64 ∧ be16At a l.outDictUsed = r.outDictUsed ∧ byteAt a l.onumbits = r.onumbits ∧
      be32At a l.outCrc32 = r.outCrc32 ∧ be32At a l.outAdler32 = r.outAdler32 ∧
      be32At a l.inpProcessed = r.inpProcessed ∧ be32At a l.outpReturned = r.outpReturned ∧
      (∀ i, i < s.cfg.otailLen → byteAt a (l.otail + i) = byteAt r.otail i) ∧
      ZeroOutside a (s.cfg.ovl.deflAsvFields s.cfg.otailLen)

/-- R218: what an encoder returned with OK, the decoder of the other side decodes to the fields that were
encoded; all four pairs, `infl_stat` as its raw byte (log entry 25). The two sides have one
overlay layout, which is fixed for the machine (R316). -/
def Obligations.OverlayRoundTrip : Prop :=
  ∀ (s t u : State) (a : List Byte), s.cfg.wf = true → u.cfg.ovl = s.cfg.ovl →
    u.cfg.otailLen = s.cfg.otailLen → t.answer = some ⟨.ok, .bytes a⟩ →
    (∀ opts p, exec (.encInflAsiv opts p) s = .next t → RoleGranted u .decInflAsiv →
      exec (.decInflAsiv u.cfg.cmdInflate a) u =
        .next { u with answer := some ⟨.ok, .inflFields p.toInflFields⟩ }) ∧
    (∀ opts p, exec (.encDeflAsiv opts p) s = .next t → p.ibits.length = 7 →
      RoleGranted u .decDeflAsiv →
      exec (.decDeflAsiv u.cfg.cmdDeflate a) u =
        .next { u with answer := some ⟨.ok, .deflFields p.toDeflFields⟩ }) ∧
    (∀ r, exec (.encInflAsv r) s = .next t → RoleGranted u .decInflAsv →
      ∃ flags, exec (.decInflAsv u.cfg.cmdInflate a) u =
        .next { u with answer := some ⟨.ok, .inflResult r flags⟩ }) ∧
    (∀ r, exec (.encDeflAsv r) s = .next t → r.otail.length = u.cfg.otailLen →
      RoleGranted u .decDeflAsv →
      exec (.decDeflAsv u.cfg.cmdDeflate a) u =
        .next { u with answer := some ⟨.ok, .deflResult r⟩ })

/-- R220, R221: CARRY, within its precondition, drains the first `k` bytes and copies the bytes that hold the
rest whole, so that the drained bits and the carried bits in order are the bits the call left over; beyond
its precondition it is refused. -/
def Obligations.CarryKeepsBitSequence : Prop :=
  ∀ (s : State) (onumbits k : Byte) (otail : List Byte), RoleGranted s .carry →
    otail.length = s.cfg.otailLen →
    (onumbits.toNat ≤ 8 * s.cfg.otailLen → 8 * k.toNat ≤ onumbits.toNat →
      onumbits.toNat - 8 * k.toNat ≤ 56 →
      ∃ drained ibits inumbits,
        exec (.carry onumbits k otail) s =
          .next { s with answer := some ⟨.ok, .carry drained ibits inumbits⟩ } ∧
        drained = otail.take k.toNat ∧ drained.length = k.toNat ∧ ibits.length = 7 ∧
        inumbits.toNat = onumbits.toNat - 8 * k.toNat ∧
        (∀ i, i < (inumbits.toNat + 7) / 8 → byteAt ibits i = byteAt otail (k.toNat + i)) ∧
        (∀ i, (inumbits.toNat + 7) / 8 ≤ i → i < 7 → byteAt ibits i = 0) ∧
        bitsOf drained (8 * k.toNat) ++ bitsOf ibits inumbits.toNat =
          bitsOf otail onumbits.toNat) ∧
    (¬(onumbits.toNat ≤ 8 * s.cfg.otailLen ∧ 8 * k.toNat ≤ onumbits.toNat ∧
        onumbits.toNat - 8 * k.toNat ≤ 56) →
      exec (.carry onumbits k otail) s = .refused .carryOutsidePrecondition)

/-! ### The staging FIFO -/

/-- R242: FIFO_INIT sets both cursors to 0 and every byte of the store to 0x00, and changes nothing else. -/
def Obligations.FifoInitEmpties : Prop :=
  ∀ s : State, IsFifoOwner s →
    ∃ t, exec .fifoInit s = .next t ∧ t.fifo.push = 0 ∧ t.fifo.pop = 0 ∧
      (∀ i : Byte, t.fifo.at i = 0) ∧ t.fifo.held = [] ∧ t.fifo.session = s.fifo.session ∧
      t = { s with fifo := t.fifo, answer := some ⟨.ok, .empty⟩ }

/-- R244, R257: PUSH with room appends the byte to the bytes held, stores it at the push cursor, moves that
cursor by one with wrap, and changes nothing else. -/
def Obligations.PushAppendsByte : Prop :=
  ∀ (s : State) (b : Byte), IsFifoOwner s → s.fifo.used ≤ 254 →
    ∃ t, exec (.push b) s = .next t ∧ t.fifo.held = s.fifo.held ++ [b] ∧
      t.fifo.push = s.fifo.push + 1 ∧ t.fifo.pop = s.fifo.pop ∧ t.fifo.at s.fifo.push = b ∧
      (∀ i, i ≠ s.fifo.push → t.fifo.at i = s.fifo.at i) ∧ t.fifo.session = s.fifo.session ∧
      t = { s with fifo := t.fifo, answer := some ⟨.ok, .empty⟩ }

/-- R246, R257: PUSH32 with room for four bytes appends them least significant first, moves the push cursor
by four with wrap, and changes nothing else. -/
def Obligations.Push32AppendsLittleEndian : Prop :=
  ∀ (s : State) (v : U32), IsFifoOwner s → s.fifo.used ≤ 251 →
    ∃ t, exec (.push32 v) s = .next t ∧
      t.fifo.held = s.fifo.held ++ [v.extractLsb' 0 8, v.extractLsb' 8 8, v.extractLsb' 16 8,
        v.extractLsb' 24 8] ∧
      t.fifo.push = s.fifo.push + 4 ∧ t.fifo.pop = s.fifo.pop ∧
      (∀ i, 4 ≤ (i - s.fifo.push).toNat → t.fifo.at i = s.fifo.at i) ∧
      t.fifo.session = s.fifo.session ∧
      t = { s with fifo := t.fifo, answer := some ⟨.ok, .empty⟩ }

/-- R250, R257: POP on a FIFO that holds a byte returns the oldest one and removes it; the store is not
changed, and neither is anything else. -/
def Obligations.PopRemovesOldest : Prop :=
  ∀ s : State, IsFifoOwner s → 1 ≤ s.fifo.used →
    ∃ t b, exec .pop s = .next t ∧ s.fifo.held = b :: t.fifo.held ∧
      t.fifo = { s.fifo with pop := s.fifo.pop + 1 } ∧
      t = { s with fifo := t.fifo, answer := some ⟨.ok, .byte b⟩ }

/-- R252, R257: POP16 on a FIFO that holds two bytes returns the number whose low byte is the oldest byte,
and removes both; nothing else changes. -/
def Obligations.Pop16RemovesTwo : Prop :=
  ∀ s : State, IsFifoOwner s → 2 ≤ s.fifo.used →
    ∃ t lo hi v, exec .pop16 s = .next t ∧ s.fifo.held = lo :: hi :: t.fifo.held ∧
      v.toNat = lo.toNat + 256 * hi.toNat ∧
      t.fifo = { s.fifo with pop := s.fifo.pop + 2 } ∧
      t = { s with fifo := t.fifo, answer := some ⟨.ok, .half v⟩ }

/-- R255, R256, R46: USED returns the number of bytes held, FREE 255 less that number; both change nothing
but the answer. -/
def Obligations.UsedAndFreeCount : Prop :=
  ∀ s : State, IsFifoOwner s →
    ∃ n, exec .used s = .next { s with answer := some ⟨.ok, .count n⟩ } ∧
      exec .free s = .next { s with answer := some ⟨.ok, .count (255 - n)⟩ } ∧
      n = s.fifo.held.length ∧ n ≤ 255 ∧ n = (s.fifo.push - s.fifo.pop).toNat

/-- R244, R246, R250, R252: without room a push fails `StagingOverflow`, without enough bytes a pop fails
`StagingUnderflow`, and nothing changes. -/
def Obligations.FifoRejectsWithoutMutation : Prop :=
  ∀ s : State, IsFifoOwner s →
    (∀ b, 255 - s.fifo.held.length < 1 →
      exec (.push b) s = .next { s with answer := some ⟨.stagingOverflow, .empty⟩ }) ∧
    (∀ v, 255 - s.fifo.held.length < 4 →
      exec (.push32 v) s = .next { s with answer := some ⟨.stagingOverflow, .empty⟩ }) ∧
    (s.fifo.held.length < 1 →
      exec .pop s = .next { s with answer := some ⟨.stagingUnderflow, .empty⟩ }) ∧
    (s.fifo.held.length < 2 →
      exec .pop16 s = .next { s with answer := some ⟨.stagingUnderflow, .empty⟩ })

/-- R246: with room for four, `PUSH32 v` leaves the FIFO that four pushes of its bytes, least significant
first, leave. -/
def Obligations.Push32IsFourPushes : Prop :=
  ∀ (s : State) (v : U32), IsFifoOwner s → s.fifo.used ≤ 251 →
    ∃ t u1 u2 u3 u4, exec (.push32 v) s = .next t ∧
      exec (.push (v.extractLsb' 0 8)) s = .next u1 ∧
      exec (.push (v.extractLsb' 8 8)) u1 = .next u2 ∧
      exec (.push (v.extractLsb' 16 8)) u2 = .next u3 ∧
      exec (.push (v.extractLsb' 24 8)) u3 = .next u4 ∧ t = u4

/-- R252: after `PUSH32 v` on an empty FIFO, POP16 returns `v[15:0]` and a second POP16 `v[31:16]`, and the
FIFO is empty again. -/
def Obligations.Push32ThenPop16RoundTrip : Prop :=
  ∀ (s : State) (v : U32), IsFifoOwner s → s.fifo.push = s.fifo.pop →
    ∃ t u w, exec (.push32 v) s = .next t ∧ exec .pop16 t = .next u ∧ exec .pop16 u = .next w ∧
      u.answer = some ⟨.ok, .half (v.extractLsb' 0 16)⟩ ∧
      w.answer = some ⟨.ok, .half (v.extractLsb' 16 16)⟩ ∧ w.fifo.isEmpty = true

/-! ### The defaults -/

/-- R10 and the rules its table points to (R91, R98, R100, R104 to R108, R120, R161, R271): every
parameter of R10 that is a field of the configuration has the spec's default there, and the whole is one
the other statements' premise admits. `NDESC` is in `BootLeavesWhatTheSpecStates`. -/
def Obligations.DefaultParametersAreTheSpecs : Prop :=
  Config.default.layout =
    { size := 256, icrc := ⟨0x00, 2⟩, hsi := ⟨0x02, 1⟩, shi := ⟨0x03, 1⟩, preamble := ⟨0x04, 1⟩,
      xdir := ⟨0x05, 1⟩, seq := ⟨0x06, 2⟩, acfunc := ⟨0x08, 1⟩, cmd := ⟨0x09, 1⟩,
      opts := ⟨0x0A, 2⟩, sur := ⟨0x0C, 1⟩, psp := ⟨0x0D, 1⟩, firmware := ⟨0x10, 8⟩,
      asiv := ⟨0x18, 104⟩, asv := ⟨0x80, 64⟩, variantCrc := ⟨0xC2, 2⟩, retc := ⟨0xD0, 2⟩,
      attn := ⟨0xD2, 2⟩, progress := ⟨0xD4, 4⟩, completionTs := ⟨0xD8, 8⟩, driver := ⟨0xF0, 8⟩,
      dispatchTs := ⟨0xF8, 8⟩ } ∧
  Config.default.layout.invariantLen = 128 ∧
  (∀ o, o ∈ Config.default.layout.reservedVariant ↔
    (0xC0 ≤ o ∧ o ≤ 0xC1) ∨ (0xC4 ≤ o ∧ o ≤ 0xCF) ∨ (0xE0 ≤ o ∧ o ≤ 0xEF)) ∧
  Config.default.masks = ⟨0x01, 0x02, 0x04, 0x40⟩ ∧
  Config.default.ovl =
    { pfx := ⟨0x00, 0x08, 0x0C, 0x10, 0x18, 0x1C, 0x20, 0x28⟩,
      iasiv := ⟨0x30, 0x38, 0x3C, 0x3E, 0x3F, 0x40, 0x48⟩, dasiv := ⟨0x40, 0x48, 0x50, 0x57⟩,
      iasv := ⟨0x00, 0x02, 0x04, 0x08, 0x0E, 0x10, 0x14, 0x18, 0x1C, 0x38⟩,
      dasv := ⟨0x00, 0x05, 0x10, 0x14, 0x18, 0x1C, 0x20⟩ } ∧
  Config.default.descAlign = 256 ∧ Config.default.seqWidth = 16 ∧
  Config.default.crcLenBits = 16 ∧ Config.default.retcOk = [0] ∧
  Config.default.asivCap = 96 ∧ Config.default.asivOff = 0x20 ∧
  { Config.default with atsPresent := false }.asivCap = 104 ∧
  { Config.default with atsPresent := false }.asivOff = 0x18 ∧
  Config.default.onumbytes = 24 ∧ Config.default.obitsExtra = 7 ∧ Config.default.otailLen = 31 ∧
  Config.default.acfuncZip = 0x01 ∧ Config.default.cmdInflate = 0x01 ∧
  Config.default.cmdDeflate = 0x02 ∧
  Config.default.opt =
    { ibufIndir := 0x0001, obufIndir := 0x0002, dictSave := 0x0004, dictRestore := 0x0008,
      stateProvided := 0x0010, stateSave := 0x0020, blockStart := 0x0040, blockStop := 0x0080,
      integrityCheck := 0x0100 } ∧
  Config.default.icrcRange = .zeroedWord ∧ Config.default.linkFaults = false ∧
  Config.default.atsPresent = true ∧ Config.default.pre = 0x00 ∧ Config.default.xdir = 0x00 ∧
  Config.default.sur = 0x00 ∧ Config.default.psp = 0x00 ∧
  Config.default.opCodes =
    { crc16 := 0x10, format := 0x20, submitMarker := 0x21, purgeMarker := 0x22, isFetched := 0x23,
      isCompleted := 0x24, verifyVariantCrc := 0x25, result := 0x26, verifyInvariantCrc := 0x27,
      hwFetch := 0x30, hwComplete := 0x31, encInflAsiv := 0x40, encDeflAsiv := 0x41,
      decInflAsv := 0x42, decDeflAsv := 0x43, carry := 0x44, decInflAsiv := 0x46,
      decDeflAsiv := 0x47, encInflAsv := 0x48, encDeflAsv := 0x49, fifoInit := 0x50, push := 0x51,
      push32 := 0x52, pop := 0x53, pop16 := 0x54, used := 0x55, free := 0x56 } ∧
  Config.default.errCodes =
    { ok := 0, integrityError := 1, payloadTooLarge := 2, missingWorkspace := 3, notCompleted := 4,
      operationFailed := 5, stagingOverflow := 6, stagingUnderflow := 7,
      badOptionCombination := 8, badCommand := 9 } ∧
  Config.default.wf = true

/-- R26, R94: with the default layout the 32-bit interlock word, `be32` of descriptor bytes 0 to 3, has the CRC
in bits 31 to 16, `hsi` in 15 to 8 and `shi` in 7 to 0, and the four flag masks are these bits of it. -/
def Obligations.DefaultInterlockWord : Prop :=
  (∀ (s : State) (d : Nat), s.cfg.layout = Layout.default →
    be32 (s.byte d 0) (s.byte d 1) (s.byte d 2) (s.byte d 3) =
      (s.atomicRead32 d).word s.cfg.layout) ∧
  (∀ w : Interlock, (w.word Layout.default).extractLsb' 16 16 = w.icrc ∧
    (w.word Layout.default).extractLsb' 8 8 = w.hsi ∧
    (w.word Layout.default).extractLsb' 0 8 = w.shi) ∧
  (maskNext FlagMasks.default).word Layout.default = 0x00000001 ∧
  (maskPurge FlagMasks.default).word Layout.default = 0x00000002 ∧
  (maskFetched FlagMasks.default).word Layout.default = 0x00000400 ∧
  (maskCompleted FlagMasks.default).word Layout.default = 0x00004000
end

