-- ==== Sys2Proof/Laws/Bytes.lean ====
section
/-! SUPPORT. Laws of the byte helpers: the big-endian and little-endian forms invert each other, and what
a byte array holds after a store inside it. -/

namespace Sys2Proof.Machine

theorem be16_toNat (b0 b1 : Byte) : (be16 b0 b1).toNat = b0.toNat * 256 + b1.toNat := by
  unfold be16
  rw [BitVec.toNat_append]
  have := b1.isLt
  rw [← Nat.shiftLeft_add_eq_or_of_lt this, Nat.shiftLeft_eq]

theorem append_hi {n m : Nat} (x : BitVec n) (y : BitVec m) : (x ++ y).extractLsb' m n = x := by
  apply BitVec.eq_of_getLsbD_eq
  intro i hi
  simp [BitVec.getLsbD_append, hi]

theorem append_lo {n m : Nat} (x : BitVec n) (y : BitVec m) : (x ++ y).extractLsb' 0 m = y := by
  apply BitVec.eq_of_getLsbD_eq
  intro i hi
  simp [BitVec.getLsbD_append, hi]

theorem append_split {n m : Nat} (v : BitVec (n + m)) :
    (v.extractLsb' m n ++ v.extractLsb' 0 m) = v := by
  apply BitVec.eq_of_getLsbD_eq
  intro i hi
  rw [BitVec.getLsbD_append]
  by_cases h : i < m
  · simp [h]
  · have : i - m < n := by omega
    simp [h, this, show m + (i - m) = i by omega]

@[simp] theorem be16_hi (b0 b1 : Byte) : (be16 b0 b1).extractLsb' 8 8 = b0 := append_hi b0 b1

@[simp] theorem be16_lo (b0 b1 : Byte) : (be16 b0 b1).extractLsb' 0 8 = b1 := append_lo b0 b1

@[simp] theorem be32_hi (b0 b1 b2 b3 : Byte) :
    (be32 b0 b1 b2 b3).extractLsb' 16 16 = be16 b0 b1 := append_hi (be16 b0 b1) (be16 b2 b3)

@[simp] theorem be32_lo (b0 b1 b2 b3 : Byte) :
    (be32 b0 b1 b2 b3).extractLsb' 0 16 = be16 b2 b3 := append_lo (be16 b0 b1) (be16 b2 b3)

@[simp] theorem be64_hi (b0 b1 b2 b3 b4 b5 b6 b7 : Byte) :
    (be64 b0 b1 b2 b3 b4 b5 b6 b7).extractLsb' 32 32 = be32 b0 b1 b2 b3 :=
  append_hi (be32 b0 b1 b2 b3) (be32 b4 b5 b6 b7)

@[simp] theorem be64_lo (b0 b1 b2 b3 b4 b5 b6 b7 : Byte) :
    (be64 b0 b1 b2 b3 b4 b5 b6 b7).extractLsb' 0 32 = be32 b4 b5 b6 b7 :=
  append_lo (be32 b0 b1 b2 b3) (be32 b4 b5 b6 b7)

@[simp] theorem toBe16_be16 (b0 b1 : Byte) : toBe16 (be16 b0 b1) = [b0, b1] := by
  simp [toBe16]

@[simp] theorem toBe32_be32 (b0 b1 b2 b3 : Byte) : toBe32 (be32 b0 b1 b2 b3) = [b0, b1, b2, b3] := by
  simp [toBe32]

@[simp] theorem toBe64_be64 (b0 b1 b2 b3 b4 b5 b6 b7 : Byte) :
    toBe64 (be64 b0 b1 b2 b3 b4 b5 b6 b7) = [b0, b1, b2, b3, b4, b5, b6, b7] := by
  simp [toBe64]

theorem be16_split (v : U16) : be16 (v.extractLsb' 8 8) (v.extractLsb' 0 8) = v :=
  append_split (n := 8) (m := 8) v

theorem be32_split (v : U32) :
    (v.extractLsb' 16 16 ++ v.extractLsb' 0 16 : BitVec (16 + 16)) = v :=
  append_split (n := 16) (m := 16) v

theorem be64_split (v : U64) :
    (v.extractLsb' 32 32 ++ v.extractLsb' 0 32 : BitVec (32 + 32)) = v :=
  append_split (n := 32) (m := 32) v

@[simp] theorem length_toBe16 (v : U16) : (toBe16 v).length = 2 := rfl

@[simp] theorem length_toBe32 (v : U32) : (toBe32 v).length = 4 := rfl

@[simp] theorem length_toBe64 (v : U64) : (toBe64 v).length = 8 := rfl

@[simp] theorem length_toLe32 (v : U32) : (toLe32 v).length = 4 := rfl

/-- The value of the two bytes `to_be16` stores. -/
theorem be16_toBe16 (v : U16) : be16 (byteAt (toBe16 v) 0) (byteAt (toBe16 v) 1) = v := be16_split v

/-- The value of the four bytes `to_be32` stores. -/
theorem be32_toBe32 (v : U32) :
    be32 (byteAt (toBe32 v) 0) (byteAt (toBe32 v) 1) (byteAt (toBe32 v) 2) (byteAt (toBe32 v) 3)
      = v := by
  show be16 _ _ ++ be16 _ _ = v
  have h1 := be16_split (v.extractLsb' 16 16)
  have h2 := be16_split (v.extractLsb' 0 16)
  simp only [byteAt, toBe32, toBe16, List.cons_append, List.nil_append, List.getD_cons_zero,
    List.getD_cons_succ]
  rw [h1, h2]
  exact be32_split v

/-- The value of the eight bytes `to_be64` stores. -/
theorem be64_toBe64 (v : U64) :
    be64 (byteAt (toBe64 v) 0) (byteAt (toBe64 v) 1) (byteAt (toBe64 v) 2) (byteAt (toBe64 v) 3)
      (byteAt (toBe64 v) 4) (byteAt (toBe64 v) 5) (byteAt (toBe64 v) 6) (byteAt (toBe64 v) 7)
      = v := by
  show be32 _ _ _ _ ++ be32 _ _ _ _ = v
  have h1 := be32_toBe32 (v.extractLsb' 32 32)
  have h2 := be32_toBe32 (v.extractLsb' 0 32)
  simp only [byteAt, toBe64, toBe32, toBe16, List.cons_append, List.nil_append,
    List.getD_cons_zero, List.getD_cons_succ] at h1 h2 ⊢
  rw [h1, h2]
  exact be64_split v

/-! Stores inside a byte array. -/

@[simp] theorem length_putBytes (a : List Byte) (o : Nat) (bs : List Byte) :
    (putBytes a o bs).length = a.length := by
  induction a generalizing o bs with
  | nil => simp [putBytes]
  | cons x xs ih =>
    cases o with
    | zero => cases bs <;> simp [putBytes, ih]
    | succ o => simp [putBytes, ih]

/-- What a byte array holds after a store inside it: the stored bytes in their range, the old bytes
elsewhere. -/
theorem byteAt_putBytes (a : List Byte) (o : Nat) (bs : List Byte) (i : Nat) (hi : i < a.length) :
    byteAt (putBytes a o bs) i =
      if o ≤ i ∧ i < o + bs.length then byteAt bs (i - o) else byteAt a i := by
  induction a generalizing o bs i with
  | nil => simp at hi
  | cons x xs ih =>
    cases o with
    | zero =>
      cases bs with
      | nil => simp [putBytes]
      | cons b bs =>
        cases i with
        | zero => simp [putBytes, byteAt]
        | succ i =>
          have := ih 0 bs i (by simpa using hi)
          simp only [byteAt, putBytes, List.getD_cons_succ, List.length_cons, Nat.zero_le,
            true_and, Nat.zero_add, Nat.sub_zero, Nat.add_lt_add_iff_right] at this ⊢
          exact this
    | succ o =>
      cases i with
      | zero => simp [putBytes, byteAt]
      | succ i =>
        have := ih o bs i (by simpa using hi)
        simp only [byteAt, putBytes, List.getD_cons_succ, Nat.add_le_add_iff_right,
          Nat.add_sub_add_right] at this ⊢
        rw [this]
        have : (o ≤ i ∧ i < o + bs.length) ↔ (o ≤ i ∧ i + 1 < o + 1 + bs.length) := by omega
        simp only [this]

theorem byteAt_slice (bs : List Byte) (o n i : Nat) (h : i < n) :
    byteAt (slice bs o n) i = byteAt bs (o + i) := by
  simp [byteAt, slice, h, List.getD_eq_getElem?_getD]

theorem length_slice (bs : List Byte) (o n : Nat) (h : o + n ≤ bs.length) :
    (slice bs o n).length = n := by
  simp [slice]; omega

/-- Two byte arrays of one length with the same bytes are the same. -/
theorem bytes_ext (a b : List Byte) (hl : a.length = b.length)
    (h : ∀ i, i < a.length → byteAt a i = byteAt b i) : a = b := by
  apply List.ext_getElem hl
  intro i h1 h2
  have := h i h1
  simpa [byteAt, List.getD_eq_getElem?_getD, h1, h2] using this

/-- A run of zero bytes holds 0 everywhere. -/
@[simp] theorem byteAt_replicate_zero (n i : Nat) : byteAt (List.replicate n 0#8) i = 0#8 := by
  unfold byteAt
  rw [List.getD_eq_getElem?_getD, List.getElem?_replicate]
  split <;> rfl

/-- The bytes of a byte array given by a function of the offset. -/
theorem byteAt_map_range (n i : Nat) (f : Nat → Byte) (h : i < n) :
    byteAt ((List.range n).map f) i = f i := by
  simp [byteAt, List.getD_eq_getElem?_getD, h]

theorem byteAt_drop (bs : List Byte) (n i : Nat) : byteAt (bs.drop n) i = byteAt bs (n + i) := by
  simp [byteAt, List.getD_eq_getElem?_getD]

theorem byteAt_take (bs : List Byte) (n i : Nat) (h : i < n) :
    byteAt (bs.take n) i = byteAt bs i := by
  simp [byteAt, List.getD_eq_getElem?_getD, h]

/-! The bytes the big-endian forms store, as fields of the value. -/

theorem byteAt_toBe16 (v : U16) (i : Nat) (h : i < 2) :
    byteAt (toBe16 v) i = v.extractLsb' (8 * (1 - i)) 8 := by
  interval_cases i <;> rfl

/-- A field of a field. -/
theorem extract_extract {n : Nat} (v : BitVec n) (o k p l : Nat) (h : p + l ≤ k) :
    (v.extractLsb' o k).extractLsb' p l = v.extractLsb' (o + p) l := by
  apply BitVec.eq_of_getLsbD_eq
  intro i hi
  simp [hi, show p + i < k by omega, Nat.add_assoc]

theorem byteAt_toBe32 (v : U32) (i : Nat) (h : i < 4) :
    byteAt (toBe32 v) i = v.extractLsb' (8 * (3 - i)) 8 := by
  interval_cases i <;> exact extract_extract v _ 16 _ 8 (by decide)

theorem byteAt_toBe64 (v : U64) (i : Nat) (h : i < 8) :
    byteAt (toBe64 v) i = v.extractLsb' (8 * (7 - i)) 8 := by
  interval_cases i <;>
    exact (congrArg _ (extract_extract v _ 32 _ 16 (by decide))).trans
      (extract_extract v _ 16 _ 8 (by decide))

/-! Fields whose width is a parameter. -/

@[simp] theorem length_toBe (n v : Nat) : (toBe n v).length = n := by
  induction n with
  | zero => rfl
  | succ n ih => simp [toBe, ih]

theorem byteAt_toBe (n v i : Nat) (h : i < n) :
    byteAt (toBe n v) i = BitVec.ofNat 8 (v >>> (8 * (n - 1 - i))) := by
  induction n generalizing i with
  | zero => omega
  | succ n ih =>
    cases i with
    | zero => simp [toBe, byteAt]
    | succ i =>
      have := ih i (by omega)
      simp only [byteAt, toBe, List.getD_cons_succ] at this ⊢
      rw [this, show n + 1 - 1 - (i + 1) = n - 1 - i by omega]

theorem foldl_be (bs : List Byte) (v : Nat) :
    bs.foldl (fun v b => v * 256 + b.toNat) v = v * 256 ^ bs.length + ofBe bs := by
  induction bs generalizing v with
  | nil => simp [ofBe]
  | cons b bs ih =>
    unfold ofBe
    rw [List.foldl_cons, List.foldl_cons, ih, ih, List.length_cons, Nat.pow_succ]
    ring

theorem ofBe_cons (b : Byte) (bs : List Byte) :
    ofBe (b :: bs) = b.toNat * 256 ^ bs.length + ofBe bs := by
  have := foldl_be bs b.toNat
  unfold ofBe at this ⊢
  rw [List.foldl_cons, Nat.zero_mul, Nat.zero_add, this]

theorem ofBe_lt (bs : List Byte) : ofBe bs < 256 ^ bs.length := by
  induction bs with
  | nil => simp [ofBe]
  | cons b bs ih =>
    rw [ofBe_cons, List.length_cons, Nat.pow_succ]
    have := b.isLt
    nlinarith [Nat.pos_of_ne_zero (show 256 ^ bs.length ≠ 0 by positivity)]

/-- A number stored in `n` bytes is read back modulo their range. -/
theorem ofBe_toBe (n v : Nat) : ofBe (toBe n v) = v % 256 ^ n := by
  induction n with
  | zero => simp [toBe, ofBe, Nat.mod_one]
  | succ n ih =>
    have hm : v % 256 ^ (n + 1) = v % 256 ^ n + 256 ^ n * (v / 256 ^ n % 256) := by
      rw [Nat.pow_succ, Nat.mod_mul]
    rw [toBe, ofBe_cons, ih, length_toBe, BitVec.toNat_ofNat, Nat.shiftRight_eq_div_pow,
      show (2 : Nat) ^ (8 * n) = 256 ^ n by rw [Nat.pow_mul], hm,
      show (2 : Nat) ^ 8 = 256 by decide]
    ring

theorem ofBe_toBe_of_lt (n v : Nat) (h : v < 256 ^ n) : ofBe (toBe n v) = v := by
  rw [ofBe_toBe, Nat.mod_eq_of_lt h]

/-- Bytes are the big-endian form of the number they hold. -/
theorem toBe_ofBe (bs : List Byte) : toBe bs.length (ofBe bs) = bs := by
  induction bs with
  | nil => rfl
  | cons b bs ih =>
    have hlt := ofBe_lt bs
    have low : ∀ (n v w : Nat), v % 256 ^ n = w % 256 ^ n → toBe n v = toBe n w := by
      intro n
      induction n with
      | zero => intros; rfl
      | succ n ihn =>
        intro v w hvw
        have h1 : v % 256 ^ n = w % 256 ^ n := by
          have := congrArg (· % 256 ^ n) hvw
          simpa [Nat.pow_succ, Nat.mod_mod_of_dvd] using this
        rw [toBe, toBe, ihn v w h1]
        congr 1
        apply BitVec.eq_of_toNat_eq
        rw [BitVec.toNat_ofNat, BitVec.toNat_ofNat, Nat.shiftRight_eq_div_pow,
          Nat.shiftRight_eq_div_pow, show (2 : Nat) ^ (8 * n) = 256 ^ n by rw [Nat.pow_mul],
          show (2 : Nat) ^ 8 = 256 by decide]
        rw [Nat.pow_succ, Nat.mod_mul, Nat.mod_mul, h1] at hvw
        have hp : 0 < 256 ^ n := by positivity
        exact Nat.eq_of_mul_eq_mul_left hp (by omega)
    rw [List.length_cons, toBe, ofBe_cons]
    congr 1
    · apply BitVec.eq_of_toNat_eq
      rw [BitVec.toNat_ofNat, Nat.shiftRight_eq_div_pow,
        show (2 : Nat) ^ (8 * bs.length) = 256 ^ bs.length by rw [Nat.pow_mul],
        Nat.add_comm, Nat.add_mul_div_right _ _ (by positivity), Nat.div_eq_of_lt hlt, Nat.zero_add]
      exact Nat.mod_eq_of_lt b.isLt
    · rw [low bs.length _ (ofBe bs) (by rw [Nat.add_comm, Nat.add_mul_mod_self_right]), ih]

/-- `to_be16` is the two-byte form of the value. -/
theorem toBe16_eq (v : U16) : toBe16 v = toBe 2 v.toNat := by
  refine bytes_ext _ _ rfl fun i hi => ?_
  rw [length_toBe16] at hi
  rw [byteAt_toBe16 v i hi, byteAt_toBe 2 _ i hi]
  apply BitVec.eq_of_toNat_eq
  simp

theorem toBe32_eq (v : U32) : toBe32 v = toBe 4 v.toNat := by
  refine bytes_ext _ _ rfl fun i hi => ?_
  rw [length_toBe32] at hi
  rw [byteAt_toBe32 v i hi, byteAt_toBe 4 _ i hi]
  apply BitVec.eq_of_toNat_eq
  simp

theorem toBe64_eq (v : U64) : toBe64 v = toBe 8 v.toNat := by
  refine bytes_ext _ _ rfl fun i hi => ?_
  rw [length_toBe64] at hi
  rw [byteAt_toBe64 v i hi, byteAt_toBe 8 _ i hi]
  apply BitVec.eq_of_toNat_eq
  simp

/-- A value with room in its field is read back (R24). -/
theorem ofNat_ofBe_toBe {w : Nat} (v : BitVec w) (n : Nat) (h : w ≤ 8 * n) :
    BitVec.ofNat w (ofBe (toBe n v.toNat)) = v := by
  rw [ofBe_toBe_of_lt]
  · simp
  · calc v.toNat < 2 ^ w := v.isLt
      _ ≤ 2 ^ (8 * n) := Nat.pow_le_pow_right (by decide) h
      _ = 256 ^ n := by rw [Nat.pow_mul]

/-- The field at an offset is the number its bytes hold, when they are all there. -/
theorem beAt_eq_slice (bs : List Byte) (o n : Nat) (h : o + n ≤ bs.length) :
    beAt bs o n = ofBe (slice bs o n) := by
  unfold beAt
  congr 1
  refine bytes_ext _ _ (by rw [length_slice _ _ _ h]; simp) fun i hi => ?_
  have hi' : i < n := by simpa using hi
  rw [byteAt_map_range _ _ _ hi', byteAt_slice _ _ _ _ hi']

/-- The field that follows a prefix of a byte array. -/
theorem beAt_middle (before bs after : List Byte) :
    beAt (before ++ bs ++ after) before.length bs.length = ofBe bs := by
  rw [beAt_eq_slice _ _ _ (by simp)]
  simp [slice]

/-- A value of `w` bits fits the bytes that hold `w` bits. -/
theorem lt_widthBytes (v w : Nat) (h : v < 2 ^ w) : v < 256 ^ widthBytes w := by
  calc v < 2 ^ w := h
    _ ≤ 2 ^ (8 * widthBytes w) := Nat.pow_le_pow_right (by decide) (by unfold widthBytes; omega)
    _ = 256 ^ widthBytes w := by rw [Nat.pow_mul]

/-- A value of `w` bits is read back from its place in a byte array. -/
theorem beAt_toBe_middle (before after : List Byte) (v w : Nat) (h : v < 2 ^ w) :
    beAt (before ++ toBe (widthBytes w) v ++ after) before.length (widthBytes w) = v := by
  have := beAt_middle before (toBe (widthBytes w) v) after
  rw [length_toBe] at this
  rw [this, ofBe_toBe_of_lt _ _ (lt_widthBytes v w h)]

theorem length_blankWord : blankWord.length = interlockLen := List.length_replicate

/-! Laying out fields. -/

/-- The place a run of bytes takes. -/
def runField (r : Nat × List Byte) : Field := ⟨r.1, r.2.length⟩

theorem disjoint_iff (f g : Field) :
    f.disjoint g = true ↔ f.off + f.len ≤ g.off ∨ g.off + g.len ≤ f.off := by
  simp [Field.disjoint]

theorem covers_iff (f : Field) (o : Nat) : f.covers o = true ↔ f.off ≤ o ∧ o < f.off + f.len := by
  simp [Field.covers]

@[simp] theorem layOut_nil (len : Nat) : layOut len [] = List.replicate len 0 := rfl

/-- The last field is stored over the layout of the others. -/
theorem layOut_concat (len : Nat) (fields : List (Nat × List Byte)) (f : Nat × List Byte) :
    layOut len (fields ++ [f]) = putBytes (layOut len fields) f.1 f.2 := by
  unfold layOut
  rw [List.foldl_append]
  rfl

@[simp] theorem length_layOut (len : Nat) (fields : List (Nat × List Byte)) :
    (layOut len fields).length = len := by
  induction fields using List.reverseRecOn with
  | nil => simp
  | append_singleton fs f ih => rw [layOut_concat, length_putBytes, ih]

/-- A byte that no field covers is 0x00. -/
theorem byteAt_layOut_outside (len : Nat) (fields : List (Nat × List Byte)) (i : Nat) (hi : i < len)
    (h : ∀ f ∈ fields, i < f.1 ∨ f.1 + f.2.length ≤ i) : byteAt (layOut len fields) i = 0 := by
  induction fields using List.reverseRecOn with
  | nil => simp
  | append_singleton fs f ih =>
    rw [layOut_concat, byteAt_putBytes _ _ _ _ (by simpa using hi), if_neg]
    · exact ih fun g hg => h g (by simp [hg])
    · have := h f (by simp)
      omega

/-- A byte inside a field that no later field overlaps is that field's. -/
theorem byteAt_layOut_inside (len : Nat) (before after : List (Nat × List Byte)) (f : Nat × List Byte)
    (i : Nat) (hi : i < len) (h : f.1 ≤ i ∧ i < f.1 + f.2.length)
    (ha : ∀ g ∈ after, i < g.1 ∨ g.1 + g.2.length ≤ i) :
    byteAt (layOut len (before ++ f :: after)) i = byteAt f.2 (i - f.1) := by
  induction after using List.reverseRecOn with
  | nil => rw [layOut_concat, byteAt_putBytes _ _ _ _ (by simpa using hi), if_pos h]
  | append_singleton gs g ih =>
    rw [← List.cons_append, ← List.append_assoc, layOut_concat,
      byteAt_putBytes _ _ _ _ (by simpa using hi), if_neg]
    · exact ih fun g' hg => ha g' (by simp [hg])
    · have := ha g (by simp)
      omega

/-- A byte inside a field is that field's, when no two fields share a byte. -/
theorem byteAt_layOut_mem (len : Nat) (fields : List (Nat × List Byte)) (f : Nat × List Byte)
    (i : Nat) (hi : i < len) (hd : fields.Pairwise fun x y => (runField x).disjoint (runField y) = true)
    (hf : f ∈ fields) (h : f.1 ≤ i ∧ i < f.1 + f.2.length) :
    byteAt (layOut len fields) i = byteAt f.2 (i - f.1) := by
  obtain ⟨before, after, rfl⟩ := List.append_of_mem hf
  refine byteAt_layOut_inside _ _ _ _ _ hi h fun g hg => ?_
  have := (List.pairwise_cons.mp (List.pairwise_append.mp hd).2.1).1 g hg
  rw [disjoint_iff] at this
  simp only [runField] at this
  omega

/-- The bytes of a field, when no two fields share a byte. -/
theorem slice_layOut_mem (len : Nat) (fields : List (Nat × List Byte)) (f : Nat × List Byte)
    (hl : f.1 + f.2.length ≤ len)
    (hd : fields.Pairwise fun x y => (runField x).disjoint (runField y) = true) (hf : f ∈ fields) :
    slice (layOut len fields) f.1 f.2.length = f.2 := by
  refine bytes_ext _ _ (length_slice _ _ _ (by simpa using hl)) fun i hi => ?_
  rw [length_slice _ _ _ (by simpa using hl)] at hi
  rw [byteAt_slice _ _ _ _ hi, byteAt_layOut_mem _ _ f _ (by omega) hd hf ⟨by omega, by omega⟩]
  congr 1
  omega

end Sys2Proof.Machine
end

