-- ==== Sys2Proof/Laws/Checksum.lean ====
section
/-! SUPPORT. Laws of the checksum: the fold, and a form of it that Lean's kernel evaluates byte by byte. -/

namespace Sys2Proof.Machine

@[simp] theorem crc16_nil (init : U16) : crc16 [] init = init := rfl

@[simp] theorem crc16_cons (b : Byte) (bs : List Byte) (init : U16) :
    crc16 (b :: bs) init = crc16 bs (crc16Step init b) := rfl

/-- The left fold over a concatenation. -/
theorem crc16_append (a b : List Byte) (init : U16) :
    crc16 (a ++ b) init = crc16 b (crc16 a init) := by
  unfold crc16
  rw [List.foldl_append]

/-- The same fold with the running value as a number that is evaluated before the next byte enters. -/
def crc16Strict : List Byte → Nat → Nat
  | [], c => c
  | b :: bs, 0 => crc16Strict bs (crc16Step 0 b).toNat
  | b :: bs, c + 1 => crc16Strict bs (crc16Step (BitVec.ofNat 16 (c + 1)) b).toNat

theorem crc16_eq_strict (data : List Byte) (init : U16) :
    crc16 data init = BitVec.ofNat 16 (crc16Strict data init.toNat) := by
  induction data generalizing init with
  | nil => simp [crc16Strict]
  | cons b bs ih =>
    have step : crc16Strict (b :: bs) init.toNat = crc16Strict bs (crc16Step init b).toNat := by
      rcases hn : init.toNat with _ | n
      · have : init = 0 := BitVec.eq_of_toNat_eq (by simpa using hn)
        simp [crc16Strict, this]
      · have : BitVec.ofNat 16 (n + 1) = init := by rw [← hn]; simp
        simp [crc16Strict, this]
    rw [step, ← ih, crc16_cons]

end Sys2Proof.Machine
end

