-- ==== Sys2Proof/Laws/Layout.lean ====
section
/-! SUPPORT. What a well-formed configuration gives: where fields stand, that they share no byte, and that the
flags of a byte are different single bits. -/

namespace Sys2Proof.Machine

/-! Fields that fit. -/

/-- A field of a fitting list stands inside the range. -/
theorem fit_bounds {lo hi : Nat} {fs : List Field} (h : fieldsFit lo hi fs = true) (f : Field)
    (hf : f ∈ fs) : lo ≤ f.off ∧ f.off + f.len ≤ hi := by
  simp only [fieldsFit, Bool.and_eq_true, List.all_eq_true, decide_eq_true_eq] at h
  exact h.2 f hf

theorem fit_pairwise {lo hi : Nat} {fs : List Field} (h : fieldsFit lo hi fs = true) :
    fs.Pairwise fun f g => f.disjoint g = true := by
  simp only [fieldsFit, Bool.and_eq_true, decide_eq_true_eq] at h
  exact h.1

/-- Two fields of a fitting list share no byte; the places in the list tell them apart. -/
theorem fit_disjoint {lo hi : Nat} {fs : List Field} (h : fieldsFit lo hi fs = true) (i j : Nat)
    (f g : Field) (hij : i < j) (hf : fs[i]? = some f) (hg : fs[j]? = some g) :
    f.off + f.len ≤ g.off ∨ g.off + g.len ≤ f.off := by
  obtain ⟨hi', rfl⟩ := List.getElem?_eq_some_iff.mp hf
  obtain ⟨hj', rfl⟩ := List.getElem?_eq_some_iff.mp hg
  exact (disjoint_iff _ _).mp (List.pairwise_iff_getElem.mp (fit_pairwise h) i j hi' hj' hij)

/-! The parts of `Config.wf`. -/

theorem wf_layout {c : Config} (h : c.wf = true) : c.layout.wf c.seqWidth = true := by
  simp only [Config.wf, Bool.and_eq_true] at h; tauto

theorem wf_ovl {c : Config} (h : c.wf = true) : c.ovl.wf c.otailLen = true := by
  simp only [Config.wf, Bool.and_eq_true] at h; tauto

theorem wf_shiFlags {c : Config} (h : c.wf = true) : flagPair c.masks.next c.masks.purge = true := by
  simp only [Config.wf, Bool.and_eq_true] at h; tauto

theorem wf_hsiFlags {c : Config} (h : c.wf = true) :
    flagPair c.masks.fetched c.masks.completed = true := by
  simp only [Config.wf, Bool.and_eq_true] at h; tauto

theorem wf_opCodes {c : Config} (h : c.wf = true) : c.opCodes.toList.Nodup := by
  simp only [Config.wf, Bool.and_eq_true, decide_eq_true_eq] at h; tauto

theorem wf_errCodes {c : Config} (h : c.wf = true) : c.errCodes.toList.Nodup := by
  simp only [Config.wf, Bool.and_eq_true, decide_eq_true_eq] at h; tauto

theorem wf_widths {c : Config} (h : c.wf = true) : c.layout.widthsFit c.seqWidth = true := by
  have := wf_layout h
  simp only [Layout.wf, Bool.and_eq_true] at this; tauto

theorem wf_ilkFields {c : Config} (h : c.wf = true) :
    fieldsFit 0 interlockLen c.layout.ilkFields = true := by
  have := wf_layout h
  simp only [Layout.wf, Bool.and_eq_true] at this; tauto

theorem wf_invFields {c : Config} (h : c.wf = true) :
    fieldsFit interlockLen c.layout.invariantLen c.layout.invFields = true := by
  have := wf_layout h
  simp only [Layout.wf, Bool.and_eq_true] at this; tauto

theorem wf_varFields {c : Config} (h : c.wf = true) :
    fieldsFit c.layout.invariantLen c.layout.size c.layout.varFields = true := by
  have := wf_layout h
  simp only [Layout.wf, Bool.and_eq_true] at this; tauto

/-- The widths, as the numbers they are. -/
theorem wf_lens {c : Config} (h : c.wf = true) :
    (c.layout.icrc.len = 2 ∧ c.layout.hsi.len = 1 ∧ c.layout.shi.len = 1) ∧
    (c.layout.preamble.len = 1 ∧ c.layout.xdir.len = 1 ∧ c.seqWidth ≤ 8 * c.layout.seq.len ∧
      1 ≤ c.layout.acfunc.len ∧ 1 ≤ c.layout.cmd.len ∧ 2 ≤ c.layout.opts.len ∧
      1 ≤ c.layout.sur.len ∧ 1 ≤ c.layout.psp.len ∧ c.layout.firmware.len = 8 ∧
      c.layout.asiv.len = 104) ∧
    (c.layout.asv.len = 64 ∧ c.layout.variantCrc.len = 2 ∧ 2 ≤ c.layout.retc.len ∧
      2 ≤ c.layout.attn.len ∧ 4 ≤ c.layout.progress.len ∧ 8 ≤ c.layout.completionTs.len ∧
      8 ≤ c.layout.dispatchTs.len) := by
  have := wf_widths h
  simp only [Layout.widthsFit, Bool.and_eq_true, beq_iff_eq, decide_eq_true_eq, fwivLen,
    asivRegionLen, asvLen] at this
  tauto

/-- The parts of a descriptor: the interlock word, the invariant part, the variant part. -/
theorem wf_parts {c : Config} (h : c.wf = true) :
    interlockLen ≤ c.layout.asiv.off ∧ c.layout.invariantLen = c.layout.asiv.off + 104 ∧
      c.layout.invariantLen ≤ c.layout.asv.off ∧ c.layout.asv.off + 64 ≤ c.layout.size := by
  have h1 := fit_bounds (wf_invFields h) c.layout.asiv (by simp [Layout.invFields])
  have h2 := fit_bounds (wf_varFields h) c.layout.asv (by simp [Layout.varFields])
  have h3 := wf_lens h
  refine ⟨h1.1, ?_, h2.1, ?_⟩
  · unfold Layout.invariantLen; omega
  · omega

/-- The three parts of a descriptor are inside it, and none is empty. -/
theorem wf_size {c : Config} (h : c.wf = true) :
    interlockLen < c.layout.invariantLen ∧ c.layout.invariantLen < c.layout.size := by
  have := wf_parts h
  omega

/-- The interlock fields fill the interlock word. -/
theorem wf_ilk {c : Config} (h : c.wf = true) :
    c.layout.icrc.off + 2 ≤ 4 ∧ c.layout.hsi.off < 4 ∧ c.layout.shi.off < 4 ∧
      (c.layout.hsi.off < c.layout.icrc.off ∨ c.layout.icrc.off + 2 ≤ c.layout.hsi.off) ∧
      (c.layout.shi.off < c.layout.icrc.off ∨ c.layout.icrc.off + 2 ≤ c.layout.shi.off) ∧
      c.layout.hsi.off ≠ c.layout.shi.off := by
  obtain ⟨⟨l1, l2, l3⟩, -, -⟩ := wf_lens h
  have hf := wf_ilkFields h
  have b1 := fit_bounds hf c.layout.icrc (by simp [Layout.ilkFields])
  have b2 := fit_bounds hf c.layout.hsi (by simp [Layout.ilkFields])
  have b3 := fit_bounds hf c.layout.shi (by simp [Layout.ilkFields])
  have d1 := fit_disjoint hf 0 1 c.layout.icrc c.layout.hsi (by decide) rfl rfl
  have d2 := fit_disjoint hf 0 2 c.layout.icrc c.layout.shi (by decide) rfl rfl
  have d3 := fit_disjoint hf 1 2 c.layout.hsi c.layout.shi (by decide) rfl rfl
  unfold interlockLen at *
  omega

/-- A field behind the interlock word. -/
theorem wf_inv_bounds {c : Config} (h : c.wf = true) (f : Field) (hf : f ∈ c.layout.invFields) :
    4 ≤ f.off ∧ f.off + f.len ≤ c.layout.invariantLen := fit_bounds (wf_invFields h) f hf

/-- A field of the variant part. -/
theorem wf_var_bounds {c : Config} (h : c.wf = true) (f : Field) (hf : f ∈ c.layout.varFields) :
    c.layout.invariantLen ≤ f.off ∧ f.off + f.len ≤ c.layout.size :=
  fit_bounds (wf_varFields h) f hf

/-- A reserved byte is in no field. -/
theorem reserved_iff (l : Layout) (o : Nat) :
    l.reserved o = true ↔ ∀ f ∈ l.fields, o < f.off ∨ f.off + f.len ≤ o := by
  rw [Layout.reserved, Bool.not_eq_true', List.any_eq_false]
  constructor <;> intro h f hf <;> have := h f hf <;> rw [covers_iff] at * <;> omega

theorem mem_reservedVariant (l : Layout) (o : Nat) :
    o ∈ l.reservedVariant ↔ o < l.size ∧ l.invariantLen ≤ o ∧ l.reserved o = true := by
  simp [Layout.reservedVariant]

/-! The flags of a byte. -/

/-- A byte's bit tested by a one-bit mask (R96). -/
theorem and_bit_ne_zero {n : Nat} (v : BitVec n) (i : Nat) (hi : i < n) :
    (v &&& BitVec.twoPow n i != 0) = v.getLsbD i := by
  rw [BitVec.and_twoPow]
  split
  · rename_i h
    rw [h]
    have : BitVec.twoPow n i ≠ 0 := by
      intro hc
      have := congrArg (fun b => b.getLsbD i) hc
      simp [hi] at this
    simpa using this
  · rename_i h
    simp only [Bool.not_eq_true] at h
    simp [h]

theorem isSingleBit_iff {n : Nat} (v : BitVec n) :
    isSingleBit v = true ↔ ∃ i, i < n ∧ v = BitVec.twoPow n i := by
  simp [isSingleBit]

/-- Two flags of a byte: setting one sets it and leaves the other. -/
theorem flagPair_spec (a b : Byte) (h : flagPair a b = true) (v : Byte) :
    hasFlag (v ||| a) a = true ∧ hasFlag (v ||| b) b = true ∧
      hasFlag (v ||| a) b = hasFlag v b ∧ hasFlag (v ||| b) a = hasFlag v a := by
  simp only [flagPair, Bool.and_eq_true, bne_iff_ne, ne_eq] at h
  obtain ⟨⟨h1, h2⟩, hne⟩ := h
  obtain ⟨i, hi, rfl⟩ := (isSingleBit_iff a).mp h1
  obtain ⟨j, hj, rfl⟩ := (isSingleBit_iff b).mp h2
  have hij : i ≠ j := fun h => hne (by rw [h])
  unfold hasFlag
  refine ⟨?_, ?_, ?_, ?_⟩
  · rw [and_bit_ne_zero _ _ hi]; simp [hi]
  · rw [and_bit_ne_zero _ _ hj]; simp [hj]
  · rw [and_bit_ne_zero _ _ hj, and_bit_ne_zero _ _ hj]; simp [BitVec.getLsbD_twoPow, hij]
  · rw [and_bit_ne_zero _ _ hi, and_bit_ne_zero _ _ hi]; simp [BitVec.getLsbD_twoPow, Ne.symm hij]

end Sys2Proof.Machine
end

