-- ==== Sys2Proof/Laws/Codes.lean ====
section
/-! SUPPORT. What the code tables give: the operation a code byte names (30_encoding.md rules R120, R122) and
the status a returned code names (60_exceptions.md rule R271). -/

namespace Sys2Proof.Machine

/-- The table of codes is the codes of all operations. -/
theorem opCodes_toList (k : OpCodes) : k.toList = allOpcodes.map (opcodeByte k) := rfl

/-- Every operation is in the list of all. -/
theorem mem_allOpcodes (o : Opcode) : o ∈ allOpcodes := by cases o <;> decide

/-- What a code byte names has that code. -/
theorem opcodeByte_of_opcodeOf {k : OpCodes} {b : Byte} {o : Opcode} (h : opcodeOf k b = some o) :
    opcodeByte k o = b := by
  simpa using List.find?_some h

/-- Where no two operations have one code, the code of an operation names it. -/
theorem opcodeOf_opcodeByte {k : OpCodes} (hk : k.toList.Nodup) (o : Opcode) :
    opcodeOf k (opcodeByte k o) = some o := by
  rw [opCodes_toList] at hk
  cases h : opcodeOf k (opcodeByte k o) with
  | none =>
    have := List.find?_eq_none.mp h o (mem_allOpcodes o)
    simp at this
  | some o' =>
    rw [List.inj_on_of_nodup_map hk (mem_allOpcodes o') (mem_allOpcodes o) (opcodeByte_of_opcodeOf h)]

/-- A code byte names nothing exactly where the table does not list it (R122). -/
theorem opcodeOf_eq_none (k : OpCodes) (b : Byte) : opcodeOf k b = none ↔ b ∉ k.toList := by
  rw [opCodes_toList]
  simp [opcodeOf, List.find?_eq_none]

/-- The ten statuses in the order of R271. -/
def allStatuses : List Status :=
  [.ok, .integrityError, .payloadTooLarge, .missingWorkspace, .notCompleted, .operationFailed,
    .stagingOverflow, .stagingUnderflow, .badOptionCombination, .badCommand]

/-- Where no two statuses have one code, the returned code tells the status. -/
theorem statusCode_injective {k : ErrorCodes} (hk : k.toList.Nodup) {a b : Status}
    (h : statusCode k a = statusCode k b) : a = b := by
  have hm : ∀ x, x ∈ allStatuses := by intro x; cases x <;> decide
  exact List.inj_on_of_nodup_map (f := statusCode k) (l := allStatuses) hk (hm a) (hm b) h

end Sys2Proof.Machine
end

