-- ==== Sys2Proof/Laws/Memory.lean ====
section
/-! SUPPORT. The laws of descriptor memory: what a read gives after a write, and that every memory
operation keeps the canonical form. -/

namespace Sys2Proof.Machine

theorem lookup_cell (x k : Nat) (v : Byte) (rest : Memory) :
    List.lookup x ((k, v) :: rest) = if x = k then some v else List.lookup x rest := by
  by_cases h : x = k
  · simp [h]
  · rw [List.lookup_cons, beq_false_of_ne h, if_neg h]

theorem lookup_insert (m : Memory) (a x : Nat) (b : Byte) :
    (m.insert a b).lookup x = if x = a then some b else List.lookup x m := by
  induction m with
  | nil => rw [Memory.insert, lookup_cell]
  | cons c rest ih =>
    obtain ⟨k, v⟩ := c
    unfold Memory.insert
    split
    · rw [lookup_cell]
    · split
      · rename_i _ he
        subst he
        rw [lookup_cell, lookup_cell]
        split <;> rfl
      · rename_i hlt hne
        rw [lookup_cell, lookup_cell, ih]
        by_cases hx : x = a
        · have hk : x ≠ k := by omega
          rw [if_neg hk, if_pos hx, if_pos hx]
        · simp only [if_neg hx]

theorem lookup_filter_ne (m : Memory) (a x : Nat) :
    List.lookup x (m.filter fun c => c.1 != a) = if x = a then none else List.lookup x m := by
  induction m with
  | nil => simp
  | cons c rest ih =>
    obtain ⟨k, v⟩ := c
    by_cases hk : k = a
    · subst hk
      have hf : ((k, v) :: rest).filter (fun c => c.1 != k) = rest.filter fun c => c.1 != k := by
        simp
      rw [hf, ih, lookup_cell]
      split <;> rfl
    · have hf : ((k, v) :: rest).filter (fun c => c.1 != a)
          = (k, v) :: rest.filter fun c => c.1 != a := by simp [hk]
      rw [hf, lookup_cell, lookup_cell, ih]
      by_cases hx : x = k
      · rw [if_pos hx, if_pos hx, if_neg (by omega)]
      · rw [if_neg hx, if_neg hx]

/-- A read after a write: the written byte at its address, every other byte as before. -/
theorem read_write (l : Layout) (m : Memory) (a x : Nat) (b : Byte) :
    (m.write l a b).read l x = if x = a then b else m.read l x := by
  unfold Memory.write Memory.read
  by_cases hu : Memory.unlisted l a = some b
  · rw [if_pos hu, lookup_filter_ne]
    by_cases h : x = a
    · subst h; simp [unlistedByte, hu]
    · simp [h]
  · rw [if_neg hu, lookup_insert]
    by_cases h : x = a <;> simp [h]

/-- A read after a store of a run of bytes: the stored byte inside the run, every other byte as before. -/
theorem read_writeBytes (l : Layout) (m : Memory) (a x : Nat) (bs : List Byte) :
    (m.writeBytes l a bs).read l x =
      if a ≤ x ∧ x < a + bs.length then byteAt bs (x - a) else m.read l x := by
  induction bs generalizing m a with
  | nil => simp [Memory.writeBytes]
  | cons b bs ih =>
    rw [Memory.writeBytes, ih, read_write]
    by_cases h1 : x = a
    · subst h1; simp [byteAt]
    · by_cases h2 : a + 1 ≤ x ∧ x < a + 1 + bs.length
      · have h3 : a ≤ x ∧ x < a + (b :: bs).length := by simp; omega
        rw [if_pos h2, if_pos h3, show x - a = (x - (a + 1)) + 1 by omega]
        simp [byteAt]
      · have h3 : ¬(a ≤ x ∧ x < a + (b :: bs).length) := by simp; omega
        rw [if_neg h2, if_neg h3, if_neg h1]

/-- A byte outside every run of a list of stores is as before. -/
theorem read_writeRuns_outside (l : Layout) (m : Memory) (a x : Nat) (rs : List (Nat × List Byte))
    (h : ∀ r ∈ rs, x < a + r.1 ∨ a + r.1 + r.2.length ≤ x) :
    (m.writeRuns l a rs).read l x = m.read l x := by
  induction rs generalizing m with
  | nil => rfl
  | cons r rs ih =>
    have hr := h r (by simp)
    rw [Memory.writeRuns, ih _ fun q hq => h q (by simp [hq]), read_writeBytes, if_neg (by omega)]

/-- A byte of a run that no later run of a list of stores touches. -/
theorem read_writeRuns_inside (l : Layout) (m : Memory) (a x : Nat) (before after : List (Nat × List Byte))
    (r : Nat × List Byte) (hin : a + r.1 ≤ x ∧ x < a + r.1 + r.2.length)
    (h : ∀ q ∈ after, x < a + q.1 ∨ a + q.1 + q.2.length ≤ x) :
    (m.writeRuns l a (before ++ r :: after)).read l x = byteAt r.2 (x - (a + r.1)) := by
  induction before generalizing m with
  | nil =>
    rw [List.nil_append, Memory.writeRuns, read_writeRuns_outside _ _ _ _ _ h, read_writeBytes,
      if_pos hin]
  | cons q qs ih => rw [List.cons_append, Memory.writeRuns, ih]

/-- A byte of a run of a list of stores no two of which share a byte. -/
theorem read_writeRuns_mem (l : Layout) (m : Memory) (a x : Nat) (rs : List (Nat × List Byte))
    (hd : rs.Pairwise fun p q => (runField p).disjoint (runField q) = true) (r : Nat × List Byte)
    (hr : r ∈ rs) (hin : a + r.1 ≤ x ∧ x < a + r.1 + r.2.length) :
    (m.writeRuns l a rs).read l x = byteAt r.2 (x - (a + r.1)) := by
  obtain ⟨before, after, rfl⟩ := List.append_of_mem hr
  refine read_writeRuns_inside l m a x before after r hin fun q hq => ?_
  have := (List.pairwise_cons.mp (List.pairwise_append.mp hd).2.1).1 q hq
  rw [disjoint_iff] at this
  simp only [runField] at this
  omega

@[simp] theorem length_readBytes (l : Layout) (m : Memory) (a n : Nat) :
    (m.readBytes l a n).length = n := by
  simp [Memory.readBytes]

theorem byteAt_readBytes (l : Layout) (m : Memory) (a n i : Nat) (h : i < n) :
    byteAt (m.readBytes l a n) i = m.read l (a + i) := by
  simp [Memory.readBytes, byteAt, List.getD_eq_getElem?_getD, h]

/-- A run of bytes depends only on the bytes at its addresses. -/
theorem readBytes_congr (l : Layout) (m m' : Memory) (a n : Nat)
    (h : ∀ x, a ≤ x → x < a + n → m'.read l x = m.read l x) :
    m'.readBytes l a n = m.readBytes l a n := by
  unfold Memory.readBytes
  apply List.map_congr_left
  intro i hi
  exact h _ (by omega) (by simpa using hi)

/-- Reading back a run of bytes just stored. -/
theorem readBytes_writeBytes_self (l : Layout) (m : Memory) (a : Nat) (bs : List Byte) :
    (m.writeBytes l a bs).readBytes l a bs.length = bs := by
  apply bytes_ext _ _ (by simp)
  intro i hi
  rw [length_readBytes] at hi
  rw [byteAt_readBytes _ _ _ _ _ hi, read_writeBytes, if_pos ⟨by omega, by omega⟩]
  congr 1; omega

/-! The canonical form. -/

theorem wf_iff (l : Layout) (m : Memory) :
    Memory.wf l m = true ↔
      m.Pairwise (fun x y => x.1 < y.1) ∧ ∀ c ∈ m, Memory.unlisted l c.1 ≠ some c.2 := by
  simp [Memory.wf]

theorem mem_insert_key (m : Memory) (a : Nat) (b : Byte) (c : Host.Cell)
    (h : c ∈ m.insert a b) : c = (a, b) ∨ c ∈ m := by
  induction m with
  | nil => simpa [Memory.insert] using h
  | cons k rest ih =>
    obtain ⟨k, v⟩ := k
    unfold Memory.insert at h
    split at h
    · simpa using h
    · split at h
      · simp only [List.mem_cons] at h ⊢; tauto
      · simp only [List.mem_cons] at h ⊢
        rcases h with h | h
        · tauto
        · rcases ih h with h | h <;> tauto

theorem pairwise_insert (m : Memory) (a : Nat) (b : Byte)
    (h : m.Pairwise fun x y => x.1 < y.1) : (m.insert a b).Pairwise fun x y => x.1 < y.1 := by
  induction m with
  | nil => simp [Memory.insert]
  | cons c rest ih =>
    obtain ⟨k, v⟩ := c
    rw [List.pairwise_cons] at h
    unfold Memory.insert
    split
    · rename_i hlt
      refine List.pairwise_cons.mpr ⟨?_, List.pairwise_cons.mpr h⟩
      intro y hy
      rcases List.mem_cons.mp hy with rfl | hy
      · exact hlt
      · exact Nat.lt_trans hlt (h.1 y hy)
    · split
      · rename_i _ he
        subst he
        exact List.pairwise_cons.mpr ⟨fun y hy => h.1 y hy, h.2⟩
      · rename_i hlt hne
        refine List.pairwise_cons.mpr ⟨?_, ih h.2⟩
        intro y hy
        rcases mem_insert_key rest a b y hy with rfl | hy
        · simp only; omega
        · exact h.1 y hy

/-- A write keeps the canonical form. -/
theorem wf_write (l : Layout) (m : Memory) (a : Nat) (b : Byte) (h : Memory.wf l m = true) :
    Memory.wf l (m.write l a b) = true := by
  rw [wf_iff] at h ⊢
  unfold Memory.write
  split
  · exact ⟨h.1.filter _, fun c hc => h.2 c (List.mem_filter.mp hc).1⟩
  · rename_i hu
    refine ⟨pairwise_insert m a b h.1, fun c hc => ?_⟩
    rcases mem_insert_key m a b c hc with rfl | hc
    · exact hu
    · exact h.2 c hc

/-- A store of a run of bytes keeps the canonical form. -/
theorem wf_writeBytes (l : Layout) (m : Memory) (a : Nat) (bs : List Byte) (h : Memory.wf l m = true) :
    Memory.wf l (m.writeBytes l a bs) = true := by
  induction bs generalizing m a with
  | nil => exact h
  | cons b bs ih => exact ih _ _ (wf_write l m a b h)

/-- A list of stores keeps the canonical form. -/
theorem wf_writeRuns (l : Layout) (m : Memory) (a : Nat) (rs : List (Nat × List Byte))
    (h : Memory.wf l m = true) :
    Memory.wf l (m.writeRuns l a rs) = true := by
  induction rs generalizing m with
  | nil => exact h
  | cons r rs ih => exact ih _ (wf_writeBytes l m _ _ h)

end Sys2Proof.Machine
end

