-- ==== Sys2Proof/Laws/State.lean ====
section
/-! SUPPORT. The small lemmas of every update of the state: what each leaves in each field, true by rfl. -/

namespace Sys2Proof.Machine

/-! A plain store. -/

@[simp] theorem memWrite_cfg (s : State) (d o : Nat) (bs : List Byte) :
    (s.memWrite d o bs).cfg = s.cfg := rfl

@[simp] theorem memWrite_mem (s : State) (d o : Nat) (bs : List Byte) :
    (s.memWrite d o bs).mem = s.mem.writeBytes s.layout (s.addr d o) bs := rfl

@[simp] theorem memWrite_descs (s : State) (d o : Nat) (bs : List Byte) :
    (s.memWrite d o bs).descs = s.descs := rfl

@[simp] theorem memWrite_fifo (s : State) (d o : Nat) (bs : List Byte) :
    (s.memWrite d o bs).fifo = s.fifo := rfl

@[simp] theorem memWrite_stream (s : State) (d o : Nat) (bs : List Byte) :
    (s.memWrite d o bs).stream = s.stream := rfl

@[simp] theorem memWrite_issuer (s : State) (d o : Nat) (bs : List Byte) :
    (s.memWrite d o bs).issuer = s.issuer := rfl

@[simp] theorem memWrite_answer (s : State) (d o : Nat) (bs : List Byte) :
    (s.memWrite d o bs).answer = s.answer := rfl

@[simp] theorem memWrite_draws (s : State) (d o : Nat) (bs : List Byte) :
    (s.memWrite d o bs).draws = s.draws := rfl

@[simp] theorem memWrite_addr (s : State) (d o : Nat) (bs : List Byte) (e p : Nat) :
    (s.memWrite d o bs).addr e p = s.addr e p := rfl

/-! Several plain stores. -/

@[simp] theorem memWriteRuns_cfg (s : State) (d : Nat) (rs : List (Nat × List Byte)) :
    (s.memWriteRuns d rs).cfg = s.cfg := rfl

@[simp] theorem memWriteRuns_mem (s : State) (d : Nat) (rs : List (Nat × List Byte)) :
    (s.memWriteRuns d rs).mem = s.mem.writeRuns s.layout (s.addr d 0) rs := rfl

@[simp] theorem memWriteRuns_descs (s : State) (d : Nat) (rs : List (Nat × List Byte)) :
    (s.memWriteRuns d rs).descs = s.descs := rfl

@[simp] theorem memWriteRuns_fifo (s : State) (d : Nat) (rs : List (Nat × List Byte)) :
    (s.memWriteRuns d rs).fifo = s.fifo := rfl

@[simp] theorem memWriteRuns_stream (s : State) (d : Nat) (rs : List (Nat × List Byte)) :
    (s.memWriteRuns d rs).stream = s.stream := rfl

@[simp] theorem memWriteRuns_issuer (s : State) (d : Nat) (rs : List (Nat × List Byte)) :
    (s.memWriteRuns d rs).issuer = s.issuer := rfl

@[simp] theorem memWriteRuns_answer (s : State) (d : Nat) (rs : List (Nat × List Byte)) :
    (s.memWriteRuns d rs).answer = s.answer := rfl

@[simp] theorem memWriteRuns_draws (s : State) (d : Nat) (rs : List (Nat × List Byte)) :
    (s.memWriteRuns d rs).draws = s.draws := rfl

@[simp] theorem memWriteRuns_addr (s : State) (d : Nat) (rs : List (Nat × List Byte)) (e p : Nat) :
    (s.memWriteRuns d rs).addr e p = s.addr e p := rfl

/-! The atomic store. -/

@[simp] theorem atomicWrite32_cfg (s : State) (d : Nat) (w : Interlock) :
    (s.atomicWrite32 d w).cfg = s.cfg := rfl

@[simp] theorem atomicWrite32_mem (s : State) (d : Nat) (w : Interlock) :
    (s.atomicWrite32 d w).mem = s.mem.writeBytes s.layout (s.addr d 0) (w.bytes s.layout) := rfl

@[simp] theorem atomicWrite32_descs (s : State) (d : Nat) (w : Interlock) :
    (s.atomicWrite32 d w).descs = s.descs := rfl

@[simp] theorem atomicWrite32_fifo (s : State) (d : Nat) (w : Interlock) :
    (s.atomicWrite32 d w).fifo = s.fifo := rfl

@[simp] theorem atomicWrite32_stream (s : State) (d : Nat) (w : Interlock) :
    (s.atomicWrite32 d w).stream = s.stream := rfl

@[simp] theorem atomicWrite32_issuer (s : State) (d : Nat) (w : Interlock) :
    (s.atomicWrite32 d w).issuer = s.issuer := rfl

@[simp] theorem atomicWrite32_answer (s : State) (d : Nat) (w : Interlock) :
    (s.atomicWrite32 d w).answer = s.answer := rfl

@[simp] theorem atomicWrite32_draws (s : State) (d : Nat) (w : Interlock) :
    (s.atomicWrite32 d w).draws = s.draws := rfl

@[simp] theorem atomicWrite32_addr (s : State) (d : Nat) (w : Interlock) (e p : Nat) :
    (s.atomicWrite32 d w).addr e p = s.addr e p := rfl

/-! The atomic OR. -/

@[simp] theorem atomicOr32_cfg (s : State) (d : Nat) (m : Interlock) :
    (s.atomicOr32 d m).cfg = s.cfg := rfl

@[simp] theorem atomicOr32_mem (s : State) (d : Nat) (m : Interlock) :
    (s.atomicOr32 d m).mem =
      s.mem.writeBytes s.layout (s.addr d 0) (((s.atomicRead32 d).or m).bytes s.layout) := rfl

@[simp] theorem atomicOr32_descs (s : State) (d : Nat) (m : Interlock) :
    (s.atomicOr32 d m).descs = s.descs := rfl

@[simp] theorem atomicOr32_fifo (s : State) (d : Nat) (m : Interlock) :
    (s.atomicOr32 d m).fifo = s.fifo := rfl

@[simp] theorem atomicOr32_stream (s : State) (d : Nat) (m : Interlock) :
    (s.atomicOr32 d m).stream = s.stream := rfl

@[simp] theorem atomicOr32_issuer (s : State) (d : Nat) (m : Interlock) :
    (s.atomicOr32 d m).issuer = s.issuer := rfl

@[simp] theorem atomicOr32_answer (s : State) (d : Nat) (m : Interlock) :
    (s.atomicOr32 d m).answer = s.answer := rfl

@[simp] theorem atomicOr32_draws (s : State) (d : Nat) (m : Interlock) :
    (s.atomicOr32 d m).draws = s.draws := rfl

@[simp] theorem atomicOr32_addr (s : State) (d : Nat) (m : Interlock) (e p : Nat) :
    (s.atomicOr32 d m).addr e p = s.addr e p := rfl

/-! A descriptor's record. -/

@[simp] theorem setDesc_cfg (s : State) (d : Nat) (x : Desc) :
    (s.setDesc d x).cfg = s.cfg := rfl

@[simp] theorem setDesc_mem (s : State) (d : Nat) (x : Desc) :
    (s.setDesc d x).mem = s.mem := rfl

@[simp] theorem setDesc_descs (s : State) (d : Nat) (x : Desc) :
    (s.setDesc d x).descs = s.descs.set d x := rfl

@[simp] theorem setDesc_fifo (s : State) (d : Nat) (x : Desc) :
    (s.setDesc d x).fifo = s.fifo := rfl

@[simp] theorem setDesc_stream (s : State) (d : Nat) (x : Desc) :
    (s.setDesc d x).stream = s.stream := rfl

@[simp] theorem setDesc_issuer (s : State) (d : Nat) (x : Desc) :
    (s.setDesc d x).issuer = s.issuer := rfl

@[simp] theorem setDesc_answer (s : State) (d : Nat) (x : Desc) :
    (s.setDesc d x).answer = s.answer := rfl

@[simp] theorem setDesc_draws (s : State) (d : Nat) (x : Desc) :
    (s.setDesc d x).draws = s.draws := rfl

@[simp] theorem setDesc_addr (s : State) (d : Nat) (x : Desc) (e p : Nat) :
    (s.setDesc d x).addr e p = s.addr e p := rfl

/-! A draw. -/

@[simp] theorem nextDraw_cfg (s : State) :
    (s.nextDraw).cfg = s.cfg := rfl

@[simp] theorem nextDraw_mem (s : State) :
    (s.nextDraw).mem = s.mem := rfl

@[simp] theorem nextDraw_descs (s : State) :
    (s.nextDraw).descs = s.descs := rfl

@[simp] theorem nextDraw_fifo (s : State) :
    (s.nextDraw).fifo = s.fifo := rfl

@[simp] theorem nextDraw_stream (s : State) :
    (s.nextDraw).stream = s.stream := rfl

@[simp] theorem nextDraw_issuer (s : State) :
    (s.nextDraw).issuer = s.issuer := rfl

@[simp] theorem nextDraw_answer (s : State) :
    (s.nextDraw).answer = s.answer := rfl

@[simp] theorem nextDraw_draws (s : State) :
    (s.nextDraw).draws = s.draws + 1 := rfl

@[simp] theorem nextDraw_addr (s : State) (e p : Nat) :
    (s.nextDraw).addr e p = s.addr e p := rfl

/-! Taking a request. -/

@[simp] theorem take_cfg (s : State) (r : Request) (rest : List Request) :
    (s.take r rest).cfg = s.cfg := rfl

@[simp] theorem take_mem (s : State) (r : Request) (rest : List Request) :
    (s.take r rest).mem = s.mem := rfl

@[simp] theorem take_descs (s : State) (r : Request) (rest : List Request) :
    (s.take r rest).descs = s.descs := rfl

@[simp] theorem take_fifo (s : State) (r : Request) (rest : List Request) :
    (s.take r rest).fifo = s.fifo := rfl

@[simp] theorem take_stream (s : State) (r : Request) (rest : List Request) :
    (s.take r rest).stream = rest := rfl

@[simp] theorem take_issuer (s : State) (r : Request) (rest : List Request) :
    (s.take r rest).issuer = r.agent := rfl

@[simp] theorem take_answer (s : State) (r : Request) (rest : List Request) :
    (s.take r rest).answer = s.answer := rfl

@[simp] theorem take_draws (s : State) (r : Request) (rest : List Request) :
    (s.take r rest).draws = s.draws := rfl

@[simp] theorem take_addr (s : State) (r : Request) (rest : List Request) (e p : Nat) :
    (s.take r rest).addr e p = s.addr e p := rfl

/-! The barriers are the identity (log entry 9). -/

@[simp] theorem release_eq (s : State) : s.release = s := rfl

@[simp] theorem acquire_eq (s : State) : s.acquire = s := rfl

/-! The observation of a completion. -/

theorem observeDone_eq (s : State) (d : Nat) (x : Desc) (h : s.descs[d]? = some x) :
    s.observeDone d x = s.setDesc d { x with swObsDone := x.swObsDone || x.fmt } := by
  unfold State.observeDone
  by_cases hf : x.fmt
  · simp [hf]
  · have hx : ({ x with swObsDone := x.swObsDone || x.fmt } : Desc) = x := by
      cases x; simp_all
    obtain ⟨hd, hg⟩ := List.getElem?_eq_some_iff.mp h
    have hset : s.descs.set d x = s.descs := by rw [← hg]; exact List.set_getElem_self hd
    rw [hx, if_neg hf]
    simp [State.setDesc, hset]

@[simp] theorem observeDone_cfg (s : State) (d : Nat) (x : Desc) :
    (s.observeDone d x).cfg = s.cfg := by
  unfold State.observeDone; split <;> rfl

@[simp] theorem observeDone_mem (s : State) (d : Nat) (x : Desc) :
    (s.observeDone d x).mem = s.mem := by
  unfold State.observeDone; split <;> rfl

@[simp] theorem observeDone_fifo (s : State) (d : Nat) (x : Desc) :
    (s.observeDone d x).fifo = s.fifo := by
  unfold State.observeDone; split <;> rfl

@[simp] theorem observeDone_stream (s : State) (d : Nat) (x : Desc) :
    (s.observeDone d x).stream = s.stream := by
  unfold State.observeDone; split <;> rfl

@[simp] theorem observeDone_issuer (s : State) (d : Nat) (x : Desc) :
    (s.observeDone d x).issuer = s.issuer := by
  unfold State.observeDone; split <;> rfl

@[simp] theorem observeDone_answer (s : State) (d : Nat) (x : Desc) :
    (s.observeDone d x).answer = s.answer := by
  unfold State.observeDone; split <;> rfl

@[simp] theorem observeDone_draws (s : State) (d : Nat) (x : Desc) :
    (s.observeDone d x).draws = s.draws := by
  unfold State.observeDone; split <;> rfl

@[simp] theorem observeDone_addr (s : State) (d : Nat) (x : Desc) (e p : Nat) :
    (s.observeDone d x).addr e p = s.addr e p := by
  unfold State.addr State.layout
  rw [observeDone_cfg]

/-! Delivery. -/

@[simp] theorem give_eq (s : State) (st : Status) (p : Payload) :
    s.give st p = .next { s with answer := some ⟨st, p⟩ } := rfl

@[simp] theorem fail_eq (s : State) (e : Status) :
    s.fail e = .next { s with answer := some ⟨e, .empty⟩ } := rfl

/-- Giving an answer leaves a next state that differs in the answer only. -/
theorem give_eq_next_iff (s t : State) (st : Status) (p : Payload) :
    s.give st p = .next t ↔ t = { s with answer := some ⟨st, p⟩ } := by
  simp [eq_comm]

end Sys2Proof.Machine
end

