-- ==== Sys2Proof/Laws/Interlock.lean ====
section
/-! SUPPORT. The interlock word after each kind of store, and the laws that name the OR of two interlock
values. -/

namespace Sys2Proof.Machine

/-- An address inside descriptor `d` tells its place. -/
theorem addr_eq_iff (l : Layout) (d e o p : Nat) (ho : o < l.size) (hp : p < l.size) :
    descAddr l d o = descAddr l e p ↔ d = e ∧ o = p := by
  unfold descAddr
  constructor
  · intro h
    have hd : d = e := by
      have h1 := congrArg (· / l.size) h
      simpa [Nat.mul_add_div (Nat.lt_of_le_of_lt (Nat.zero_le _) ho), Nat.div_eq_of_lt ho,
        Nat.div_eq_of_lt hp] using h1
    subst hd
    exact ⟨rfl, by omega⟩
  · rintro ⟨rfl, rfl⟩; rfl

/-- An address of a descriptor lies in a run of another descriptor's, or of its own, only as its offset
does. -/
theorem addr_in_run (l : Layout) (d e o n p : Nat) (hp : p < l.size) (h : o + n ≤ l.size) :
    (descAddr l d o ≤ descAddr l e p ∧ descAddr l e p < descAddr l d o + n) ↔
      e = d ∧ o ≤ p ∧ p < o + n := by
  unfold descAddr
  constructor
  · rintro ⟨h1, h2⟩
    have hd : e = d := by
      rcases Nat.lt_trichotomy e d with hlt | heq | hgt
      · have : l.size * (e + 1) ≤ l.size * d := Nat.mul_le_mul_left _ hlt
        rw [Nat.mul_add] at this
        omega
      · exact heq
      · have : l.size * (d + 1) ≤ l.size * e := Nat.mul_le_mul_left _ hgt
        rw [Nat.mul_add] at this
        omega
    subst hd
    exact ⟨rfl, by omega, by omega⟩
  · rintro ⟨rfl, h1, h2⟩
    omega

/-- A byte after a plain store into a descriptor. -/
theorem byte_memWrite (s : State) (d o : Nat) (bs : List Byte) (e p : Nat) (hp : p < s.layout.size)
    (h : o + bs.length ≤ s.layout.size) :
    (s.memWrite d o bs).byte e p =
      if e = d ∧ o ≤ p ∧ p < o + bs.length then byteAt bs (p - o) else s.byte e p := by
  show Memory.read s.layout (s.mem.writeBytes s.layout (s.addr d o) bs) (s.addr e p) = _
  rw [read_writeBytes]
  unfold State.addr
  by_cases hc : e = d ∧ o ≤ p ∧ p < o + bs.length
  · rw [if_pos ((addr_in_run _ _ _ _ _ _ hp h).mpr hc), if_pos hc]
    obtain ⟨rfl, h1, h2⟩ := hc
    congr 1; unfold descAddr; omega
  · rw [if_neg hc, if_neg (fun hh => hc ((addr_in_run _ _ _ _ _ _ hp h).mp hh))]
    rfl

/-- A store leaves every byte of memory outside its run. -/
theorem read_memWrite_outside (s : State) (d o : Nat) (bs : List Byte) (a : Nat)
    (h : a < s.addr d o ∨ s.addr d o + bs.length ≤ a) : (s.memWrite d o bs).read a = s.read a := by
  show Memory.read s.layout (s.mem.writeBytes s.layout (s.addr d o) bs) a = _
  rw [read_writeBytes, if_neg (by omega)]
  rfl

/-- Several stores leave every byte of memory outside their runs. -/
theorem read_memWriteRuns_outside (s : State) (d : Nat) (rs : List (Nat × List Byte)) (a : Nat)
    (h : ∀ r ∈ rs, a < s.addr d 0 + r.1 ∨ s.addr d 0 + r.1 + r.2.length ≤ a) :
    (s.memWriteRuns d rs).read a = s.read a :=
  read_writeRuns_outside s.layout s.mem (s.addr d 0) a rs h

/-- A byte of a run read from a descriptor. -/
theorem byteAt_memRead (s : State) (d o n i : Nat) (h : i < n) :
    byteAt (s.memRead d o n) i = s.byte d (o + i) := by
  unfold State.memRead
  rw [byteAt_readBytes _ _ _ _ _ h]
  unfold State.byte State.read State.addr descAddr
  rw [Nat.add_assoc]

@[simp] theorem length_memRead (s : State) (d o n : Nat) : (s.memRead d o n).length = n :=
  length_readBytes ..

/-- A run of bytes of a descriptor, byte by byte. -/
theorem memRead_eq_map (s : State) (d o n : Nat) :
    s.memRead d o n = (List.range n).map fun i => s.byte d (o + i) := by
  simp [State.memRead, Memory.readBytes, State.byte, State.read, State.addr, descAddr, Nat.add_assoc]

/-- A run of bytes of a descriptor depends only on those bytes. -/
theorem memRead_congr (s t : State) (d e o n : Nat)
    (h : ∀ p, o ≤ p → p < o + n → t.byte e p = s.byte d p) : t.memRead e o n = s.memRead d o n := by
  refine bytes_ext _ _ (by simp) fun i hi => ?_
  rw [length_memRead] at hi
  rw [byteAt_memRead _ _ _ _ _ hi, byteAt_memRead _ _ _ _ _ hi]
  exact h _ (by omega) (by omega)

/-- The interlock word depends only on the first four bytes. -/
theorem atomicRead32_congr (s t : State) (d : Nat) (hc : t.cfg = s.cfg)
    (h : ∀ p, p < 4 → t.byte d p = s.byte d p) : t.atomicRead32 d = s.atomicRead32 d := by
  unfold State.atomicRead32 State.layout
  rw [hc, memRead_congr s t d d 0 interlockLen fun p _ hp => h p (by unfold interlockLen at hp; omega)]

/-- The interlock word after a plain store that does not touch it. -/
theorem atomicRead32_memWrite (s : State) (d o : Nat) (bs : List Byte) (e : Nat)
    (h : o + bs.length ≤ s.layout.size) (h4 : interlockLen ≤ o) :
    (s.memWrite d o bs).atomicRead32 e = s.atomicRead32 e := by
  unfold interlockLen at h4
  refine atomicRead32_congr _ _ _ rfl fun p hp => ?_
  rw [byte_memWrite s d o bs e p (by omega) h, if_neg (by omega)]

@[simp] theorem length_interlock_bytes (l : Layout) (w : Interlock) :
    (w.bytes l).length = interlockLen := length_layOut ..

/-- A byte after an atomic store. -/
theorem byte_atomicWrite32 (s : State) (d : Nat) (w : Interlock) (e p : Nat)
    (hp : p < s.layout.size) (h4 : interlockLen ≤ s.layout.size) :
    (s.atomicWrite32 d w).byte e p =
      if e = d ∧ p < 4 then byteAt (w.bytes s.layout) p else s.byte e p := by
  unfold State.atomicWrite32
  rw [byte_memWrite _ _ _ _ _ _ hp (by simpa using h4)]
  simp [interlockLen]

/-- The bytes of an interlock value, field by field (R26). -/
theorem byteAt_interlock_bytes {c : Config} (hc : c.wf = true) (w : Interlock) :
    byteAt (w.bytes c.layout) c.layout.icrc.off = byteAt (toBe16 w.icrc) 0 ∧
    byteAt (w.bytes c.layout) (c.layout.icrc.off + 1) = byteAt (toBe16 w.icrc) 1 ∧
    byteAt (w.bytes c.layout) c.layout.hsi.off = w.hsi ∧
    byteAt (w.bytes c.layout) c.layout.shi.off = w.shi := by
  have hi := wf_ilk hc
  have icrc : ∀ i, i < 2 → byteAt (w.bytes c.layout) (c.layout.icrc.off + i) = byteAt (toBe16 w.icrc) i := by
    intro i hi2
    have := byteAt_layOut_inside interlockLen [] [(c.layout.hsi.off, [w.hsi]), (c.layout.shi.off, [w.shi])]
      (c.layout.icrc.off, toBe16 w.icrc) (c.layout.icrc.off + i) (by unfold interlockLen; omega)
      (by simp only [length_toBe16]; omega)
      (by
        intro g hg
        simp only [List.mem_cons, List.not_mem_nil, or_false] at hg
        rcases hg with rfl | rfl <;> simp <;> omega)
    simpa [Interlock.bytes] using this
  refine ⟨icrc 0 (by decide), icrc 1 (by decide), ?_, ?_⟩
  · have := byteAt_layOut_inside interlockLen [(c.layout.icrc.off, toBe16 w.icrc)] [(c.layout.shi.off, [w.shi])]
      (c.layout.hsi.off, [w.hsi]) c.layout.hsi.off (by unfold interlockLen; omega) (by simp)
      (by
        intro g hg
        simp only [List.mem_cons, List.not_mem_nil, or_false] at hg
        subst hg; simp; omega)
    simpa [Interlock.bytes, byteAt] using this
  · have := byteAt_layOut_inside interlockLen
      [(c.layout.icrc.off, toBe16 w.icrc), (c.layout.hsi.off, [w.hsi])] []
      (c.layout.shi.off, [w.shi]) c.layout.shi.off (by unfold interlockLen; omega) (by simp) (by simp)
    simpa [Interlock.bytes, byteAt] using this

/-- An interlock value is what its bytes hold (R68). -/
theorem ofBytes_bytes {c : Config} (hc : c.wf = true) (w : Interlock) :
    Interlock.ofBytes c.layout (w.bytes c.layout) = w := by
  obtain ⟨h0, h1, h2, h3⟩ := byteAt_interlock_bytes hc w
  unfold Interlock.ofBytes be16At
  rw [h0, h1, h2, h3, be16_toBe16]

/-- The bytes of an interlock word are those it was read from: the three fields fill the word (R68). -/
theorem byteAt_bytes_ofBytes {c : Config} (hc : c.wf = true) (b : List Byte) (i : Nat) (hi : i < 4) :
    byteAt ((Interlock.ofBytes c.layout b).bytes c.layout) i = byteAt b i := by
  obtain ⟨h0, h1, h2, h3⟩ := byteAt_interlock_bytes hc (Interlock.ofBytes c.layout b)
  have hk := wf_ilk hc
  have ht : toBe16 (Interlock.ofBytes c.layout b).icrc
      = [byteAt b c.layout.icrc.off, byteAt b (c.layout.icrc.off + 1)] := toBe16_be16 _ _
  rw [ht] at h0 h1
  have : i = c.layout.icrc.off ∨ i = c.layout.icrc.off + 1 ∨ i = c.layout.hsi.off ∨
      i = c.layout.shi.off := by omega
  rcases this with rfl | rfl | rfl | rfl
  · exact h0
  · exact h1
  · exact h2
  · exact h3

/-- An atomic store is read back whole, and no other descriptor's word changes. -/
theorem atomicRead32_atomicWrite32 (s : State) (hc : s.cfg.wf = true) (d : Nat) (w : Interlock)
    (e : Nat) :
    (s.atomicWrite32 d w).atomicRead32 e = if e = d then w else s.atomicRead32 e := by
  have hs := wf_size hc
  have h4 : interlockLen ≤ s.layout.size := Nat.le_of_lt (Nat.lt_trans hs.1 hs.2)
  have key : ∀ p, p < 4 → (s.atomicWrite32 d w).byte e p
      = if e = d then byteAt (w.bytes s.layout) p else s.byte e p := by
    intro p hp
    rw [byte_atomicWrite32 _ _ _ _ _ (by unfold interlockLen at h4; omega) h4]
    simp [hp]
  by_cases h : e = d
  · rw [if_pos h]
    have hb : (s.atomicWrite32 d w).memRead e 0 interlockLen = w.bytes s.layout := by
      refine bytes_ext _ _ (by simp) fun i hi => ?_
      rw [length_memRead] at hi
      rw [byteAt_memRead _ _ _ _ _ hi, Nat.zero_add, key i hi, if_pos h]
    show Interlock.ofBytes s.layout _ = w
    rw [hb]
    exact ofBytes_bytes hc w
  · rw [if_neg h]
    exact atomicRead32_congr _ _ _ rfl fun p hp => by rw [key p hp, if_neg h]

/-- The word after an atomic OR. -/
theorem atomicRead32_atomicOr32 (s : State) (hc : s.cfg.wf = true) (d : Nat) (m : Interlock)
    (e : Nat) :
    (s.atomicOr32 d m).atomicRead32 e =
      if e = d then (s.atomicRead32 d).or m else s.atomicRead32 e :=
  atomicRead32_atomicWrite32 _ hc _ _ _

/-- A byte outside the interlock word is untouched by an atomic OR. -/
theorem byte_atomicOr32_of_ge (s : State) (d : Nat) (m : Interlock) (e p : Nat)
    (hp : p < s.layout.size) (h4 : 4 ≤ p) : (s.atomicOr32 d m).byte e p = s.byte e p := by
  unfold State.atomicOr32
  rw [byte_atomicWrite32 _ _ _ _ _ hp (by unfold interlockLen; omega), if_neg (by omega)]

/-- An address outside the interlock word of `d` is untouched by an atomic store to it. -/
theorem read_atomicWrite32_of_outside (s : State) (d : Nat) (w : Interlock) (a : Nat)
    (h : a < s.addr d 0 ∨ s.addr d 0 + 4 ≤ a) : (s.atomicWrite32 d w).read a = s.read a := by
  show Memory.read s.layout (s.mem.writeBytes s.layout (s.addr d 0) _) a = _
  rw [read_writeBytes, length_interlock_bytes, if_neg (by unfold interlockLen; omega)]
  rfl

/-- `AtomicOr32` with a mask of flags only keeps the CRC (R190). -/
theorem or_icrc (w m : Interlock) (h : m.icrc = 0) : (w.or m).icrc = w.icrc := by
  simp [Interlock.or, h]

/-- The interlock word holds the first four bytes of its descriptor (R68). -/
theorem byteAt_atomicRead32 (s : State) (hc : s.cfg.wf = true) (d i : Nat) (hi : i < 4) :
    byteAt ((s.atomicRead32 d).bytes s.layout) i = s.byte d i := by
  have := byteAt_bytes_ofBytes hc (s.memRead d 0 interlockLen) i hi
  rwa [byteAt_memRead s d 0 interlockLen i hi, Nat.zero_add] at this

/-- The bytes an atomic OR stores, one by one: a byte of a flag field is ORed, the others stay. -/
theorem byteAt_or_bytes (s : State) (hc : s.cfg.wf = true) (d : Nat) (m : Interlock)
    (hm : m.icrc = 0) (i : Nat) (hi : i < 4) :
    byteAt (((s.atomicRead32 d).or m).bytes s.layout) i =
      if i = s.layout.hsi.off then s.byte d i ||| m.hsi
      else if i = s.layout.shi.off then s.byte d i ||| m.shi else s.byte d i := by
  obtain ⟨h0, h1, h2, h3⟩ := byteAt_interlock_bytes hc ((s.atomicRead32 d).or m)
  obtain ⟨g0, g1, g2, g3⟩ := byteAt_interlock_bytes hc (s.atomicRead32 d)
  have back := byteAt_atomicRead32 s hc d
  have hk := wf_ilk hc
  rw [or_icrc _ _ hm] at h0 h1
  unfold State.layout at *
  have : i = s.cfg.layout.icrc.off ∨ i = s.cfg.layout.icrc.off + 1 ∨ i = s.cfg.layout.hsi.off ∨
      i = s.cfg.layout.shi.off := by omega
  rcases this with rfl | rfl | rfl | rfl
  · rw [if_neg (by omega), if_neg (by omega), h0, ← g0, back _ hi]
  · rw [if_neg (by omega), if_neg (by omega), h1, ← g1, back _ hi]
  · rw [if_pos rfl, h2, ← back _ hi, g2]; rfl
  · rw [if_neg (by omega), if_pos rfl, h3, ← back _ hi, g3]; rfl

/-- Where an operation leaves the OR of the interlock word with a mask of flags, a byte of a flag field is
ORed and the others stay (R69, R77). -/
theorem byte_of_atomicRead32_or (s t : State) (hw : s.cfg.wf = true) (hc : t.cfg = s.cfg) (d : Nat)
    (m : Interlock) (hm : m.icrc = 0) (h : t.atomicRead32 d = (s.atomicRead32 d).or m) (i : Nat)
    (hi : i < 4) :
    t.byte d i = if i = s.layout.hsi.off then s.byte d i ||| m.hsi
      else if i = s.layout.shi.off then s.byte d i ||| m.shi else s.byte d i := by
  rw [← byteAt_atomicRead32 t (hc ▸ hw) d i hi, h, ← byteAt_or_bytes s hw d m hm i hi]
  unfold State.layout
  rw [hc]

/-- An atomic OR with a mask of flags only changes the flag bytes its mask has a bit in (R69). -/
theorem read_atomicOr32 (s : State) (hc : s.cfg.wf = true) (d : Nat) (m : Interlock)
    (hm : m.icrc = 0) (a : Nat)
    (h2 : a = s.addr d s.layout.hsi.off → m.hsi = 0) (h3 : a = s.addr d s.layout.shi.off → m.shi = 0) :
    (s.atomicOr32 d m).read a = s.read a := by
  show Memory.read s.layout (s.mem.writeBytes s.layout (s.addr d 0) _) a = _
  rw [read_writeBytes]
  split
  · rename_i h
    obtain ⟨h1, h4⟩ := h
    rw [length_interlock_bytes] at h4
    have hz : s.addr d 0 = s.layout.size * d := rfl
    have hi : a - s.addr d 0 < 4 := by unfold interlockLen at h4; omega
    have ha : a = s.addr d (a - s.addr d 0) := by unfold State.addr descAddr at *; omega
    rw [byteAt_or_bytes s hc d m hm _ hi]
    have hb : s.byte d (a - s.addr d 0) = s.read a := by unfold State.byte; rw [← ha]
    split
    · rename_i he
      rw [h2 (by rw [ha, he]), hb]
      exact BitVec.or_zero
    · split
      · rename_i he
        rw [h3 (by rw [ha, he]), hb]
        exact BitVec.or_zero
      · exact hb
  · rfl

/-- The word of the OR is the OR of the words (R69). -/
theorem word_or {c : Config} (hc : c.wf = true) (w m : Interlock) :
    (w.or m).word c.layout = w.word c.layout ||| m.word c.layout := by
  have hk := wf_ilk hc
  obtain ⟨a0, a1, a2, a3⟩ := byteAt_interlock_bytes hc (w.or m)
  obtain ⟨w0, w1, w2, w3⟩ := byteAt_interlock_bytes hc w
  obtain ⟨m0, m1, m2, m3⟩ := byteAt_interlock_bytes hc m
  have hb : ∀ i, i < 4 → byteAt ((w.or m).bytes c.layout) i =
      byteAt (w.bytes c.layout) i ||| byteAt (m.bytes c.layout) i := by
    intro i hi
    have : i = c.layout.icrc.off ∨ i = c.layout.icrc.off + 1 ∨ i = c.layout.hsi.off ∨
        i = c.layout.shi.off := by omega
    rcases this with rfl | rfl | rfl | rfl
    · rw [a0, w0, m0, byteAt_toBe16 _ _ (by decide), byteAt_toBe16 _ _ (by decide),
        byteAt_toBe16 _ _ (by decide)]
      exact BitVec.extractLsb'_or ..
    · rw [a1, w1, m1, byteAt_toBe16 _ _ (by decide), byteAt_toBe16 _ _ (by decide),
        byteAt_toBe16 _ _ (by decide)]
      exact BitVec.extractLsb'_or ..
    · rw [a2, w2, m2]; rfl
    · rw [a3, w3, m3]; rfl
  unfold Interlock.word be32At be32 be16
  rw [hb 0 (by decide), hb _ (by decide), hb _ (by decide), hb _ (by decide)]
  apply BitVec.eq_of_getLsbD_eq
  intro i hi
  simp only [BitVec.getLsbD_append, BitVec.getLsbD_or]
  repeat' split
  all_goals rfl

/-- The four bytes an atomic access stores are `to_be32` of the word (R68). -/
theorem bytes_eq_toBe32 (l : Layout) (w : Interlock) : w.bytes l = toBe32 (w.word l) := by
  refine bytes_ext _ _ (by simp [interlockLen]) fun i hi => ?_
  rw [length_interlock_bytes] at hi
  unfold Interlock.word be32At
  rw [toBe32_be32]
  unfold interlockLen at hi
  interval_cases i <;> rfl

/-- In the default `LAYOUT` the word has `icrc` in bits 31 to 16, `hsi` in 15 to 8, `shi` in 7 to 0 (R94). -/
theorem word_default (w : Interlock) : w.word Layout.default = w.icrc ++ be16 w.hsi w.shi := by
  have h : be16 (byteAt (toBe16 w.icrc) 0) (byteAt (toBe16 w.icrc) 1) = w.icrc := be16_toBe16 _
  exact congrArg (fun v : U16 => (v ++ be16 w.hsi w.shi : U32)) h

/-! Flags after an OR. -/

section
variable {c : Config} (hc : c.wf = true) (w : Interlock)
include hc

theorem isNext_or_maskNext : (w.or (maskNext c.masks)).isNext c.masks = true :=
  (flagPair_spec _ _ (wf_shiFlags hc) w.shi).1

theorem isPurged_or_maskNext : (w.or (maskNext c.masks)).isPurged c.masks = w.isPurged c.masks :=
  (flagPair_spec _ _ (wf_shiFlags hc) w.shi).2.2.1

theorem isNext_or_maskPurge : (w.or (maskPurge c.masks)).isNext c.masks = w.isNext c.masks :=
  (flagPair_spec _ _ (wf_shiFlags hc) w.shi).2.2.2

theorem isPurged_or_maskPurge : (w.or (maskPurge c.masks)).isPurged c.masks = true :=
  (flagPair_spec _ _ (wf_shiFlags hc) w.shi).2.1

theorem isFetched_or_maskFetched : (w.or (maskFetched c.masks)).isFetched c.masks = true :=
  (flagPair_spec _ _ (wf_hsiFlags hc) w.hsi).1

theorem isCompleted_or_maskFetched :
    (w.or (maskFetched c.masks)).isCompleted c.masks = w.isCompleted c.masks :=
  (flagPair_spec _ _ (wf_hsiFlags hc) w.hsi).2.2.1

theorem isFetched_or_maskCompleted :
    (w.or (maskCompleted c.masks)).isFetched c.masks = w.isFetched c.masks :=
  (flagPair_spec _ _ (wf_hsiFlags hc) w.hsi).2.2.2

theorem isCompleted_or_maskCompleted : (w.or (maskCompleted c.masks)).isCompleted c.masks = true :=
  (flagPair_spec _ _ (wf_hsiFlags hc) w.hsi).2.1

end

@[simp] theorem isFetched_or_maskNext (m : FlagMasks) (w : Interlock) :
    (w.or (maskNext m)).isFetched m = w.isFetched m := by
  simp [Interlock.or, maskNext, Interlock.isFetched]

@[simp] theorem isCompleted_or_maskNext (m : FlagMasks) (w : Interlock) :
    (w.or (maskNext m)).isCompleted m = w.isCompleted m := by
  simp [Interlock.or, maskNext, Interlock.isCompleted]

@[simp] theorem isFetched_or_maskPurge (m : FlagMasks) (w : Interlock) :
    (w.or (maskPurge m)).isFetched m = w.isFetched m := by
  simp [Interlock.or, maskPurge, Interlock.isFetched]

@[simp] theorem isCompleted_or_maskPurge (m : FlagMasks) (w : Interlock) :
    (w.or (maskPurge m)).isCompleted m = w.isCompleted m := by
  simp [Interlock.or, maskPurge, Interlock.isCompleted]

@[simp] theorem isNext_or_maskFetched (m : FlagMasks) (w : Interlock) :
    (w.or (maskFetched m)).isNext m = w.isNext m := by
  simp [Interlock.or, maskFetched, Interlock.isNext]

@[simp] theorem isPurged_or_maskFetched (m : FlagMasks) (w : Interlock) :
    (w.or (maskFetched m)).isPurged m = w.isPurged m := by
  simp [Interlock.or, maskFetched, Interlock.isPurged]

@[simp] theorem isNext_or_maskCompleted (m : FlagMasks) (w : Interlock) :
    (w.or (maskCompleted m)).isNext m = w.isNext m := by
  simp [Interlock.or, maskCompleted, Interlock.isNext]

@[simp] theorem isPurged_or_maskCompleted (m : FlagMasks) (w : Interlock) :
    (w.or (maskCompleted m)).isPurged m = w.isPurged m := by
  simp [Interlock.or, maskCompleted, Interlock.isPurged]

/-- An OR with a value that touches no reserved bit keeps the reserved bits clear (R27, R28). -/
theorem reservedClear_or (k : FlagMasks) (w m : Interlock) (hw : w.reservedClear k = true)
    (hm : m.reservedClear k = true) : (w.or m).reservedClear k = true := by
  have key : ∀ a b k : Byte, a &&& k = 0 → b &&& k = 0 → (a ||| b) &&& k = 0 := by
    intro a b k ha hb
    rw [BitVec.and_comm, BitVec.and_or_distrib_left, BitVec.and_comm k a, BitVec.and_comm k b, ha, hb]
    rfl
  simp only [Interlock.reservedClear, Bool.and_eq_true, beq_iff_eq] at hw hm ⊢
  exact ⟨key _ _ _ hw.1 hm.1, key _ _ _ hw.2 hm.2⟩

/-- The four flag masks touch no reserved bit (R27, R28). -/
theorem reservedClear_masks (k : FlagMasks) :
    (maskNext k).reservedClear k = true ∧ (maskPurge k).reservedClear k = true ∧
      (maskFetched k).reservedClear k = true ∧ (maskCompleted k).reservedClear k = true := by
  have left : ∀ a b : Byte, a &&& ~~~(a ||| b) = 0 := by
    intro a b
    apply BitVec.eq_of_getLsbD_eq
    intro i hi
    simp only [BitVec.getLsbD_and, BitVec.getLsbD_not, BitVec.getLsbD_or]
    cases a.getLsbD i <;> simp
  have right : ∀ a b : Byte, b &&& ~~~(a ||| b) = 0 := by
    intro a b
    rw [BitVec.or_comm]
    exact left b a
  simp [Interlock.reservedClear, maskNext, maskPurge, maskFetched, maskCompleted, left, right]

/-- The words of the four flag masks in the default layout (R94). -/
theorem word_masks : (maskNext FlagMasks.default).word Layout.default = 0x00000001 ∧
    (maskPurge FlagMasks.default).word Layout.default = 0x00000002 ∧
    (maskFetched FlagMasks.default).word Layout.default = 0x00000400 ∧
    (maskCompleted FlagMasks.default).word Layout.default = 0x00004000 := by decide

end Sys2Proof.Machine
end

