-- ==== Sys2Proof/Laws/Operations.lean ====
section
/-! SUPPORT. What the shared checks and the operations can do: each check answers a next state exactly when
it admits the operation, and `exec_effect` says once everything an instruction that answers a next state
has done to the state. -/

namespace Sys2Proof.Machine

open Sys2Proof.Safety

/-! The checks. -/

theorem issue_next_iff (s t : State) (op : Opcode) (k : Out) :
    issue s op k = .next t ↔ RoleGranted s op ∧ k = .next t := by
  unfold issue RoleGranted
  by_cases h : roleOf s.issuer ∈ rolesOf op
  · simp [h]
  · simp [h]

theorem issue_granted (s : State) (op : Opcode) (k : Out) (h : RoleGranted s op) :
    issue s op k = k := by
  unfold issue
  rw [if_pos (by simpa [RoleGranted] using h)]

theorem issue_refused (s : State) (op : Opcode) (k : Out) (h : ¬RoleGranted s op) :
    issue s op k = .refused .roleNotGranted := by
  unfold issue
  rw [if_neg (by simpa [RoleGranted] using h)]

theorem onDescriptor_next_iff (s t : State) (d : Byte) (k : Desc → Out) :
    onDescriptor s d k = .next t ↔ ∃ x, s.descs[d.toNat]? = some x ∧ x.base % 4 = 0 ∧
      threadAllowed s.issuer x.thread = true ∧ k x = .next t := by
  unfold onDescriptor
  cases hx : s.descs[d.toNat]? with
  | none => simp
  | some x =>
    by_cases hb : x.base % 4 = 0
    · by_cases ht : threadAllowed s.issuer x.thread = true
      · simp [hb, ht]
      · simp [hb, ht]
    · simp [hb]

/-- An admitted operation on a descriptor does what it does with the descriptor's record. -/
theorem admitted_eq (s : State) (op : Opcode) (d : Byte) (x : Desc) (k : Desc → Out)
    (h : Admitted s op d x) : (issue s op <| onDescriptor s d k) = k x := by
  obtain ⟨hr, hx, hb, ht⟩ := h
  rw [issue_granted _ _ _ hr]
  simp [onDescriptor, hx, hb, ht]

theorem onFifo_next_iff (s t : State) (k : Out) :
    onFifo s k = .next t ↔ IsFifoOwner s ∧ k = .next t := by
  unfold onFifo IsFifoOwner ownsFifo
  cases s.issuer with
  | sw n => simp
  | hw => simp
  | owner n => by_cases h : n = s.fifo.session <;> simp [h]

theorem onFifo_owner (s : State) (k : Out) (h : IsFifoOwner s) : onFifo s k = k := by
  unfold IsFifoOwner at h
  simp [onFifo, ownsFifo, h]

theorem owner_roleGranted (s : State) (op : Opcode) (h : IsFifoOwner s)
    (hop : Role.owner ∈ rolesOf op) : RoleGranted s op := by
  unfold IsFifoOwner at h
  simpa [RoleGranted, roleOf, h] using hop

/-- An operation of the FIFO's owner is admitted. -/
theorem owner_eq (s : State) (op : Opcode) (k : Out) (h : IsFifoOwner s)
    (hop : Role.owner ∈ rolesOf op) : (issue s op <| onFifo s k) = k := by
  rw [issue_granted _ _ _ (owner_roleGranted s op h hop), onFifo_owner s k h]

/-! The image FORMAT builds has the descriptor's size. -/

@[simp] theorem length_formatImage (c : Config) (acfunc cmd : Byte) (opts : U16) (seq : Nat)
    (ats : U64) (asiv : List Byte) :
    (formatImage c acfunc cmd opts seq ats asiv).length = c.layout.size := length_layOut ..

/-! The effects. -/

/-- Everything an instruction that answers a next state can have done to the state. -/
inductive Effect (s : State) : State → Prop
  /-- An answer only: the pure operations, the reads, and every `fail`. -/
  | answered (a : Answer) : Effect s { s with answer := some a }
  /-- VERIFY_VARIANT_CRC where the reads race: an answer and a draw. -/
  | drawn (a : Answer) : Effect s { s.nextDraw with answer := some a }
  /-- FORMAT. -/
  | formatted (d : Nat) (x : Desc) (img : List Byte) (a : Answer)
      (hr : roleOf s.issuer = .sw)
      (hx : s.descs[d]? = some x)
      (he : formatEnabled (s.phase d x) x.swObsDone = true)
      (hl : img.length = s.layout.size) : Effect s { formatted s d x img with answer := some a }
  /-- SUBMIT_MARKER. -/
  | submitted (d : Nat) (x : Desc) (a : Answer)
      (hr : roleOf s.issuer = .sw)
      (hx : s.descs[d]? = some x) (hp : s.phase d x ≠ .unformatted) :
      Effect s { s.atomicOr32 d (maskNext s.cfg.masks) with answer := some a }
  /-- PURGE_MARKER. -/
  | purged (d : Nat) (x : Desc) (a : Answer)
      (hr : roleOf s.issuer = .sw)
      (hx : s.descs[d]? = some x) (hf : x.fmt = true) (ho : x.swObsDone = false) :
      Effect s { s.atomicOr32 d (maskPurge s.cfg.masks) with answer := some a }
  /-- IS_COMPLETED and RESULT on a completed descriptor. -/
  | observed (d : Nat) (x : Desc) (a : Answer)
      (hr : roleOf s.issuer = .sw)
      (hx : s.descs[d]? = some x) (hc : s.isCompleted d = true) :
      Effect s { s.observeDone d x with answer := some a }
  /-- HW_FETCH. -/
  | fetched (d : Nat) (x : Desc) (draws : FetchDraws) (a : Answer)
      (hr : roleOf s.issuer = .hw)
      (hx : s.descs[d]? = some x) (hp : s.phase d x = .next) :
      Effect s { (fetched s d x draws).nextDraw with answer := some a }
  /-- HW_COMPLETE. -/
  | completed (d : Nat) (x : Desc) (n : Nat) (a : Answer)
      (hr : roleOf s.issuer = .hw)
      (hx : s.descs[d]? = some x) (hp : s.phase d x = .fetched) :
      Effect s { (completed s d x (completionDraws s.layout n)).nextDraw with answer := some a }
  /-- The FIFO operations that change the FIFO. -/
  | staged (f : Fifo) (a : Answer)
      (hr : roleOf s.issuer = .owner)
      (hs : f.session = s.fifo.session) : Effect s { s with fifo := f, answer := some a }

theorem roleGranted_sw (s : State) (op : Opcode) (h : RoleGranted s op) (hop : rolesOf op = [.sw]) :
    roleOf s.issuer = .sw := by
  simpa [RoleGranted, hop] using h

theorem roleGranted_hw (s : State) (op : Opcode) (h : RoleGranted s op) (hop : rolesOf op = [.hw]) :
    roleOf s.issuer = .hw := by
  simpa [RoleGranted, hop] using h

theorem roleGranted_owner (s : State) (op : Opcode) (h : RoleGranted s op)
    (hop : rolesOf op = [.owner]) : roleOf s.issuer = .owner := by
  simpa [RoleGranted, hop] using h

theorem putAll_session (f : Fifo) (bs : List Byte) : (f.putAll bs).session = f.session := by
  induction bs generalizing f with
  | nil => rfl
  | cons b bs ih => rw [Fifo.putAll, ih]; rfl

/-- What each instruction that answers a next state has done. -/
theorem exec_effect (i : Instr) (s t : State) (h : exec i s = .next t) : Effect s t := by
  cases i with
  | crc16 init n data =>
    obtain ⟨-, h⟩ := (issue_next_iff ..).mp h
    obtain rfl := (give_eq_next_iff ..).mp h
    exact .answered _
  | format d acfunc cmd opts seq ats alen asiv =>
    obtain ⟨hr, h⟩ := (issue_next_iff ..).mp h
    obtain ⟨x, hx, -, -, h⟩ := (onDescriptor_next_iff ..).mp h
    split at h
    · rename_i he
      split at h
      · obtain rfl := (give_eq_next_iff ..).mp h
        exact .answered _
      · obtain rfl := (give_eq_next_iff ..).mp h
        exact .formatted _ x _ _ (roleGranted_sw s _ hr rfl) hx he (length_formatImage ..)
    · cases h
  | submitMarker d =>
    obtain ⟨hr, h⟩ := (issue_next_iff ..).mp h
    obtain ⟨x, hx, -, -, h⟩ := (onDescriptor_next_iff ..).mp h
    split at h
    · cases h
    · rename_i hp
      obtain rfl := (give_eq_next_iff ..).mp h
      exact .submitted _ x _ (roleGranted_sw s _ hr rfl) hx hp
  | purgeMarker d =>
    obtain ⟨hr, h⟩ := (issue_next_iff ..).mp h
    obtain ⟨x, hx, -, -, h⟩ := (onDescriptor_next_iff ..).mp h
    split at h
    · rename_i hp
      obtain rfl := (give_eq_next_iff ..).mp h
      simp only [Bool.and_eq_true, Bool.not_eq_true'] at hp
      exact .purged _ x _ (roleGranted_sw s _ hr rfl) hx hp.1 hp.2
    · cases h
  | isFetched d =>
    obtain ⟨-, h⟩ := (issue_next_iff ..).mp h
    obtain ⟨x, hx, -, -, h⟩ := (onDescriptor_next_iff ..).mp h
    obtain rfl := (give_eq_next_iff ..).mp h
    exact .answered _
  | isCompleted d =>
    obtain ⟨hr, h⟩ := (issue_next_iff ..).mp h
    obtain ⟨x, hx, -, -, h⟩ := (onDescriptor_next_iff ..).mp h
    split at h
    · rename_i hc
      obtain rfl := (give_eq_next_iff ..).mp h
      exact .observed _ x _ (roleGranted_sw s _ hr rfl) hx hc
    · obtain rfl := (give_eq_next_iff ..).mp h
      exact .answered _
  | verifyVariantCrc d =>
    obtain ⟨-, h⟩ := (issue_next_iff ..).mp h
    obtain ⟨x, hx, -, -, h⟩ := (onDescriptor_next_iff ..).mp h
    split at h
    · obtain rfl := (give_eq_next_iff ..).mp h
      exact .drawn _
    · obtain rfl := (give_eq_next_iff ..).mp h
      exact .answered _
  | result d =>
    obtain ⟨hr, h⟩ := (issue_next_iff ..).mp h
    obtain ⟨x, hx, -, -, h⟩ := (onDescriptor_next_iff ..).mp h
    split at h
    · rename_i hc
      obtain rfl := (give_eq_next_iff ..).mp h
      exact .observed _ x _ (roleGranted_sw s _ hr rfl) hx hc
    · obtain rfl := (give_eq_next_iff ..).mp h
      exact .answered _
  | verifyInvariantCrc d =>
    obtain ⟨-, h⟩ := (issue_next_iff ..).mp h
    obtain ⟨x, hx, -, -, h⟩ := (onDescriptor_next_iff ..).mp h
    split at h
    · obtain rfl := (give_eq_next_iff ..).mp h
      exact .answered _
    · cases h
  | hwFetch d =>
    obtain ⟨hr, h⟩ := (issue_next_iff ..).mp h
    obtain ⟨x, hx, -, -, h⟩ := (onDescriptor_next_iff ..).mp h
    split at h
    · rename_i hp
      obtain rfl := (give_eq_next_iff ..).mp h
      exact .fetched _ x _ _ (roleGranted_hw s _ hr rfl) hx hp
    · cases h
  | hwComplete d =>
    obtain ⟨hr, h⟩ := (issue_next_iff ..).mp h
    obtain ⟨x, hx, -, -, h⟩ := (onDescriptor_next_iff ..).mp h
    split at h
    · rename_i hp
      obtain rfl := (give_eq_next_iff ..).mp h
      exact .completed _ x _ _ (roleGranted_hw s _ hr rfl) hx hp
    · cases h
  | encInflAsiv opts p =>
    obtain ⟨-, h⟩ := (issue_next_iff ..).mp h
    split at h
    · obtain rfl := (give_eq_next_iff ..).mp h
      exact .answered _
    · split at h
      all_goals
        obtain rfl := (give_eq_next_iff ..).mp h
        exact .answered _
  | encDeflAsiv opts p =>
    obtain ⟨-, h⟩ := (issue_next_iff ..).mp h
    split at h
    · cases h
    · split at h
      · obtain rfl := (give_eq_next_iff ..).mp h
        exact .answered _
      · split at h
        all_goals
          obtain rfl := (give_eq_next_iff ..).mp h
          exact .answered _
  | decInflAsv cmd asv =>
    obtain ⟨-, h⟩ := (issue_next_iff ..).mp h
    split at h
    all_goals
      obtain rfl := (give_eq_next_iff ..).mp h
      exact .answered _
  | decDeflAsv cmd asv =>
    obtain ⟨-, h⟩ := (issue_next_iff ..).mp h
    split at h
    all_goals
      obtain rfl := (give_eq_next_iff ..).mp h
      exact .answered _
  | carry onumbits k otail =>
    obtain ⟨-, h⟩ := (issue_next_iff ..).mp h
    split at h
    · obtain rfl := (give_eq_next_iff ..).mp h
      exact .answered _
    · cases h
  | decInflAsiv cmd asiv =>
    obtain ⟨-, h⟩ := (issue_next_iff ..).mp h
    split at h
    all_goals
      obtain rfl := (give_eq_next_iff ..).mp h
      exact .answered _
  | decDeflAsiv cmd asiv =>
    obtain ⟨-, h⟩ := (issue_next_iff ..).mp h
    split at h
    all_goals
      obtain rfl := (give_eq_next_iff ..).mp h
      exact .answered _
  | encInflAsv r =>
    obtain ⟨-, h⟩ := (issue_next_iff ..).mp h
    obtain rfl := (give_eq_next_iff ..).mp h
    exact .answered _
  | encDeflAsv r =>
    obtain ⟨-, h⟩ := (issue_next_iff ..).mp h
    obtain rfl := (give_eq_next_iff ..).mp h
    exact .answered _
  | fifoInit =>
    obtain ⟨hr, h⟩ := (issue_next_iff ..).mp h
    obtain ⟨-, h⟩ := (onFifo_next_iff ..).mp h
    obtain rfl := (give_eq_next_iff ..).mp h
    exact .staged _ _ (roleGranted_owner s _ hr rfl) rfl
  | push b =>
    obtain ⟨hr, h⟩ := (issue_next_iff ..).mp h
    obtain ⟨-, h⟩ := (onFifo_next_iff ..).mp h
    split at h
    · obtain rfl := (give_eq_next_iff ..).mp h
      exact .answered _
    · obtain rfl := (give_eq_next_iff ..).mp h
      exact .staged _ _ (roleGranted_owner s _ hr rfl) rfl
  | push32 v =>
    obtain ⟨hr, h⟩ := (issue_next_iff ..).mp h
    obtain ⟨-, h⟩ := (onFifo_next_iff ..).mp h
    split at h
    · obtain rfl := (give_eq_next_iff ..).mp h
      exact .answered _
    · obtain rfl := (give_eq_next_iff ..).mp h
      exact .staged _ _ (roleGranted_owner s _ hr rfl) (putAll_session ..)
  | pop =>
    obtain ⟨hr, h⟩ := (issue_next_iff ..).mp h
    obtain ⟨-, h⟩ := (onFifo_next_iff ..).mp h
    split at h
    · obtain rfl := (give_eq_next_iff ..).mp h
      exact .answered _
    · obtain rfl := (give_eq_next_iff ..).mp h
      exact .staged _ _ (roleGranted_owner s _ hr rfl) rfl
  | pop16 =>
    obtain ⟨hr, h⟩ := (issue_next_iff ..).mp h
    obtain ⟨-, h⟩ := (onFifo_next_iff ..).mp h
    split at h
    · obtain rfl := (give_eq_next_iff ..).mp h
      exact .answered _
    · obtain rfl := (give_eq_next_iff ..).mp h
      exact .staged _ _ (roleGranted_owner s _ hr rfl) rfl
  | used =>
    obtain ⟨-, h⟩ := (issue_next_iff ..).mp h
    obtain ⟨-, h⟩ := (onFifo_next_iff ..).mp h
    obtain rfl := (give_eq_next_iff ..).mp h
    exact .answered _
  | free =>
    obtain ⟨-, h⟩ := (issue_next_iff ..).mp h
    obtain ⟨-, h⟩ := (onFifo_next_iff ..).mp h
    obtain rfl := (give_eq_next_iff ..).mp h
    exact .answered _

/-- What a step that answers a next state has done: nothing, when no operation is presented, or the effect
of the presented instruction on the state in which its request is taken. -/
theorem step_effect (s t : State) (h : step s = .next t) :
    t = s ∨ ∃ r rest, s.stream = r :: rest ∧ Effect (s.take r rest) t := by
  unfold step at h
  cases hs : s.stream with
  | nil =>
    rw [show fetch s = .idle by simp [fetch, hs]] at h
    left
    simpa using h.symm
  | cons r rest =>
    cases hd : decode s.cfg r.bytes with
    | error e =>
      rw [show fetch s = .invalid e by simp [fetch, hs, hd]] at h
      cases h
    | ok i =>
      rw [show fetch s = .run i (s.take r rest) by simp [fetch, hs, hd]] at h
      exact .inr ⟨r, rest, rfl, exec_effect i _ _ h⟩

end Sys2Proof.Machine
end

