-- ==== Sys2Proof/Laws/Descriptor.lean ====
section
/-! SUPPORT. What FORMAT, HW_FETCH and HW_COMPLETE leave in a descriptor, byte by byte and in the interlock
word, and what the derived quantities of a descriptor depend on. -/

namespace Sys2Proof.Machine

@[simp] theorem byte_setDesc (s : State) (d : Nat) (x : Desc) (e p : Nat) :
    (s.setDesc d x).byte e p = s.byte e p := rfl

@[simp] theorem byte_nextDraw (s : State) (e p : Nat) : s.nextDraw.byte e p = s.byte e p := rfl

@[simp] theorem byte_answer (s : State) (a : Option Answer) (e p : Nat) :
    ({ s with answer := a } : State).byte e p = s.byte e p := rfl

@[simp] theorem atomicRead32_setDesc (s : State) (d : Nat) (x : Desc) (e : Nat) :
    (s.setDesc d x).atomicRead32 e = s.atomicRead32 e := rfl

@[simp] theorem atomicRead32_nextDraw (s : State) (e : Nat) :
    s.nextDraw.atomicRead32 e = s.atomicRead32 e := rfl

@[simp] theorem atomicRead32_answer (s : State) (a : Option Answer) (e : Nat) :
    ({ s with answer := a } : State).atomicRead32 e = s.atomicRead32 e := rfl

@[simp] theorem atomicRead32_take (s : State) (r : Request) (rest : List Request) (e : Nat) :
    (s.take r rest).atomicRead32 e = s.atomicRead32 e := rfl

@[simp] theorem byte_observeDone (s : State) (d : Nat) (x : Desc) (e p : Nat) :
    (s.observeDone d x).byte e p = s.byte e p := by
  unfold State.observeDone; split <;> rfl

@[simp] theorem atomicRead32_observeDone (s : State) (d : Nat) (x : Desc) (e : Nat) :
    (s.observeDone d x).atomicRead32 e = s.atomicRead32 e := by
  unfold State.observeDone; split <;> rfl

/-! The derived quantities do not depend on the model's own fields. -/

@[simp] theorem invariantPart_setDesc (s : State) (d : Nat) (x : Desc) (e : Nat) :
    (s.setDesc d x).invariantPart e = s.invariantPart e := rfl

@[simp] theorem invariantPart_nextDraw (s : State) (e : Nat) :
    s.nextDraw.invariantPart e = s.invariantPart e := rfl

@[simp] theorem invariantPart_answer (s : State) (a : Option Answer) (e : Nat) :
    ({ s with answer := a } : State).invariantPart e = s.invariantPart e := rfl

@[simp] theorem invariantPart_take (s : State) (r : Request) (rest : List Request) (e : Nat) :
    (s.take r rest).invariantPart e = s.invariantPart e := rfl

@[simp] theorem invariantCrcMatches_setDesc (s : State) (d : Nat) (x : Desc) (e : Nat) :
    (s.setDesc d x).invariantCrcMatches e = s.invariantCrcMatches e := rfl

@[simp] theorem invariantCrcMatches_nextDraw (s : State) (e : Nat) :
    s.nextDraw.invariantCrcMatches e = s.invariantCrcMatches e := rfl

@[simp] theorem invariantCrcMatches_answer (s : State) (a : Option Answer) (e : Nat) :
    ({ s with answer := a } : State).invariantCrcMatches e = s.invariantCrcMatches e := rfl

@[simp] theorem invariantCrcMatches_take (s : State) (r : Request) (rest : List Request) (e : Nat) :
    (s.take r rest).invariantCrcMatches e = s.invariantCrcMatches e := rfl

@[simp] theorem variantCrcMatches_setDesc (s : State) (d : Nat) (x : Desc) (e : Nat) :
    (s.setDesc d x).variantCrcMatches e = s.variantCrcMatches e := rfl

@[simp] theorem variantCrcMatches_nextDraw (s : State) (e : Nat) :
    s.nextDraw.variantCrcMatches e = s.variantCrcMatches e := rfl

@[simp] theorem variantCrcMatches_answer (s : State) (a : Option Answer) (e : Nat) :
    ({ s with answer := a } : State).variantCrcMatches e = s.variantCrcMatches e := rfl

@[simp] theorem variantCrcMatches_take (s : State) (r : Request) (rest : List Request) (e : Nat) :
    (s.take r rest).variantCrcMatches e = s.variantCrcMatches e := rfl

@[simp] theorem phase_setDesc (s : State) (d : Nat) (x : Desc) (e : Nat) (y : Desc) :
    (s.setDesc d x).phase e y = s.phase e y := rfl

@[simp] theorem phase_nextDraw (s : State) (e : Nat) (y : Desc) :
    s.nextDraw.phase e y = s.phase e y := rfl

@[simp] theorem phase_answer (s : State) (a : Option Answer) (e : Nat) (y : Desc) :
    ({ s with answer := a } : State).phase e y = s.phase e y := rfl

@[simp] theorem phase_take (s : State) (r : Request) (rest : List Request) (e : Nat) (y : Desc) :
    (s.take r rest).phase e y = s.phase e y := rfl

/-! The derived quantities depend on the memory only. -/

theorem invariantPart_congr (s t : State) (d : Nat) (hc : t.cfg = s.cfg)
    (h : ∀ p, 4 ≤ p → p < s.layout.invariantLen → t.byte d p = s.byte d p) :
    t.invariantPart d = s.invariantPart d := by
  unfold State.invariantPart State.layout
  rw [hc, memRead_congr s t d d interlockLen _ fun p h1 h2 => h p h1 (by
    unfold interlockLen at *; unfold State.layout; omega)]

/-- The invariant check depends on the invariant part behind the interlock word and the CRC in that word only
(R180). -/
theorem invariantCrcMatches_congr (s t : State) (d : Nat) (hc : t.cfg = s.cfg)
    (hw : (t.atomicRead32 d).icrc = (s.atomicRead32 d).icrc)
    (h : ∀ p, 4 ≤ p → p < s.layout.invariantLen → t.byte d p = s.byte d p) :
    t.invariantCrcMatches d = s.invariantCrcMatches d := by
  unfold State.invariantCrcMatches
  rw [invariantPart_congr s t d hc h, hc, hw]

/-- A field depends on its bytes only. -/
theorem fieldBytes_congr (s t : State) (d : Nat) (f : Field)
    (h : ∀ p, f.covers p = true → t.byte d p = s.byte d p) :
    t.fieldBytes d f = s.fieldBytes d f :=
  memRead_congr s t d d _ _ fun p h1 h2 => h p ((covers_iff _ _).mpr ⟨h1, h2⟩)

/-- The variant check depends on the ASV and `variant_crc` only (R176). -/
theorem variantCrcMatches_congr (s t : State) (d : Nat) (hc : t.cfg = s.cfg)
    (h : ∀ p, s.layout.asv.covers p = true ∨ s.layout.variantCrc.covers p = true →
      t.byte d p = s.byte d p) :
    t.variantCrcMatches d = s.variantCrcMatches d := by
  unfold State.variantCrcMatches State.asvBytes State.storedVariantCrc State.fieldNat
  have hl : t.layout = s.layout := by unfold State.layout; rw [hc]
  rw [hl, fieldBytes_congr s t d s.layout.asv fun p hp => h p (.inl hp),
    fieldBytes_congr s t d s.layout.variantCrc fun p hp => h p (.inr hp)]

/-- The bytes the invariant CRC covers are those R161 names. -/
theorem icrcBytes_invariantPart (s : State) (d : Nat) :
    icrcBytes s.cfg (s.invariantPart d) = Safety.coveredBytes s.cfg fun o => s.byte d o := by
  have h : (s.invariantPart d).drop interlockLen
      = (List.range (s.layout.invariantLen - 4)).map fun i => s.byte d (4 + i) := by
    unfold State.invariantPart
    rw [memRead_eq_map]
    rfl
  unfold icrcBytes Safety.coveredBytes
  rw [h]
  rfl

/-- The CRC HW computes of an uncorrupted snapshot is the one VERIFY_INVARIANT_CRC computes. -/
theorem snapshotCrc_invariantPart (s : State) (d : Nat) :
    snapshotCrc s.cfg (s.invariantPart d) = invariantCrc s.cfg (s.invariantPart d) := by
  unfold snapshotCrc invariantCrc icrcBytes
  cases s.cfg.icrcRange <;> rfl

/-- Without link faults HW's check of its snapshot is the check of the invariant part (R184). -/
theorem takeSnapshot_icrcOk (s : State) (d : Nat) (draws : FetchDraws)
    (h : s.cfg.linkFaults = false) :
    (takeSnapshot s d draws).icrcOk = s.invariantCrcMatches d := by
  unfold takeSnapshot State.invariantCrcMatches
  simp only [h, Bool.false_eq_true, if_false, snapshotCrc_invariantPart]

theorem takeSnapshot_bytes (s : State) (d : Nat) (draws : FetchDraws)
    (h : s.cfg.linkFaults = false) : (takeSnapshot s d draws).bytes = s.invariantPart d := by
  unfold takeSnapshot
  simp only [h, Bool.false_eq_true, if_false]

/-! FORMAT. -/

/-- The fields FORMAT sets share no byte, when the payload fits (R160). -/
theorem formatFields_disjoint {c : Config} (hc : c.wf = true) (acfunc cmd : Byte) (opts : U16)
    (seq : Nat) (ats : U64) (asiv : List Byte) (hl : asiv.length ≤ c.asivCap) :
    (formatFields c acfunc cmd opts seq ats asiv).Pairwise fun x y =>
      (runField x).disjoint (runField y) = true := by
  obtain ⟨-, ⟨l1, l2, -, -, -, -, -, -, -, -⟩, -⟩ := wf_lens hc
  have hp := fit_pairwise (wf_invFields hc)
  have hb := wf_parts hc
  have hsub : (c.layout.invFields.take 8).Pairwise fun f g => f.disjoint g = true :=
    hp.sublist (List.take_sublist _ _)
  have hasiv : ∀ f ∈ c.layout.invFields.take 8,
      f.off + f.len ≤ c.layout.asiv.off ∨ c.layout.asiv.off + c.layout.asiv.len ≤ f.off := by
    intro f hf
    obtain ⟨i, hi, rfl⟩ := List.getElem_of_mem hf
    have hi8 : i < 8 := by simpa [Layout.invFields] using hi
    exact fit_disjoint (wf_invFields hc) i 9 _ c.layout.asiv (by omega)
      (by rw [List.getElem_take]; exact List.getElem?_eq_getElem _) rfl
  have heq : (formatFields c acfunc cmd opts seq ats asiv).map runField =
      c.layout.invFields.take 8 ++ [⟨c.layout.asiv.off, c.atsBytes⟩, ⟨c.asivOff, asiv.length⟩] := by
    have ha : (if c.atsPresent then toBe64 ats else []).length = c.atsBytes := by
      unfold Config.atsBytes; split <;> rfl
    have e1 : (⟨c.layout.preamble.off, 1⟩ : Field) = c.layout.preamble := by rw [← l1]
    have e2 : (⟨c.layout.xdir.off, 1⟩ : Field) = c.layout.xdir := by rw [← l2]
    simp only [formatFields, List.map_cons, List.map_nil, runField, Layout.invFields, length_toBe,
      List.take_succ_cons, List.take_zero, ha, List.length_cons, List.length_nil, Nat.zero_add, e1,
      e2, List.cons_append, List.nil_append]
  have hpair : ((formatFields c acfunc cmd opts seq ats asiv).map runField).Pairwise
      fun f g => f.disjoint g = true := by
    have hle : c.atsBytes + asiv.length ≤ c.layout.asiv.len := by
      have : c.atsBytes ≤ 8 := by unfold Config.atsBytes atsLen; split <;> omega
      unfold Layout.invariantLen at hb
      unfold Config.asivCap at hl
      omega
    rw [heq, List.pairwise_append]
    refine ⟨hsub, ?_, fun f hf g hg => ?_⟩
    · simp [disjoint_iff, Config.asivOff]
    · have := hasiv f hf
      simp only [List.mem_cons, List.not_mem_nil, or_false] at hg
      rw [disjoint_iff]
      unfold Config.asivOff at hg
      rcases hg with rfl | rfl <;> simp only <;> omega
  rwa [List.pairwise_map] at hpair

/-- A byte of a numeric field that holds `v` (R60). -/
theorem byteAt_toBe_field (f : Field) (v o : Nat) (h : f.covers o = true) :
    byteAt (toBe f.len v) (o - f.off) = Safety.numByte f v o := by
  rw [covers_iff] at h
  rw [byteAt_toBe _ _ _ (by omega), Safety.numByte, Nat.shiftRight_eq_div_pow, Nat.pow_mul]
  congr 3
  omega

theorem outside_of_not_covers (f : Field) (o : Nat) (h : ¬f.covers o = true) :
    o < f.off ∨ f.off + f.len ≤ o := by
  rw [covers_iff] at h; omega

section
variable (c : Config) (hw : c.wf = true) (acfunc cmd : Byte) (opts : U16) (seq : Nat) (ats : U64)
  (asiv : List Byte) (o : Nat) (ho : o < c.layout.size)
include hw ho

/-- A byte FORMAT gives no value is 0x00 (R162). -/
theorem byteAt_formatImage_outside (h1 : c.layout.preamble.covers o ≠ true)
    (h2 : c.layout.xdir.covers o ≠ true)
    (h3 : c.layout.seq.covers o ≠ true) (h4 : c.layout.acfunc.covers o ≠ true)
    (h5 : c.layout.cmd.covers o ≠ true) (h6 : c.layout.opts.covers o ≠ true)
    (h7 : c.layout.sur.covers o ≠ true) (h8 : c.layout.psp.covers o ≠ true)
    (h9 : ¬(c.atsPresent = true ∧ c.layout.asiv.off ≤ o ∧ o < c.layout.asiv.off + c.atsBytes))
    (h10 : ¬(c.layout.asiv.off + c.atsBytes ≤ o ∧
      o < c.layout.asiv.off + c.atsBytes + asiv.length)) :
    byteAt (formatImage c acfunc cmd opts seq ats asiv) o = 0 := by
  obtain ⟨-, ⟨l1, l2, -, -, -, -, -, -, -, l9⟩, -⟩ := wf_lens hw
  refine byteAt_layOut_outside _ _ _ ho fun f hf => ?_
  simp only [formatFields, List.mem_cons, List.not_mem_nil, or_false] at hf
  have hats : (if c.atsPresent = true then toBe64 ats else []).length = c.atsBytes := by
    unfold Config.atsBytes; split <;> rfl
  rcases hf with rfl | rfl | rfl | rfl | rfl | rfl | rfl | rfl | rfl | rfl <;>
    simp only [length_toBe, List.length_cons, List.length_nil, hats]
  · have := outside_of_not_covers _ _ h1; omega
  · have := outside_of_not_covers _ _ h2; omega
  · exact outside_of_not_covers _ _ h3
  · exact outside_of_not_covers _ _ h4
  · exact outside_of_not_covers _ _ h5
  · exact outside_of_not_covers _ _ h6
  · exact outside_of_not_covers _ _ h7
  · exact outside_of_not_covers _ _ h8
  · by_cases hb : c.atsPresent = true
    · simp only [hb, true_and] at h9; omega
    · have : c.atsBytes = 0 := by simp [Config.atsBytes, hb]
      omega
  · unfold Config.asivOff; omega

/-- A byte of one of the fields FORMAT sets. -/
theorem byteAt_formatImage_mem (hl : asiv.length ≤ c.asivCap) (f : Nat × List Byte)
    (hf : f ∈ formatFields c acfunc cmd opts seq ats asiv) (h1 : f.1 ≤ o)
    (h2 : o < f.1 + f.2.length) :
    byteAt (formatImage c acfunc cmd opts seq ats asiv) o = byteAt f.2 (o - f.1) :=
  byteAt_layOut_mem c.layout.size _ f o ho
    (formatFields_disjoint hw acfunc cmd opts seq ats asiv hl) hf ⟨h1, h2⟩

/-- A byte of a numeric field FORMAT sets. -/
theorem byteAt_formatImage_num (hl : asiv.length ≤ c.asivCap) (f : Field) (v : Nat)
    (hf : (f.off, toBe f.len v) ∈ formatFields c acfunc cmd opts seq ats asiv)
    (h : f.covers o = true) :
    byteAt (formatImage c acfunc cmd opts seq ats asiv) o = Safety.numByte f v o := by
  have h' := (covers_iff _ _).mp h
  rw [byteAt_formatImage_mem c hw acfunc cmd opts seq ats asiv o ho hl _ hf h'.1
    (by simpa using h'.2), byteAt_toBe_field _ _ _ h]

/-- Every byte of the image FORMAT builds is the one R162 gives it. -/
theorem byteAt_formatImage (hl : asiv.length ≤ if c.atsPresent then 96 else 104) :
    byteAt (formatImage c acfunc cmd opts seq ats asiv) o =
      Safety.formatByte c acfunc cmd opts seq ats asiv o := by
  obtain ⟨-, ⟨l1, l2, -, -, -, -, -, -, -, l9⟩, -⟩ := wf_lens hw
  have hcap : asiv.length ≤ c.asivCap := by
    unfold Config.asivCap Config.atsBytes atsLen; split_ifs at * <;> omega
  have hin := byteAt_formatImage_mem c hw acfunc cmd opts seq ats asiv o ho hcap
  have hnum := byteAt_formatImage_num c hw acfunc cmd opts seq ats asiv o ho hcap
  have e1 : c.asivOff = c.layout.asiv.off + c.atsBytes := rfl
  unfold Safety.formatByte
  have e0 : (if c.atsPresent = true then 8 else 0) = c.atsBytes := rfl
  simp only [e0]
  by_cases h1 : c.layout.preamble.covers o = true
  · have h := (covers_iff _ _).mp h1
    rw [if_pos h1, hin (c.layout.preamble.off, [c.pre]) (List.mem_of_getElem? (i := 0) rfl)
      h.1 (by simp; omega)]
    simp [show o - c.layout.preamble.off = 0 by omega, byteAt]
  rw [if_neg h1]
  by_cases h2 : c.layout.xdir.covers o = true
  · have h := (covers_iff _ _).mp h2
    rw [if_pos h2, hin (c.layout.xdir.off, [c.xdir]) (List.mem_of_getElem? (i := 1) rfl)
      h.1 (by simp; omega)]
    simp [show o - c.layout.xdir.off = 0 by omega, byteAt]
  rw [if_neg h2]
  by_cases h3 : c.layout.seq.covers o = true
  · rw [if_pos h3, hnum c.layout.seq _ (List.mem_of_getElem? (i := 2) rfl) h3]
  rw [if_neg h3]
  by_cases h4 : c.layout.acfunc.covers o = true
  · rw [if_pos h4, hnum c.layout.acfunc _ (List.mem_of_getElem? (i := 3) rfl) h4]
  rw [if_neg h4]
  by_cases h5 : c.layout.cmd.covers o = true
  · rw [if_pos h5, hnum c.layout.cmd _ (List.mem_of_getElem? (i := 4) rfl) h5]
  rw [if_neg h5]
  by_cases h6 : c.layout.opts.covers o = true
  · rw [if_pos h6, hnum c.layout.opts _ (List.mem_of_getElem? (i := 5) rfl) h6]
  rw [if_neg h6]
  by_cases h7 : c.layout.sur.covers o = true
  · rw [if_pos h7, hnum c.layout.sur _ (List.mem_of_getElem? (i := 6) rfl) h7]
  rw [if_neg h7]
  by_cases h8 : c.layout.psp.covers o = true
  · rw [if_pos h8, hnum c.layout.psp _ (List.mem_of_getElem? (i := 7) rfl) h8]
  rw [if_neg h8]
  by_cases h9 : c.atsPresent = true ∧ c.layout.asiv.off ≤ o ∧ o < c.layout.asiv.off + c.atsBytes
  · rw [if_pos h9]
    have e2 : c.atsBytes = 8 := by simp [Config.atsBytes, h9.1, atsLen]
    rw [hin (c.layout.asiv.off, if c.atsPresent then toBe64 ats else []) 
      (List.mem_of_getElem? (i := 8) rfl) h9.2.1 (by simpa [e2, h9.1] using h9.2.2)]
    rw [if_pos h9.1, byteAt_toBe64 _ _ (by simp only; omega)]
    congr 1
    simp only
    omega
  rw [if_neg h9]
  by_cases h10 : c.layout.asiv.off + c.atsBytes ≤ o ∧
      o < c.layout.asiv.off + c.atsBytes + asiv.length
  · rw [if_pos h10, hin (c.asivOff, asiv) (List.mem_of_getElem? (i := 9) rfl)
      (by rw [e1]; exact h10.1) (by rw [e1]; exact h10.2), e1]
    rfl
  rw [if_neg h10]
  exact byteAt_formatImage_outside c hw acfunc cmd opts seq ats asiv o ho h1 h2 h3
    h4 h5 h6 h7 h8 h9 h10

end

theorem byte_formatted (s : State) (hs : interlockLen ≤ s.layout.size) (d : Nat) (x : Desc)
    (img : List Byte) (hl : img.length = s.layout.size) (e p : Nat) (h4 : 4 ≤ p)
    (hp : p < s.layout.size) :
    (formatted s d x img).byte e p = if e = d then byteAt img p else s.byte e p := by
  have hlen : interlockLen + (img.drop interlockLen).length = s.layout.size := by
    rw [List.length_drop, hl]; omega
  unfold formatted
  rw [byte_setDesc]
  refine Eq.trans (byte_atomicWrite32 _ _ _ _ _ hp hs) ?_
  rw [if_neg (by omega), byte_memWrite _ _ _ _ _ _ hp (by omega)]
  by_cases h : e = d
  · rw [if_pos ⟨h, by unfold interlockLen; omega, by omega⟩, if_pos h, byteAt_drop]
    congr 1
    unfold interlockLen; omega
  · rw [if_neg (fun hc => h hc.1), if_neg h]

theorem atomicRead32_formatted (s : State) (hc : s.cfg.wf = true) (d : Nat) (x : Desc)
    (img : List Byte) (hl : img.length = s.layout.size) (e : Nat) :
    (formatted s d x img).atomicRead32 e =
      if e = d then ⟨invariantCrc s.cfg (img.take s.layout.invariantLen), 0, 0⟩
      else s.atomicRead32 e := by
  have hs := wf_size hc
  unfold formatted
  rw [atomicRead32_setDesc]
  rw [atomicRead32_atomicWrite32 (s.memWrite d interlockLen (img.drop interlockLen)) hc,
    atomicRead32_memWrite s d interlockLen (img.drop interlockLen) e
      (by rw [List.length_drop, hl]; unfold State.layout; omega) (Nat.le_refl _)]

@[simp] theorem formatted_cfg (s : State) (d : Nat) (x : Desc) (img : List Byte) :
    (formatted s d x img).cfg = s.cfg := rfl

@[simp] theorem formatted_addr (s : State) (d : Nat) (x : Desc) (img : List Byte) (e p : Nat) :
    (formatted s d x img).addr e p = s.addr e p := rfl

@[simp] theorem formatted_fifo (s : State) (d : Nat) (x : Desc) (img : List Byte) :
    (formatted s d x img).fifo = s.fifo := rfl

@[simp] theorem formatted_descs (s : State) (d : Nat) (x : Desc) (img : List Byte) :
    (formatted s d x img).descs = s.descs.set d { x with fmt := true, swObsDone := false } := rfl

/-- FORMAT stores the CRC of the bytes it stored (R160, R164). -/
theorem invariantCrcMatches_formatted (s : State) (hc : s.cfg.wf = true) (d : Nat) (x : Desc)
    (img : List Byte) (hl : img.length = s.layout.size) :
    (formatted s d x img).invariantCrcMatches d = true := by
  have hs := wf_size hc
  unfold State.invariantCrcMatches
  rw [atomicRead32_formatted _ hc _ _ _ hl, if_pos rfl, formatted_cfg]
  have hb : icrcBytes s.cfg ((formatted s d x img).invariantPart d)
      = icrcBytes s.cfg (img.take s.layout.invariantLen) := by
    have hd : ((formatted s d x img).invariantPart d).drop interlockLen
        = (img.take s.layout.invariantLen).drop interlockLen := by
      have hdrop : ((formatted s d x img).invariantPart d).drop interlockLen
          = (formatted s d x img).memRead d interlockLen (s.layout.invariantLen - interlockLen) :=
        List.drop_left' length_blankWord
      rw [hdrop]
      refine bytes_ext _ _ ?_ fun i hi => ?_
      · rw [length_memRead, List.length_drop, List.length_take, hl]
        unfold State.layout; omega
      · rw [length_memRead] at hi
        rw [byteAt_memRead _ _ _ _ _ hi,
          byte_formatted _ (by unfold State.layout; omega) _ _ _ hl _ _
            (by unfold interlockLen; omega) (by unfold State.layout at *; omega), if_pos rfl,
          byteAt_drop, byteAt_take _ _ _ (by omega)]
    unfold icrcBytes
    rw [hd]
  unfold invariantCrc
  rw [hb]
  simp

/-! HW_FETCH. -/

theorem byte_fetched (s : State) (hc : s.cfg.wf = true) (d : Nat) (x : Desc) (draws : FetchDraws)
    (e p : Nat) (h4 : 4 ≤ p) (hp : p < s.layout.size) :
    (fetched s d x draws).byte e p =
      if e = d ∧ s.layout.dispatchTs.covers p = true then
        byteAt (toBe s.layout.dispatchTs.len draws.ts.toNat) (p - s.layout.dispatchTs.off)
      else s.byte e p := by
  have hb := wf_var_bounds hc s.cfg.layout.dispatchTs (by simp [Layout.varFields])
  unfold fetched
  refine Eq.trans (byte_atomicOr32_of_ge _ _ _ _ _ hp h4) ?_
  refine Eq.trans (byte_memWrite _ _ _ _ _ _ hp (by rw [length_toBe]; exact hb.2)) ?_
  rw [length_toBe]
  simp only [covers_iff]
  rfl

theorem atomicRead32_fetched (s : State) (hc : s.cfg.wf = true) (d : Nat) (x : Desc)
    (draws : FetchDraws) (e : Nat) :
    (fetched s d x draws).atomicRead32 e =
      if e = d then (s.atomicRead32 d).or (maskFetched s.cfg.masks) else s.atomicRead32 e := by
  have hb := wf_var_bounds hc s.cfg.layout.dispatchTs (by simp [Layout.varFields])
  have hs := wf_size hc
  have hw : ∀ e, ((s.acquire.setDesc d { x with snap := takeSnapshot s d draws }).memWrite d
      s.layout.dispatchTs.off (toBe s.layout.dispatchTs.len draws.ts.toNat)).atomicRead32 e
      = s.atomicRead32 e := fun e =>
    atomicRead32_memWrite _ _ _ _ _ (by rw [length_toBe]; exact hb.2)
      (by unfold State.layout; omega)
  unfold fetched
  rw [atomicRead32_atomicOr32 ((s.acquire.setDesc d { x with snap := takeSnapshot s d draws }).memWrite d
      s.layout.dispatchTs.off (toBe s.layout.dispatchTs.len draws.ts.toNat)) hc, hw, hw]

@[simp] theorem fetched_cfg (s : State) (d : Nat) (x : Desc) (draws : FetchDraws) :
    (fetched s d x draws).cfg = s.cfg := rfl

@[simp] theorem fetched_addr (s : State) (d : Nat) (x : Desc) (draws : FetchDraws) (e p : Nat) :
    (fetched s d x draws).addr e p = s.addr e p := rfl

@[simp] theorem fetched_fifo (s : State) (d : Nat) (x : Desc) (draws : FetchDraws) :
    (fetched s d x draws).fifo = s.fifo := rfl

@[simp] theorem fetched_descs (s : State) (d : Nat) (x : Desc) (draws : FetchDraws) :
    (fetched s d x draws).descs = s.descs.set d { x with snap := takeSnapshot s d draws } := rfl

/-! HW_COMPLETE. -/

@[simp] theorem length_completionDraws_asv (l : Layout) (n : Nat) :
    (completionDraws l n).asv.length = 64 := by
  simp [completionDraws, asvLen]

/-- The places HW_COMPLETE writes: six fields, and the reserved variant bytes one by one. -/
theorem map_runField_completionRuns {c : Config} (hc : c.wf = true) (snap : Snapshot) (n : Nat) :
    (completionRuns c snap (completionDraws c.layout n)).map runField =
      c.layout.varFields.take 6 ++ c.layout.reservedVariant.map fun o => ⟨o, 1⟩ := by
  obtain ⟨-, -, l1, l2, -⟩ := wf_lens hc
  have e1 : (⟨c.layout.asv.off, 64⟩ : Field) = c.layout.asv := by rw [← l1]
  have e2 : (⟨c.layout.variantCrc.off, 2⟩ : Field) = c.layout.variantCrc := by rw [← l2]
  simp only [completionRuns, List.map_append, List.map_cons, List.map_nil, runField,
    length_completionDraws_asv, length_toBe16, length_toBe, e1, e2, Layout.varFields,
    List.take_succ_cons, List.take_zero, List.map_map]
  rfl

/-- The runs of HW_COMPLETE share no byte (R186). -/
theorem completionRuns_disjoint {c : Config} (hc : c.wf = true) (snap : Snapshot) (n : Nat) :
    (completionRuns c snap (completionDraws c.layout n)).Pairwise fun x y =>
      (runField x).disjoint (runField y) = true := by
  have hpair : ((completionRuns c snap (completionDraws c.layout n)).map runField).Pairwise
      fun f g => f.disjoint g = true := by
    rw [map_runField_completionRuns hc, List.pairwise_append]
    refine ⟨(fit_pairwise (wf_varFields hc)).sublist (List.take_sublist _ _), ?_, ?_⟩
    · rw [List.pairwise_map]
      have hnd : c.layout.reservedVariant.Pairwise (· ≠ ·) := List.nodup_range.filter _
      refine hnd.imp fun {o p} hne => ?_
      rw [disjoint_iff]
      simp only
      omega
    · intro f hf g hg
      obtain ⟨o, ho, rfl⟩ := List.mem_map.mp hg
      have hr := (reserved_iff _ _).mp ((mem_reservedVariant _ _).mp ho).2.2 f
        (by simp only [Layout.fields, List.mem_append]; exact .inr (List.mem_of_mem_take hf))
      rw [disjoint_iff]
      simp only
      omega
  rwa [List.pairwise_map] at hpair

/-- Where a run of HW_COMPLETE stands: it is one of the six fields or a reserved variant byte. -/
theorem completionRuns_place {c : Config} (hc : c.wf = true) (snap : Snapshot) (n : Nat)
    (r : Nat × List Byte) (hr : r ∈ completionRuns c snap (completionDraws c.layout n)) :
    runField r ∈ c.layout.varFields.take 6 ∨
      ∃ o, o ∈ c.layout.reservedVariant ∧ runField r = ⟨o, 1⟩ := by
  have hm := List.mem_map_of_mem (f := runField) hr
  rw [map_runField_completionRuns hc, List.mem_append] at hm
  rcases hm with hm | hm
  · exact .inl hm
  · obtain ⟨o, ho, he⟩ := List.mem_map.mp hm
    exact .inr ⟨o, ho, he.symm⟩

/-- The runs of HW_COMPLETE lie in the variant part. -/
theorem completionRuns_range {c : Config} (hc : c.wf = true) (snap : Snapshot) (n : Nat)
    (r : Nat × List Byte) (hr : r ∈ completionRuns c snap (completionDraws c.layout n)) :
    c.layout.invariantLen ≤ r.1 ∧ r.1 + r.2.length ≤ c.layout.size := by
  rcases completionRuns_place hc snap n r hr with h | ⟨o, ho, he⟩
  · exact wf_var_bounds hc _ (List.mem_of_mem_take h)
  · obtain ⟨h1, h2, -⟩ := (mem_reservedVariant _ _).mp ho
    have e1 : r.1 = o := congrArg Field.off he
    have e2 : r.2.length = 1 := congrArg Field.len he
    omega

theorem byte_memWriteRuns (s : State) (d : Nat) (rs : List (Nat × List Byte)) (e p : Nat) :
    (s.memWriteRuns d rs).byte e p =
      Memory.read s.layout (s.mem.writeRuns s.layout (s.addr d 0) rs) (s.addr e p) := rfl

/-- A byte HW_COMPLETE writes nothing to. -/
theorem byte_completed_outside (s : State) (hc : s.cfg.wf = true) (d : Nat) (x : Desc) (n : Nat)
    (e p : Nat) (h4 : 4 ≤ p) (hp : p < s.layout.size)
    (ho : e ≠ d ∨ p < s.layout.invariantLen ∨ s.layout.driver.covers p = true ∨
      s.layout.dispatchTs.covers p = true) :
    (completed s d x (completionDraws s.layout n)).byte e p = s.byte e p := by
  unfold completed
  rw [release_eq, byte_atomicOr32_of_ge (s.memWriteRuns d
    (completionRuns s.cfg x.snap (completionDraws s.layout n))) _ _ _ _ hp h4]
  rw [byte_memWriteRuns, read_writeRuns_outside]
  · rfl
  intro r hr
  have hrange := completionRuns_range hc _ _ _ hr
  have hrun := addr_in_run s.layout d e r.1 r.2.length p hp hrange.2
  have haddr : s.addr d 0 + r.1 = descAddr s.layout d r.1 := by
    unfold State.addr descAddr; omega
  rw [haddr]
  unfold State.addr
  by_contra hin
  obtain ⟨rfl, h1, h2⟩ := hrun.mp (by omega)
  rcases ho with h | h | h | h
  · exact h rfl
  · unfold State.layout at h; omega
  all_goals
    rw [covers_iff] at h
    rcases completionRuns_place hc _ _ _ hr with hf | ⟨o, hm, he⟩
    · obtain ⟨i, hi, hfi⟩ := List.getElem_of_mem hf
      have hi6 : i < 6 := by simpa [Layout.varFields] using hi
      rw [List.getElem_take] at hfi
      have hget : s.cfg.layout.varFields[i]? = some (runField r) := by
        rw [← hfi]; exact List.getElem?_eq_getElem _
      first
        | have := fit_disjoint (wf_varFields hc) i 6 _ s.cfg.layout.driver (by omega) hget rfl
          unfold State.layout at h
          simp only [runField] at this
          omega
        | have := fit_disjoint (wf_varFields hc) i 7 _ s.cfg.layout.dispatchTs (by omega) hget rfl
          unfold State.layout at h
          simp only [runField] at this
          omega
    · have e1 : r.1 = o := congrArg Field.off he
      have e2 : r.2.length = 1 := congrArg Field.len he
      have hres := (reserved_iff _ _).mp ((mem_reservedVariant _ _).mp hm).2.2
      have hd := hres s.cfg.layout.driver (by simp [Layout.fields, Layout.varFields])
      have ht := hres s.cfg.layout.dispatchTs (by simp [Layout.fields, Layout.varFields])
      unfold State.layout at h
      omega

/-- The interlock word after plain stores that do not touch it. -/
theorem atomicRead32_memWriteRuns (s : State) (d : Nat) (rs : List (Nat × List Byte)) (e : Nat)
    (h4 : interlockLen ≤ s.layout.size)
    (h : ∀ r ∈ rs, 4 ≤ r.1 ∧ r.1 + r.2.length ≤ s.layout.size) :
    (s.memWriteRuns d rs).atomicRead32 e = s.atomicRead32 e := by
  refine atomicRead32_congr _ _ _ rfl fun p hp => ?_
  rw [byte_memWriteRuns, read_writeRuns_outside]
  · rfl
  intro r hr
  have hb := h r hr
  have hrun := addr_in_run s.layout d e r.1 r.2.length p (by unfold interlockLen at h4; omega) hb.2
  have haddr : s.addr d 0 + r.1 = descAddr s.layout d r.1 := by
    unfold State.addr descAddr; omega
  rw [haddr]
  unfold State.addr
  by_contra hin
  have := hrun.mp (by omega)
  omega

theorem atomicRead32_completed (s : State) (hc : s.cfg.wf = true) (d : Nat) (x : Desc) (n : Nat)
    (e : Nat) :
    (completed s d x (completionDraws s.layout n)).atomicRead32 e =
      if e = d then (s.atomicRead32 d).or (maskCompleted s.cfg.masks) else s.atomicRead32 e := by
  have hs := wf_size hc
  have h : ∀ e, (s.memWriteRuns d
      (completionRuns s.cfg x.snap (completionDraws s.layout n))).atomicRead32 e
      = s.atomicRead32 e := fun e =>
    atomicRead32_memWriteRuns _ _ _ _ (by unfold State.layout; omega) fun r hr => by
      have := completionRuns_range hc _ _ _ hr
      unfold interlockLen State.layout at *
      omega
  unfold completed
  rw [release_eq, atomicRead32_atomicOr32 (s.memWriteRuns d
    (completionRuns s.cfg x.snap (completionDraws s.layout n))) hc, h, h]

@[simp] theorem completed_cfg (s : State) (d : Nat) (x : Desc) (draws : CompletionDraws) :
    (completed s d x draws).cfg = s.cfg := rfl

@[simp] theorem completed_addr (s : State) (d : Nat) (x : Desc) (draws : CompletionDraws) (e p : Nat) :
    (completed s d x draws).addr e p = s.addr e p := rfl

@[simp] theorem completed_fifo (s : State) (d : Nat) (x : Desc) (draws : CompletionDraws) :
    (completed s d x draws).fifo = s.fifo := rfl

@[simp] theorem completed_descs (s : State) (d : Nat) (x : Desc) (draws : CompletionDraws) :
    (completed s d x draws).descs = s.descs := rfl

/-- A byte of one of HW_COMPLETE's runs. -/
theorem byte_completed_run (s : State) (hc : s.cfg.wf = true) (d : Nat) (x : Desc) (n p : Nat)
    (r : Nat × List Byte)
    (h : r ∈ completionRuns s.cfg x.snap (completionDraws s.layout n))
    (h1 : r.1 ≤ p ∧ p < r.1 + r.2.length) :
    (completed s d x (completionDraws s.layout n)).byte d p = byteAt r.2 (p - r.1) := by
  have hrange := completionRuns_range hc _ _ _ h
  have hs := wf_size hc
  have hp : p < s.layout.size := by unfold State.layout; omega
  unfold completed
  rw [release_eq, byte_atomicOr32_of_ge (s.memWriteRuns d
    (completionRuns s.cfg x.snap (completionDraws s.layout n))) _ _ _ _ hp
    (by unfold interlockLen at hs; omega)]
  rw [byte_memWriteRuns, read_writeRuns_mem _ _ _ _ _ (completionRuns_disjoint hc x.snap n) r h
    (by unfold State.addr descAddr; omega)]
  congr 1
  unfold State.addr descAddr
  omega

/-- The bytes of one of HW_COMPLETE's runs. -/
theorem memRead_completed_run (s : State) (hc : s.cfg.wf = true) (d : Nat) (x : Desc) (n : Nat)
    (r : Nat × List Byte)
    (h : r ∈ completionRuns s.cfg x.snap (completionDraws s.layout n)) :
    (completed s d x (completionDraws s.layout n)).memRead d r.1 r.2.length = r.2 := by
  refine bytes_ext _ _ (by simp) fun i hi => ?_
  rw [length_memRead] at hi
  rw [byteAt_memRead _ _ _ _ _ hi, byte_completed_run s hc d x n _ r h ⟨by omega, by omega⟩]
  congr 1
  omega

/-- Without link faults HW_COMPLETE stores the CRC of the ASV it stored (R186). -/
theorem variantCrcMatches_completed (s : State) (hc : s.cfg.wf = true) (d : Nat) (x : Desc)
    (n : Nat) (hf : s.cfg.linkFaults = false) :
    (completed s d x (completionDraws s.layout n)).variantCrcMatches d = true := by
  obtain ⟨-, -, l1, l2, -⟩ := wf_lens hc
  have hasv := memRead_completed_run s hc d x n
    (s.cfg.layout.asv.off, (completionDraws s.layout n).asv) (by simp [completionRuns])
  have hcrc := memRead_completed_run s hc d x n
    (s.cfg.layout.variantCrc.off, toBe16 (completionCrc s.cfg (completionDraws s.layout n)))
    (by simp [completionRuns])
  simp only [length_completionDraws_asv, length_toBe16, ← l1, ← l2] at hasv hcrc
  rw [l2] at hcrc
  have hv : completionCrc s.cfg (completionDraws s.layout n)
      = variantCrc (completionDraws s.layout n).asv := by simp [completionCrc, hf]
  unfold State.variantCrcMatches State.asvBytes State.storedVariantCrc State.fieldNat
    State.fieldBytes
  have hl : (completed s d x (completionDraws s.layout n)).layout = s.cfg.layout := rfl
  rw [hl, hasv, l2, hcrc, hv, toBe16_eq, ofNat_ofBe_toBe _ _ (by decide)]
  simp

/-! Which bytes of memory the three leave. -/

/-- FORMAT stores into its descriptor only. -/
theorem read_formatted_outside (s : State) (hc : s.cfg.wf = true) (d : Nat) (x : Desc) (img : List Byte)
    (hl : img.length = s.layout.size) (a : Nat)
    (ha : a < s.addr d 0 ∨ s.addr d 0 + s.layout.size ≤ a) :
    (formatted s d x img).read a = s.read a := by
  have hs := wf_size hc
  have h4 : interlockLen = 4 := rfl
  refine (read_atomicWrite32_of_outside (s.memWrite d interlockLen (img.drop interlockLen)) d _ a
    ?_).trans (read_memWrite_outside _ _ _ _ _ ?_)
  · rw [memWrite_addr]
    unfold State.layout at ha
    omega
  · rw [List.length_drop, hl]
    unfold State.addr descAddr State.layout at *
    omega

/-- HW_FETCH stores into the `hsi` byte and `dispatch_timestamp` only. -/
theorem read_fetched_outside (s : State) (hc : s.cfg.wf = true) (d : Nat) (x : Desc)
    (draws : FetchDraws) (a : Nat) (hh : a ≠ s.addr d s.layout.hsi.off)
    (ha : a < s.addr d s.layout.dispatchTs.off ∨
      s.addr d s.layout.dispatchTs.off + s.layout.dispatchTs.len ≤ a) :
    (fetched s d x draws).read a = s.read a := by
  unfold fetched
  rw [acquire_eq]
  refine (read_atomicOr32 ((s.setDesc d { x with snap := takeSnapshot s d draws }).memWrite d
    s.layout.dispatchTs.off (toBe s.layout.dispatchTs.len draws.ts.toNat)) hc d _ rfl a
    (fun h => absurd h ?_) fun _ => rfl).trans (read_memWrite_outside _ _ _ _ _ ?_)
  · rw [memWrite_addr, setDesc_addr]
    exact hh
  · rw [setDesc_addr, length_toBe]
    exact ha

/-- HW_COMPLETE stores into the `hsi` byte and the part behind the invariant one only. -/
theorem read_completed_outside (s : State) (hc : s.cfg.wf = true) (d : Nat) (x : Desc) (n a : Nat)
    (hh : a ≠ s.addr d s.layout.hsi.off)
    (ha : a < s.addr d s.layout.invariantLen ∨ s.addr d s.layout.size ≤ a) :
    (completed s d x (completionDraws s.layout n)).read a = s.read a := by
  have hr := read_memWriteRuns_outside s d (completionRuns s.cfg x.snap (completionDraws s.layout n)) a
    fun r hr => by
      have := completionRuns_range hc _ _ _ hr
      unfold State.addr descAddr State.layout at *
      omega
  have ho := read_atomicOr32 (s.memWriteRuns d (completionRuns s.cfg x.snap
    (completionDraws s.layout n))) hc d (maskCompleted s.cfg.masks) rfl a
    (fun h => absurd h (by rw [memWriteRuns_addr]; exact hh)) fun _ => rfl
  exact ho.trans hr

/-- A byte of another descriptor stands outside descriptor `d` (R65). -/
theorem addr_of_ne (s : State) (d e p : Nat) (hne : e ≠ d) (hp : p < s.layout.size) :
    s.addr e p < s.addr d 0 ∨ s.addr d 0 + s.layout.size ≤ s.addr e p := by
  have := addr_in_run s.layout d e 0 s.layout.size p hp (by omega)
  unfold State.addr
  by_contra h
  exact hne (this.mp (by omega)).1

/-- FORMAT leaves the other descriptors. -/
theorem byte_formatted_of_ne (s : State) (hc : s.cfg.wf = true) (d : Nat) (x : Desc)
    (img : List Byte) (hl : img.length = s.layout.size) (e p : Nat) (hne : e ≠ d)
    (hp : p < s.layout.size) : (formatted s d x img).byte e p = s.byte e p := by
  unfold State.byte
  rw [formatted_addr]
  exact read_formatted_outside s hc d x img hl _ (addr_of_ne s d e p hne hp)

/-- HW_FETCH leaves the other descriptors. -/
theorem byte_fetched_of_ne (s : State) (hc : s.cfg.wf = true) (d : Nat) (x : Desc)
    (draws : FetchDraws) (e p : Nat) (hne : e ≠ d) (hp : p < s.layout.size) :
    (fetched s d x draws).byte e p = s.byte e p := by
  have ha := addr_of_ne s d e p hne hp
  have hs := wf_size hc
  have hh := (wf_ilk hc).2.1
  have hb := wf_var_bounds hc s.cfg.layout.dispatchTs (by simp [Layout.varFields])
  have h4 : interlockLen = 4 := rfl
  unfold State.byte
  rw [fetched_addr]
  refine read_fetched_outside s hc d x draws _ ?_ ?_ <;>
    unfold State.addr descAddr State.layout at * <;> omega

/-- HW_COMPLETE leaves the other descriptors. -/
theorem byte_completed_of_ne (s : State) (hc : s.cfg.wf = true) (d : Nat) (x : Desc) (n e p : Nat)
    (hne : e ≠ d) (hp : p < s.layout.size) :
    (completed s d x (completionDraws s.layout n)).byte e p = s.byte e p := by
  have ha := addr_of_ne s d e p hne hp
  have hs := wf_size hc
  have hh := (wf_ilk hc).2.1
  have h4 : interlockLen = 4 := rfl
  unfold State.byte
  rw [completed_addr]
  refine read_completed_outside s hc d x n _ ?_ ?_ <;>
    unfold State.addr descAddr State.layout at * <;> omega

/-- An atomic OR leaves the other descriptors. -/
theorem byte_atomicOr32_of_ne (s : State) (h4 : interlockLen ≤ s.layout.size) (d : Nat)
    (m : Interlock) (e p : Nat) (hne : e ≠ d) (hp : p < s.layout.size) :
    (s.atomicOr32 d m).byte e p = s.byte e p :=
  (byte_atomicWrite32 s d _ e p hp h4).trans (if_neg fun h => hne h.1)

/-! Every store into descriptor memory keeps the canonical form. -/

theorem wf_memWrite (s : State) (d o : Nat) (bs : List Byte) (h : s.mem.wf s.layout = true) :
    (s.memWrite d o bs).mem.wf s.layout = true := wf_writeBytes _ _ _ _ h

theorem wf_memWriteRuns (s : State) (d : Nat) (rs : List (Nat × List Byte))
    (h : s.mem.wf s.layout = true) : (s.memWriteRuns d rs).mem.wf s.layout = true :=
  wf_writeRuns _ _ _ _ h

theorem wf_atomicWrite32 (s : State) (d : Nat) (w : Interlock) (h : s.mem.wf s.layout = true) :
    (s.atomicWrite32 d w).mem.wf s.layout = true := wf_memWrite s d 0 _ h

theorem wf_atomicOr32 (s : State) (d : Nat) (m : Interlock) (h : s.mem.wf s.layout = true) :
    (s.atomicOr32 d m).mem.wf s.layout = true := wf_atomicWrite32 s d _ h

theorem wf_formatted (s : State) (d : Nat) (x : Desc) (img : List Byte)
    (h : s.mem.wf s.layout = true) : (formatted s d x img).mem.wf s.layout = true :=
  wf_atomicWrite32 (s.memWrite d interlockLen (img.drop interlockLen)) d
    ⟨invariantCrc s.cfg (img.take s.layout.invariantLen), 0, 0⟩ (wf_memWrite s d _ _ h)

theorem wf_fetched (s : State) (d : Nat) (x : Desc) (draws : FetchDraws)
    (h : s.mem.wf s.layout = true) : (fetched s d x draws).mem.wf s.layout = true :=
  wf_atomicOr32 ((s.acquire.setDesc d { x with snap := takeSnapshot s d draws }).memWrite d
      s.layout.dispatchTs.off (toBe s.layout.dispatchTs.len draws.ts.toNat)) d
    (maskFetched s.cfg.masks) (wf_memWrite _ _ _ _ h)

theorem wf_completed (s : State) (d : Nat) (x : Desc) (draws : CompletionDraws)
    (h : s.mem.wf s.layout = true) : (completed s d x draws).mem.wf s.layout = true :=
  wf_atomicOr32 (s.memWriteRuns d (completionRuns s.cfg x.snap draws)) d (maskCompleted s.cfg.masks)
    (wf_memWriteRuns s d _ h)

end Sys2Proof.Machine
end

