-- ==== Sys2Proof/Laws/Fifo.lean ====
section
/-! SUPPORT. What the shared operations of the staging FIFO do: one byte put, bytes dropped, and the bytes
held. -/

namespace Sys2Proof.Machine

@[simp] theorem put_push (f : Fifo) (b : Byte) : (f.put b).push = f.push + 1 := rfl

@[simp] theorem put_pop (f : Fifo) (b : Byte) : (f.put b).pop = f.pop := rfl

@[simp] theorem put_session (f : Fifo) (b : Byte) : (f.put b).session = f.session := rfl

@[simp] theorem drop_push (f : Fifo) (n : Byte) : (f.drop n).push = f.push := rfl

@[simp] theorem drop_pop (f : Fifo) (n : Byte) : (f.drop n).pop = f.pop + n := rfl

@[simp] theorem drop_store (f : Fifo) (n : Byte) : (f.drop n).store = f.store := rfl

@[simp] theorem drop_session (f : Fifo) (n : Byte) : (f.drop n).session = f.session := rfl

@[simp] theorem at_drop (f : Fifo) (n i : Byte) : (f.drop n).at i = f.at i := rfl

/-- `store` after one byte is put. -/
theorem at_put (f : Fifo) (b i : Byte) : (f.put b).at i = if i = f.push then b else f.at i := by
  unfold Fifo.put Fifo.at
  simp only [Vector.getElem_set]
  by_cases h : i = f.push
  · simp [h]
  · have : ¬f.push.toNat = i.toNat := fun h' => h (BitVec.eq_of_toNat_eq h'.symm)
    simp [h, this]

theorem used_lt (f : Fifo) : f.used < 256 := (f.push - f.pop).isLt

/-- Putting a byte where there is room counts one more. -/
theorem used_put (f : Fifo) (b : Byte) (h : f.used < 255) : (f.put b).used = f.used + 1 := by
  unfold Fifo.used at *
  simp only [put_push, put_pop]
  bv_omega

/-- Dropping bytes that are there counts that many less. -/
theorem used_drop (f : Fifo) (n : Byte) (h : n.toNat ≤ f.used) :
    (f.drop n).used = f.used - n.toNat := by
  unfold Fifo.used at *
  simp only [drop_push, drop_pop]
  bv_omega

@[simp] theorem length_held (f : Fifo) : f.held.length = f.used := by simp [Fifo.held]

/-- The byte put is the newest byte held. -/
theorem held_put (f : Fifo) (b : Byte) (h : f.used < 255) : (f.put b).held = f.held ++ [b] := by
  unfold Fifo.held
  rw [used_put f b h, List.range_succ, List.map_append]
  have hu : f.pop + BitVec.ofNat 8 f.used = f.push := by unfold Fifo.used; bv_omega
  congr 1
  · apply List.map_congr_left
    intro i hi
    rw [List.mem_range] at hi
    rw [at_put, put_pop, if_neg]
    intro he
    unfold Fifo.used at hi h
    bv_omega
  · simp [at_put, hu]

/-- The byte at the pop cursor is the oldest byte held, and dropping it leaves the others. -/
theorem held_drop_one (f : Fifo) (h : 1 ≤ f.used) : f.held = f.at f.pop :: (f.drop 1).held := by
  unfold Fifo.held
  rw [used_drop f 1 h]
  obtain ⟨n, hn⟩ : ∃ n, f.used = n + 1 := ⟨f.used - 1, by omega⟩
  rw [hn, List.range_succ_eq_map]
  simp only [List.map_cons, List.map_map, BitVec.ofNat_eq_ofNat, BitVec.add_zero, at_drop, drop_pop]
  congr 1
  apply List.map_congr_left
  intro i _
  simp only [Function.comp]
  congr 1
  bv_omega

end Sys2Proof.Machine
end

