-- ==== Sys2Proof/Laws/Overlay.lean ====
section
/-! SUPPORT. What laying out an overlay does: the fields of a well-formed overlay layout are read back, and
every byte of no field is 0x00. -/

namespace Sys2Proof.Machine

/-! The runs of each overlay stand where its layout puts its fields. -/

theorem map_runField_inflAsivRuns (o : OvlLayout) (f : InflFields) :
    (inflAsivRuns o f).map runField = o.inflAsivFields := rfl

theorem map_runField_deflAsivRuns (o : OvlLayout) (f : DeflFields) (h : f.ibits.length = 7) :
    (deflAsivRuns o f).map runField = o.deflAsivFields := by
  simp only [deflAsivRuns, prefixRuns, OvlLayout.deflAsivFields, PrefixLayout.fields, List.map_append,
    List.map_cons, List.map_nil, runField, h]
  rfl

theorem map_runField_inflAsvRuns (o : OvlLayout) (r : InflResult) :
    (inflAsvRuns o r).map runField = o.inflAsvFields := rfl

theorem map_runField_deflAsvRuns (o : OvlLayout) (r : DeflResult) :
    (deflAsvRuns o r).map runField = o.deflAsvFields r.otail.length := rfl

/-! Reading a layout back. -/

/-- A field of a fitting layout is read back. -/
theorem slice_of_fit {len : Nat} {fs : List Field} {runs : List (Nat × List Byte)}
    (hf : fieldsFit 0 len fs = true) (he : runs.map runField = fs) (r : Nat × List Byte)
    (hr : r ∈ runs) : slice (layOut len runs) r.1 r.2.length = r.2 := by
  subst he
  exact slice_layOut_mem _ _ _ (fit_bounds hf _ (List.mem_map_of_mem (f := runField) hr)).2
    (List.pairwise_map.mp (fit_pairwise hf)) hr

/-- A byte of no field is 0x00. -/
theorem zeroOutside_of_fit {len : Nat} {fs : List Field} {runs : List (Nat × List Byte)}
    (he : runs.map runField = fs) : Safety.ZeroOutside (layOut len runs) fs := by
  subst he
  intro o ho hc
  rw [length_layOut] at ho
  refine byteAt_layOut_outside _ _ _ ho fun f hf => ?_
  have := hc _ (List.mem_map_of_mem (f := runField) hf)
  rw [← Bool.not_eq_true, covers_iff] at this
  simp only [runField] at this
  omega

theorem be16At_of_slice (a : List Byte) (o : Nat) (v : U16) (h : slice a o 2 = toBe16 v) :
    be16At a o = v := by
  unfold be16At
  rw [← be16_toBe16 v, ← h, byteAt_slice _ _ _ _ (by decide), byteAt_slice _ _ _ _ (by decide)]
  rfl

theorem be32At_of_slice (a : List Byte) (o : Nat) (v : U32) (h : slice a o 4 = toBe32 v) :
    be32At a o = v := by
  unfold be32At
  rw [← be32_toBe32 v, ← h, byteAt_slice _ _ _ _ (by decide), byteAt_slice _ _ _ _ (by decide),
    byteAt_slice _ _ _ _ (by decide), byteAt_slice _ _ _ _ (by decide)]
  rfl

theorem be64At_of_slice (a : List Byte) (o : Nat) (v : U64) (h : slice a o 8 = toBe64 v) :
    be64At a o = v := by
  unfold be64At
  rw [← be64_toBe64 v, ← h, byteAt_slice _ _ _ _ (by decide), byteAt_slice _ _ _ _ (by decide),
    byteAt_slice _ _ _ _ (by decide), byteAt_slice _ _ _ _ (by decide),
    byteAt_slice _ _ _ _ (by decide), byteAt_slice _ _ _ _ (by decide),
    byteAt_slice _ _ _ _ (by decide), byteAt_slice _ _ _ _ (by decide)]
  rfl

theorem byteAt_of_slice (a : List Byte) (o : Nat) (b : Byte) (h : slice a o 1 = [b]) :
    byteAt a o = b := by
  have := byteAt_slice a o 1 0 (by decide)
  rw [h] at this
  exact this.symm

/-! The parts of `OvlLayout.wf`. -/

theorem wf_inflAsiv {c : Config} (h : c.wf = true) :
    fieldsFit 0 asivLen c.ovl.inflAsivFields = true := by
  have := wf_ovl h
  simp only [OvlLayout.wf, Bool.and_eq_true] at this; tauto

theorem wf_deflAsiv {c : Config} (h : c.wf = true) :
    fieldsFit 0 asivLen c.ovl.deflAsivFields = true := by
  have := wf_ovl h
  simp only [OvlLayout.wf, Bool.and_eq_true] at this; tauto

theorem wf_inflAsv {c : Config} (h : c.wf = true) :
    fieldsFit 0 asvLen c.ovl.inflAsvFields = true := by
  have := wf_ovl h
  simp only [OvlLayout.wf, Bool.and_eq_true] at this; tauto

theorem wf_deflAsv {c : Config} (h : c.wf = true) :
    fieldsFit 0 asvLen (c.ovl.deflAsvFields c.otailLen) = true := by
  have := wf_ovl h
  simp only [OvlLayout.wf, Bool.and_eq_true] at this; tauto

end Sys2Proof.Machine
end

