-- ==== Sys2Proof/Laws/PerInstr.lean ====
section
/-! SUPPORT. A family of statements with one lemma per instruction: the request of a well-formed instruction
has the one length that 30_encoding.md rule R121 gives its operation. -/

namespace Sys2Proof.Laws.RequestLength

open Sys2Proof Sys2Proof.Machine

/-- R121: the encoded request has the length the operand table fixes, read from the request itself where an
operand carries a length. -/
def Statement (i : Instr) : Prop :=
  ∀ c : Config, WellFormed c i = true →
    (encode c i).length = requestLength c (encode c i) (instrOpcode i)

/-- The request gives back CRC16's length operand. -/
theorem crcLength_encode (c : Config) (init : U16) (n : Nat) (data : List Byte)
    (h : n < 2 ^ c.crcLenBits) : crcLength c (encode c (.crc16 init n data)) = n := by
  have := beAt_toBe_middle ([c.opCodes.crc16] ++ toBe16 init) data n c.crcLenBits h
  simpa [encode, encodeOperands, crcLength, opcodeByte, instrOpcode, nBytes, toBe16] using this

/-- The request gives back FORMAT's sequence number. -/
theorem seqNumber_encode (c : Config) (d acfunc cmd : Byte) (opts : U16) (seq : Nat) (ats : U64)
    (alen : Byte) (asiv : List Byte) (h : seq < 2 ^ c.seqWidth) :
    seqNumber c (encode c (.format d acfunc cmd opts seq ats alen asiv)) = seq := by
  have := beAt_toBe_middle ([c.opCodes.format, d, acfunc, cmd] ++ toBe16 opts)
    ((if c.atsPresent then toBe64 ats else []) ++ [alen] ++ asiv) seq c.seqWidth h
  simpa [encode, encodeOperands, seqNumber, opcodeByte, instrOpcode, seqBytes, toBe16] using this

/-- `alen` stands behind `ats`, when that is there. -/
theorem alen_encode (c : Config) (d acfunc cmd : Byte) (opts : U16) (seq : Nat) (ats : U64)
    (alen : Byte) (asiv : List Byte) :
    byteAt (encode c (.format d acfunc cmd opts seq ats alen asiv)) (offAlen c) = alen := by
  have key : ∀ (before after : List Byte) (k : Nat), before.length = k →
      byteAt (before ++ alen :: after) k = alen := by
    rintro before after k rfl
    simp [byteAt]
  have := key ([c.opCodes.format, d, acfunc, cmd] ++ toBe16 opts ++ toBe (seqBytes c) seq
      ++ (if c.atsPresent then toBe64 ats else [])) asiv (offAlen c) (by
    unfold offAlen offAts
    split <;> simp [length_toBe16, length_toBe64] <;> omega)
  simpa [encode, encodeOperands, opcodeByte, instrOpcode] using this

/-- `n` is read from the request, behind `init`. -/
theorem crc16 (init : U16) (n : Nat) (data : List Byte) : Statement (.crc16 init n data) := by
  intro c h
  simp only [WellFormed, Bool.and_eq_true, beq_iff_eq, decide_eq_true_eq] at h
  simp only [instrOpcode, requestLength]
  rw [crcLength_encode c init n data h.2]
  simp [encode, encodeOperands, h.1]
  omega

theorem format (d acfunc cmd : Byte) (opts : U16) (seq : Nat) (ats : U64) (alen : Byte)
    (asiv : List Byte) : Statement (.format d acfunc cmd opts seq ats alen asiv) := by
  intro c h
  simp only [WellFormed, Bool.and_eq_true, beq_iff_eq, decide_eq_true_eq] at h
  simp only [instrOpcode, requestLength]
  rw [alen_encode]
  unfold offAlen offAts
  cases hc : c.atsPresent <;>
    simp [encode, encodeOperands, h.1.1, hc] <;> omega

theorem submitMarker (d : Byte) : Statement (.submitMarker d) := fun _ _ => rfl
theorem purgeMarker (d : Byte) : Statement (.purgeMarker d) := fun _ _ => rfl
theorem isFetched (d : Byte) : Statement (.isFetched d) := fun _ _ => rfl
theorem isCompleted (d : Byte) : Statement (.isCompleted d) := fun _ _ => rfl
theorem verifyVariantCrc (d : Byte) : Statement (.verifyVariantCrc d) := fun _ _ => rfl
theorem result (d : Byte) : Statement (.result d) := fun _ _ => rfl
theorem verifyInvariantCrc (d : Byte) : Statement (.verifyInvariantCrc d) := fun _ _ => rfl
theorem hwFetch (d : Byte) : Statement (.hwFetch d) := fun _ _ => rfl
theorem hwComplete (d : Byte) : Statement (.hwComplete d) := fun _ _ => rfl
theorem encInflAsiv (opts : U16) (p : InflParams) : Statement (.encInflAsiv opts p) := by
  intro c _
  simp [requestLength, instrOpcode, encode, encodeOperands]

theorem encDeflAsiv (opts : U16) (p : DeflParams) : Statement (.encDeflAsiv opts p) := by
  intro c h
  have hl : p.ibits.length = 7 := by simpa [WellFormed] using h
  simp [requestLength, instrOpcode, encode, encodeOperands, hl]

theorem decInflAsv (cmd : Byte) (asv : List Byte) : Statement (.decInflAsv cmd asv) := by
  intro c h
  have hl : asv.length = 64 := by simpa [WellFormed] using h
  simp [requestLength, instrOpcode, encode, encodeOperands, hl]

theorem decDeflAsv (cmd : Byte) (asv : List Byte) : Statement (.decDeflAsv cmd asv) := by
  intro c h
  have hl : asv.length = 64 := by simpa [WellFormed] using h
  simp [requestLength, instrOpcode, encode, encodeOperands, hl]

theorem carry (onumbits k : Byte) (otail : List Byte) : Statement (.carry onumbits k otail) := by
  intro c h
  have hl : otail.length = c.otailLen := by simpa [WellFormed] using h
  simp [requestLength, instrOpcode, encode, encodeOperands, hl]
  omega

theorem decInflAsiv (cmd : Byte) (asiv : List Byte) : Statement (.decInflAsiv cmd asiv) := by
  intro c h
  have hl : asiv.length = 96 := by simpa [WellFormed] using h
  simp [requestLength, instrOpcode, encode, encodeOperands, hl]

theorem decDeflAsiv (cmd : Byte) (asiv : List Byte) : Statement (.decDeflAsiv cmd asiv) := by
  intro c h
  have hl : asiv.length = 96 := by simpa [WellFormed] using h
  simp [requestLength, instrOpcode, encode, encodeOperands, hl]

theorem encInflAsv (r : InflResult) : Statement (.encInflAsv r) := fun _ _ => rfl

theorem encDeflAsv (r : DeflResult) : Statement (.encDeflAsv r) := by
  intro c h
  have hl : r.otail.length = c.otailLen := by simpa [WellFormed] using h
  simp [requestLength, instrOpcode, encode, encodeOperands, hl]
  omega

theorem fifoInit : Statement .fifoInit := fun _ _ => rfl
theorem push (b : Byte) : Statement (.push b) := fun _ _ => rfl
theorem push32 (v : U32) : Statement (.push32 v) := fun _ _ => rfl
theorem pop : Statement .pop := fun _ _ => rfl
theorem pop16 : Statement .pop16 := fun _ _ => rfl
theorem used : Statement .used := fun _ _ => rfl
theorem free : Statement .free := fun _ _ => rfl

end Sys2Proof.Laws.RequestLength
end

