-- ==== Sys2Proof/Tests/Slice0.lean ====
section
/-! SUPPORT. The model's own tests. Expected values come from spec/95_test_vectors.md (the vector's name
stands in the docstring) or are written out from the operand table of 30_encoding.md rule R121. The
theorems `witness_<statement>` show that the hypotheses of an obligation can be met. -/

namespace Sys2Proof.Tests

open Sys2Proof Sys2Proof.Machine Sys2Proof.Safety

/-! ### Helpers -/

/-- A list of `n` zero bytes. -/
def zeros (n : Nat) : List Byte := List.replicate n 0

/-- A value of the state after an operation that answered. -/
def after {α : Type} (o : Out) (f : State → α) : Option α :=
  match o with
  | .next t => some (f t)
  | .fault _ => none
  | .refused _ => none

/-- The reason an operation is refused. -/
def refusal (o : Out) : Option Refusal :=
  match o with
  | .next _ => none
  | .fault _ => none
  | .refused r => some r

/-- One cell, or none where the unlisted byte is already 0x00. -/
def flagCell (a : Nat) (b : Byte) : Memory := if b = 0 then [] else [(a, b)]

/-- The record of descriptor 0 after boot. -/
def boot0 : Desc := Desc.boot Config.default 0

/-- The record of descriptor 0 with the given ghost flags. -/
def desc (fmt obs : Bool) : Desc := { boot0 with fmt := fmt, swObsDone := obs }

/-- Descriptor 0 with CRC 0x7F74 (V-D1), the given flags and ghost flags, presented to by agent `a`. -/
def machine (a : Agent) (hsi shi : Byte) (fmt obs : Bool) : State :=
  { State.reset with
    mem := [(0, 0x7F), (1, 0x74)] ++ flagCell 2 hsi ++ flagCell 3 shi
    descs := [desc fmt obs]
    issuer := a }

/-- A machine whose FIFO has the given cursors. -/
def staging (push pop : Byte) : State :=
  { State.reset with fifo := { Fifo.boot with push := push, pop := pop }, issuer := .owner 0 }

/-- A machine whose HW agent presents. -/
def hardware : State := { State.reset with issuer := .hw }

/-- The interlock word of descriptor 0. -/
def word (s : State) : U32 := (s.atomicRead32 0).word s.cfg.layout

/-- The default configuration is well formed. -/
theorem wf_default : Config.default.wf = true := by decide +kernel

/-! ### Ill-formed terms are refused -/

theorem test_wf_crc16 : WellFormed Config.default (.crc16 0 2 [1]) = false := by decide
theorem test_wf_crc16_wide :
    WellFormed { Config.default with crcLenBits := 1 } (.crc16 0 2 [1, 2]) = false := by decide
theorem test_wf_format_seq : WellFormed Config.default (.format 0 1 1 0 65536 0 0 []) = false := by
  decide
theorem test_wf_format_asiv : WellFormed Config.default (.format 0 1 1 0 0 0 2 [1]) = false := by
  decide
theorem test_wf_format_ats :
    WellFormed { Config.default with atsPresent := false } (.format 0 1 1 0 0 5 0 []) = false := by
  decide
theorem test_wf_decInflAsv : WellFormed Config.default (.decInflAsv 1 (zeros 63)) = false := by decide
theorem test_wf_decDeflAsv : WellFormed Config.default (.decDeflAsv 2 (zeros 65)) = false := by decide
theorem test_wf_carry : WellFormed Config.default (.carry 0 0 (zeros 30)) = false := by decide
theorem test_wf_decInflAsiv : WellFormed Config.default (.decInflAsiv 1 (zeros 95)) = false := by
  decide
theorem test_wf_decDeflAsiv : WellFormed Config.default (.decDeflAsiv 2 (zeros 97)) = false := by
  decide

/-- The deflate operands of V-O15, with another `ibits` and `inumbits`. -/
def deflParams (ibits : List Byte) (inumbits : Byte) : DeflParams where
  inBuff := 0x10000400
  inBuffLen := 512
  inCrc32 := 0x11111111
  outBuff := 0x20000000
  outBuffLen := 4096
  inAdler32 := 0x22222222
  inDict := 0
  inDictLen := 0
  outDict := 0
  outDictLen := 0
  ibits := ibits
  inumbits := inumbits
  inKind := .flat
  outKind := .flat

/-- The inflate operands of V-O1, with the operands V-O2 to V-O6 change. -/
def inflParams (scratch : U64) (scratchLen : U32) (outDict : U64) (outDictLen : U32)
    (kind : BufKind) : InflParams where
  inBuff := 0x10000000
  inBuffLen := 1024
  inCrc32 := 0
  outBuff := 0x20000000
  outBuffLen := 4096
  inAdler32 := 1
  inDict := 0
  inDictLen := 0
  scratch := scratch
  scratchLen := scratchLen
  inHdrBits := 0
  hdrIb := 0
  scratchIb := 0
  outDict := outDict
  outDictLen := outDictLen
  inKind := kind
  outKind := kind

/-- The deflate result of V-O14. -/
def deflResult (otail : List Byte) : DeflResult where
  outDictUsed := 0
  onumbits := 11
  outCrc32 := 0x11111111
  outAdler32 := 0x22222222
  inpProcessed := 1024
  outpReturned := 300
  otail := otail

/-- The inflate result of V-O12. -/
def inflResult : InflResult where
  outDictUsed := 0
  copyblockLen := 0
  inflStat := 0x0D
  hdrStart := 0
  hdrStartBits := 0
  outCrc32 := 0xCBF43926
  outAdler32 := 0x091E01DE
  inpProcessed := 1024
  outpReturned := 3000
  outDictOffs := 0

theorem test_wf_encDeflAsiv :
    WellFormed Config.default (.encDeflAsiv 0 (deflParams (zeros 6) 0)) = false := by decide
theorem test_wf_encDeflAsv :
    WellFormed Config.default (.encDeflAsv (deflResult (zeros 32))) = false := by decide

/-! ### Requests written out from R121 -/

/-- V-C8. -/
theorem test_decode_crc16 :
    decode Config.default [0x10, 0x0E, 0x7C, 0x00, 0x02, 0x03, 0x04] =
      .ok (.crc16 0x0E7C 2 [0x03, 0x04]) := by decide
theorem test_decode_format :
    decode Config.default [0x20, 0x00, 0x01, 0x02, 0x00, 0x44, 0x00, 0x03,
      0x11, 0x22, 0x33, 0x44, 0x55, 0x66, 0x77, 0x88, 0x01, 0xAB] =
      .ok (.format 0 1 2 0x0044 0x0003 0x1122334455667788 1 [0xAB]) := by decide
/-- V-D8: without `ATS_PRESENT` there is no `ats` operand. -/
theorem test_decode_format_no_ats :
    decode { Config.default with atsPresent := false }
      [0x20, 0x00, 0x01, 0x02, 0x00, 0x44, 0x00, 0x03, 0x01, 0xAB] =
      .ok (.format 0 1 2 0x0044 0x0003 0 1 [0xAB]) := by decide
/-- `SEQ_WIDTH` of 20 bits: three bytes, of which the first holds four bits. -/
theorem test_decode_format_wide_seq :
    decode { Config.default with seqWidth := 20, atsPresent := false }
        [0x20, 0x00, 0x01, 0x02, 0x00, 0x44, 0x0A, 0x00, 0x03, 0x01, 0xAB] =
        .ok (.format 0 1 2 0x0044 0x0A0003 0 1 [0xAB]) ∧
      decode { Config.default with seqWidth := 20, atsPresent := false }
        [0x20, 0x00, 0x01, 0x02, 0x00, 0x44, 0x10, 0x00, 0x03, 0x01, 0xAB] =
        .error (.operandTooWide 0x100003) := by decide
theorem test_decode_submitMarker :
    decode Config.default [0x21, 0x03] = .ok (.submitMarker 3) := by decide
theorem test_decode_purgeMarker :
    decode Config.default [0x22, 0x03] = .ok (.purgeMarker 3) := by decide
theorem test_decode_isFetched : decode Config.default [0x23, 0xFF] = .ok (.isFetched 255) := by
  decide
theorem test_decode_isCompleted : decode Config.default [0x24, 0x00] = .ok (.isCompleted 0) := by
  decide
theorem test_decode_verifyVariantCrc :
    decode Config.default [0x25, 0x01] = .ok (.verifyVariantCrc 1) := by decide
theorem test_decode_result : decode Config.default [0x26, 0x01] = .ok (.result 1) := by decide
theorem test_decode_verifyInvariantCrc :
    decode Config.default [0x27, 0x01] = .ok (.verifyInvariantCrc 1) := by decide
theorem test_decode_hwFetch : decode Config.default [0x30, 0x01] = .ok (.hwFetch 1) := by decide
theorem test_decode_hwComplete : decode Config.default [0x31, 0x01] = .ok (.hwComplete 1) := by
  decide
/-- Every field differs; `kinds` = 0x02: flat input, `SegList` output. -/
theorem test_decode_encInflAsiv :
    decode Config.default
      ([0x40, 0x00, 0x24, 0x02] ++ [0, 0, 0, 1, 0, 0, 0, 2] ++ [0, 0, 0, 3] ++ [0, 0, 0, 4]
        ++ [0, 0, 0, 5, 0, 0, 0, 6] ++ [0, 0, 0, 7] ++ [0, 0, 0, 8]
        ++ [0, 0, 0, 9, 0, 0, 0, 10] ++ [0, 0, 0, 11] ++ [0, 0, 0, 12, 0, 0, 0, 13]
        ++ [0, 0, 0, 14] ++ [0, 15, 16, 17] ++ [0, 0, 0, 18, 0, 0, 0, 19] ++ [0, 0, 0, 20]) =
      .ok (.encInflAsiv 0x0024
        { inBuff := 0x100000002, inBuffLen := 3, inCrc32 := 4, outBuff := 0x500000006,
          outBuffLen := 7, inAdler32 := 8, inDict := 0x90000000A, inDictLen := 11,
          scratch := 0xC0000000D, scratchLen := 14, inHdrBits := 15, hdrIb := 16, scratchIb := 17,
          outDict := 0x1200000013, outDictLen := 20, inKind := .flat, outKind := .segList }) := by
  decide
theorem test_decode_encDeflAsiv :
    decode Config.default
      ([0x41, 0x00, 0x05, 0x01] ++ [0, 0, 0, 1, 0, 0, 0, 2] ++ [0, 0, 0, 3] ++ [0, 0, 0, 4]
        ++ [0, 0, 0, 5, 0, 0, 0, 6] ++ [0, 0, 0, 7] ++ [0, 0, 0, 8]
        ++ [0, 0, 0, 9, 0, 0, 0, 10] ++ [0, 0, 0, 11] ++ [0, 0, 0, 12, 0, 0, 0, 13]
        ++ [0, 0, 0, 14] ++ [1, 2, 3, 4, 5, 6, 7] ++ [15]) =
      .ok (.encDeflAsiv 0x0005
        { inBuff := 0x100000002, inBuffLen := 3, inCrc32 := 4, outBuff := 0x500000006,
          outBuffLen := 7, inAdler32 := 8, inDict := 0x90000000A, inDictLen := 11,
          outDict := 0xC0000000D, outDictLen := 14, ibits := [1, 2, 3, 4, 5, 6, 7],
          inumbits := 15, inKind := .segList, outKind := .flat }) := by
  decide
theorem test_decode_reserved_kinds :
    decode Config.default ([0x41, 0x00, 0x00, 0x04] ++ zeros 64) = .error (.reservedKinds 4) := by
  decide
theorem test_decode_decInflAsv :
    decode Config.default ([0x42, 0x01, 0xAA] ++ zeros 63) =
      .ok (.decInflAsv 1 (0xAA :: zeros 63)) := by decide
theorem test_decode_decDeflAsv :
    decode Config.default ([0x43, 0x02, 0xAA] ++ zeros 63) =
      .ok (.decDeflAsv 2 (0xAA :: zeros 63)) := by decide
/-- P4 step 4. -/
theorem test_decode_carry :
    decode Config.default ([0x44, 0x0B, 0x01, 0xA7, 0x05] ++ zeros 29) =
      .ok (.carry 11 1 ([0xA7, 0x05] ++ zeros 29)) := by decide
theorem test_decode_decInflAsiv :
    decode Config.default ([0x46, 0x01, 0xAA] ++ zeros 95) =
      .ok (.decInflAsiv 1 (0xAA :: zeros 95)) := by decide
theorem test_decode_decDeflAsiv :
    decode Config.default ([0x47, 0x02, 0xAA] ++ zeros 95) =
      .ok (.decDeflAsiv 2 (0xAA :: zeros 95)) := by decide
theorem test_decode_encInflAsv :
    decode Config.default [0x48, 0, 1, 2, 3, 0, 0, 0, 4, 5, 0, 0, 0, 6, 0, 0, 0, 7, 0, 0, 0, 8,
      0, 0, 0, 9, 10] =
      .ok (.encInflAsv
        { outDictUsed := 1, copyblockLen := 2, inflStat := 3, hdrStart := 4, hdrStartBits := 5,
          outCrc32 := 6, outAdler32 := 7, inpProcessed := 8, outpReturned := 9,
          outDictOffs := 10 }) := by decide
theorem test_decode_encDeflAsv :
    decode Config.default
      ([0x49, 0, 0, 11] ++ [0x11, 0x11, 0x11, 0x11] ++ [0x22, 0x22, 0x22, 0x22] ++ [0, 0, 4, 0]
        ++ [0, 0, 1, 0x2C] ++ [0xA7, 0x05] ++ zeros 29) =
      .ok (.encDeflAsv (deflResult ([0xA7, 0x05] ++ zeros 29))) := by decide
theorem test_decode_fifoInit : decode Config.default [0x50] = .ok .fifoInit := by decide
theorem test_decode_push : decode Config.default [0x51, 0x5A] = .ok (.push 0x5A) := by decide
theorem test_decode_push32 :
    decode Config.default [0x52, 0xDD, 0xCC, 0xBB, 0xAA] = .ok (.push32 0xAABBCCDD) := by decide
theorem test_decode_pop : decode Config.default [0x53] = .ok .pop := by decide
theorem test_decode_pop16 : decode Config.default [0x54] = .ok .pop16 := by decide
theorem test_decode_used : decode Config.default [0x55] = .ok .used := by decide
theorem test_decode_free : decode Config.default [0x56] = .ok .free := by decide
theorem test_decode_too_short : decode Config.default [0x51] = .error .tooShort := by decide
theorem test_decode_too_long : decode Config.default [0x50, 0x00] = .error .tooLong := by decide
/-- V-E7. -/
theorem test_decode_unlisted : decode Config.default [0x45] = .error (.unknownCode 0x45) := by decide
/-- FORMAT's opcode-table word, operands zero. -/
theorem test_table_word : decodeTableWord 8 0x20 = some (.format 0 0 0 0 0 0 0 []) := by decide

/-! ### One step each -/

/-- V-C8. -/
theorem test_crc16_continued :
    after (exec (.crc16 0x0E7C 2 [0x03, 0x04]) State.reset) State.answer =
      some (some ⟨.ok, .crc 0x89C3⟩) := by decide +kernel
/-- V-C10: ASCII "123456789". -/
theorem test_crc16_check_value :
    crc16 [0x31, 0x32, 0x33, 0x34, 0x35, 0x36, 0x37, 0x38, 0x39] 0xFFFF = 0x29B1 := by
  decide +kernel
/-- V-C17: the variant CRC of an all-zero ASV. -/
theorem test_crc16_zero_asv : variantCrc (zeros 64) = 0xD6DA := by
  unfold variantCrc
  rw [crc16_eq_strict]
  decide

/-- V-D1: the interlock word FORMAT stores. -/
theorem test_format_word :
    word (formatted State.reset 0 (boot0) (formatImage Config.default 1 1 0 1 0 [])) =
      0x7F740000 := by
  unfold word
  rw [atomicRead32_formatted State.reset wf_default 0 boot0 _
    (length_formatImage Config.default 1 1 0 1 0 []), if_pos rfl]
  show Interlock.word Layout.default ⟨invariantCrc Config.default _, 0, 0⟩ = _
  unfold invariantCrc
  rw [crc16_eq_strict]
  decide +kernel
/-- V-D7: one byte too many. -/
theorem test_format_too_large :
    exec (.format 0 1 1 0 1 0 97 (zeros 97)) State.reset =
      .next { State.reset with answer := some ⟨.payloadTooLarge, .empty⟩ } := by rfl
/-- V-I1. -/
theorem test_submitMarker :
    after (exec (.submitMarker 0) (machine (.sw 0) 0 0 true false)) word = some 0x7F740001 := by
  decide
/-- V-I6: `fetched` and `purge` are kept. -/
theorem test_submitMarker_keeps :
    after (exec (.submitMarker 0) (machine (.sw 0) 0x04 0x03 true false)) word =
      some 0x7F740403 := by decide
/-- V-I5. -/
theorem test_purgeMarker :
    after (exec (.purgeMarker 0) (machine (.sw 0) 0x04 0x01 true false)) word =
      some 0x7F740403 := by decide
/-- V-I13. -/
theorem test_purgeMarker_observed :
    refusal (exec (.purgeMarker 0) (machine (.sw 0) 0x44 0x03 true true)) =
      some .purgeOutsideWindow := by decide
/-- V-I3. -/
theorem test_isFetched_next :
    after (exec (.isFetched 0) (machine (.sw 0) 0 0x01 true false)) State.answer =
      some (some ⟨.ok, .flag false⟩) := by decide
/-- V-I8. -/
theorem test_isFetched_completed :
    after (exec (.isFetched 0) (machine (.sw 0) 0x44 0x03 true false)) State.answer =
      some (some ⟨.ok, .flag true⟩) := by decide
/-- V-I3: nothing is observed. -/
theorem test_isCompleted_fetched :
    after (exec (.isCompleted 0) (machine (.sw 0) 0x04 0x01 true false)) (fun t =>
      (t.answer, t.descs.map Desc.swObsDone)) = some (some ⟨.ok, .flag false⟩, [false]) := by decide
/-- V-I8: `sw_obs_done` becomes true. -/
theorem test_isCompleted_observes :
    after (exec (.isCompleted 0) (machine (.sw 0) 0x44 0x03 true false)) (fun t =>
      (t.answer, t.descs.map Desc.swObsDone)) = some (some ⟨.ok, .flag true⟩, [true]) := by decide
/-- V-E1. -/
theorem test_result_fetched :
    after (exec (.result 0) (machine (.sw 0) 0x04 0x01 true false)) State.answer =
      some (some ⟨.notCompleted, .empty⟩) := by decide
/-- V-I4. -/
theorem test_hwFetch_word :
    after (exec (.hwFetch 0) (machine .hw 0 0x01 true false)) word = some 0x7F740401 := by decide
/-- V-I11. -/
theorem test_hwFetch_formatted :
    refusal (exec (.hwFetch 0) (machine .hw 0 0 true false)) = some .fetchOutsideNext := by decide
/-- V-I7. -/
theorem test_hwComplete_word :
    after (exec (.hwComplete 0) (machine .hw 0x04 0x03 true false)) word = some 0x7F744403 := by
  decide +kernel
/-- V-I11. -/
theorem test_hwComplete_next :
    refusal (exec (.hwComplete 0) (machine .hw 0 0x01 true false)) =
      some .completeOutsideFetched := by decide

/-- V-O1. -/
theorem test_encInflAsiv :
    after (exec (.encInflAsiv 0 (inflParams 0 0 0 0 .flat)) State.reset) State.answer =
      some (some ⟨.ok, .bytes
        ([0x00, 0x00, 0x00, 0x00, 0x10, 0x00, 0x00, 0x00, 0x00, 0x00, 0x04, 0x00,
          0x00, 0x00, 0x00, 0x00, 0x00, 0x00, 0x00, 0x00, 0x20, 0x00, 0x00, 0x00,
          0x00, 0x00, 0x10, 0x00, 0x00, 0x00, 0x00, 0x01] ++ zeros 64)⟩) := by decide
/-- V-O5: checked before `MissingWorkspace`. -/
theorem test_encInflAsiv_bad_option :
    after (exec (.encInflAsiv 0x0005 (inflParams 0 0 0 0 .flat)) State.reset) State.answer =
      some (some ⟨.badOptionCombination, .empty⟩) := by decide
/-- V-O15. -/
theorem test_encDeflAsiv :
    after (exec (.encDeflAsiv 0 (deflParams (0x05 :: zeros 6) 3)) State.reset) State.answer =
      some (some ⟨.ok, .bytes
        ([0x00, 0x00, 0x00, 0x00, 0x10, 0x00, 0x04, 0x00, 0x00, 0x00, 0x02, 0x00,
          0x11, 0x11, 0x11, 0x11, 0x00, 0x00, 0x00, 0x00, 0x20, 0x00, 0x00, 0x00,
          0x00, 0x00, 0x10, 0x00, 0x22, 0x22, 0x22, 0x22] ++ zeros 48
          ++ [0x05, 0x00, 0x00, 0x00, 0x00, 0x00, 0x00, 0x03] ++ zeros 8)⟩) := by decide
/-- V-O16. -/
theorem test_encDeflAsiv_too_wide :
    refusal (exec (.encDeflAsiv 0 (deflParams (zeros 7) 57)) State.reset) = some .carryTooWide := by
  decide

/-- `ASV1`, the 64 bytes of V-O12. -/
def asv1 : List Byte :=
  [0x00, 0x00, 0x00, 0x00, 0x0D, 0x00, 0x00, 0x00, 0x00, 0x00, 0x00, 0x00, 0x00, 0x00, 0x00, 0x00,
    0xCB, 0xF4, 0x39, 0x26, 0x09, 0x1E, 0x01, 0xDE, 0x00, 0x00, 0x04, 0x00, 0x00, 0x00, 0x0B, 0xB8]
    ++ zeros 32

/-- `ASV2`, the 64 bytes of V-O14. -/
def asv2 : List Byte :=
  [0x00, 0x00, 0x00, 0x00, 0x00, 0x0B, 0x00, 0x00, 0x00, 0x00, 0x00, 0x00, 0x00, 0x00, 0x00, 0x00,
    0x11, 0x11, 0x11, 0x11, 0x22, 0x22, 0x22, 0x22, 0x00, 0x00, 0x04, 0x00, 0x00, 0x00, 0x01, 0x2C,
    0xA7, 0x05] ++ zeros 30

/-- V-O12, and the flags of V-O11. -/
theorem test_decInflAsv :
    after (exec (.decInflAsv 1 asv1) State.reset) State.answer =
      some (some ⟨.ok, .inflResult inflResult ⟨true, true, true, 0, false⟩⟩) := by decide
/-- V-O13. -/
theorem test_decInflAsv_tag :
    after (exec (.decInflAsv 2 asv1) State.reset) State.answer =
      some (some ⟨.badCommand, .empty⟩) := by decide
/-- V-O14. -/
theorem test_decDeflAsv :
    after (exec (.decDeflAsv 2 asv2) State.reset) State.answer =
      some (some ⟨.ok, .deflResult (deflResult ([0xA7, 0x05] ++ zeros 29))⟩) := by decide
/-- V-O8, V-O9 and V-O10. -/
theorem test_inflStat :
    inflStatOf 0xAD = ⟨true, true, true, 1, true⟩ ∧ inflStatOf 0x12 = ⟨false, false, false, 0, false⟩ ∧
      inflStatOf 0x60 = ⟨false, false, false, 3, false⟩ := by decide
/-- V-O12 read backward. -/
theorem test_encInflAsv :
    after (exec (.encInflAsv inflResult) hardware) State.answer = some (some ⟨.ok, .bytes asv1⟩) := by
  decide
/-- V-O14 read backward. -/
theorem test_encDeflAsv :
    after (exec (.encDeflAsv (deflResult ([0xA7, 0x05] ++ zeros 29))) hardware) State.answer =
      some (some ⟨.ok, .bytes asv2⟩) := by decide
/-- V-O17, on the bytes of V-O2. -/
theorem test_decInflAsiv :
    after (exec (.decInflAsiv 1
      ([0x00, 0x00, 0x00, 0x00, 0x10, 0x00, 0x00, 0x00, 0x00, 0x00, 0x04, 0x00,
        0x00, 0x00, 0x00, 0x00, 0x00, 0x00, 0x00, 0x00, 0x20, 0x00, 0x00, 0x00,
        0x00, 0x00, 0x10, 0x00, 0x00, 0x00, 0x00, 0x01] ++ zeros 16
        ++ [0x00, 0x00, 0x00, 0x00, 0x40, 0x01, 0x00, 0x20, 0x00, 0x00, 0x20, 0x00,
          0x00, 0x00, 0x00, 0x00, 0x00, 0x00, 0x00, 0x00, 0x40, 0x00, 0x80, 0x10,
          0x00, 0x00, 0x80, 0x10] ++ zeros 20)) hardware) State.answer =
      some (some ⟨.ok, .inflFields
        (inflParams 0x40010020 0x2000 0x40008010 0x8010 .flat).toInflFields⟩) := by decide
/-- V-O15 read backward. -/
theorem test_decDeflAsiv :
    after (exec (.decDeflAsiv 2
      ([0x00, 0x00, 0x00, 0x00, 0x10, 0x00, 0x04, 0x00, 0x00, 0x00, 0x02, 0x00,
        0x11, 0x11, 0x11, 0x11, 0x00, 0x00, 0x00, 0x00, 0x20, 0x00, 0x00, 0x00,
        0x00, 0x00, 0x10, 0x00, 0x22, 0x22, 0x22, 0x22] ++ zeros 48
        ++ [0x05, 0x00, 0x00, 0x00, 0x00, 0x00, 0x00, 0x03] ++ zeros 8)) hardware) State.answer =
      some (some ⟨.ok, .deflFields (deflParams (0x05 :: zeros 6) 3).toDeflFields⟩) := by decide
/-- V-K1. -/
theorem test_carry :
    after (exec (.carry 11 1 ([0xA7, 0x05] ++ zeros 29)) State.reset) State.answer =
      some (some ⟨.ok, .carry [0xA7] (0x05 :: zeros 6) 3⟩) := by decide
/-- V-K6: 53 bits left, `otail` = 01 02 .. 1F. -/
theorem test_carry_seven_bytes :
    after (exec (.carry 61 1 ((List.range 31).map fun i => BitVec.ofNat 8 (i + 1))) State.reset)
      State.answer =
      some (some ⟨.ok, .carry [0x01] [0x02, 0x03, 0x04, 0x05, 0x06, 0x07, 0x08] 53⟩) := by decide
/-- V-O18. -/
theorem test_workspace :
    workspaceSlot 0x40000000 0 = 0x40000000 ∧ workspaceSlot 0x40000000 1 = 0x40008010 ∧
      workspaceTree 0x40000000 = 0x40010020 := by decide

/-- V-F1. -/
theorem test_fifoInit :
    after (exec .fifoInit (staging 7 3)) (fun t => (t.fifo.push, t.fifo.pop)) = some (0, 0) := by
  decide
/-- V-F4: a full FIFO. -/
theorem test_push_full :
    after (exec (.push 0xEE) (staging 255 0)) (fun t => (t.answer, t.fifo.push)) =
      some (some ⟨.stagingOverflow, .empty⟩, 255) := by decide
/-- V-F9: the write wraps. -/
theorem test_push32_wraps :
    after (exec (.push32 0x12345678) (staging 254 254)) (fun t =>
      (t.fifo.push, t.fifo.at 254, t.fifo.at 255, t.fifo.at 0, t.fifo.at 1)) =
      some (2, 0x78, 0x56, 0x34, 0x12) := by decide
/-- V-F7: not one byte is written. -/
theorem test_push32_no_room :
    after (exec (.push32 0xAABBCCDD) (staging 255 1)) (fun t =>
      (t.answer, t.fifo.push, t.fifo.at 255)) =
      some (some ⟨.stagingOverflow, .empty⟩, 255, 0) := by decide
/-- V-F2: a pushed byte comes out. -/
theorem test_push_pop :
    (after (exec (.push 0x5A) (staging 0 0)) fun t =>
      after (exec .pop t) fun u => (u.answer, u.fifo.push, u.fifo.pop)) =
      some (some (some ⟨.ok, .byte 0x5A⟩, 1, 1)) := by decide
/-- V-F11: one byte is not enough. -/
theorem test_pop16_one :
    after (exec .pop16 (staging 1 0)) (fun t => (t.answer, t.fifo.pop)) =
      some (some ⟨.stagingUnderflow, .empty⟩, 0) := by decide
/-- V-F10. -/
theorem test_pop16_order :
    (after (exec (.push32 0x12345678) (staging 254 254)) fun t =>
      after (exec .pop16 t) fun u => (u.answer, u.fifo.pop)) =
      some (some (some ⟨.ok, .half 0x5678⟩, 0)) := by decide
/-- V-F12. -/
theorem test_used :
    after (exec .used (staging 2 250)) State.answer = some (some ⟨.ok, .count 8⟩) := by decide
/-- V-F12. -/
theorem test_free :
    after (exec .free (staging 2 250)) State.answer = some (some ⟨.ok, .count 247⟩) := by decide

/-! ### A completed descriptor: program P6 after step 6 -/

/-- The 256 bytes of the descriptor. -/
def image : List Byte :=
  layOut 256 [(0x00, [0x7F, 0x74, 0x44, 0x03]), (0x06, [0x00, 0x01, 0x01, 0x01]),
    (0xC2, [0xD6, 0xDA]), (0xD2, [0x00, 0x01])]

/-- The record HW_FETCH and HW_COMPLETE left. -/
def doneDesc (obs : Bool) : Desc :=
  { desc true obs with snap := ⟨zeros 4 ++ slice image 4 124, true⟩ }

/-- The machine of P6 after step 6. -/
def done (a : Agent) (obs : Bool) : State :=
  { State.reset with
    mem := Memory.writeBytes Layout.default [] 0 image
    descs := [doneDesc obs]
    issuer := a }

theorem length_image : image.length = 256 := length_layOut ..

theorem done_cfg (a : Agent) (obs : Bool) : (done a obs).cfg = Config.default := rfl

theorem done_layout (a : Agent) (obs : Bool) : (done a obs).layout = Layout.default := rfl

theorem done_mem (a : Agent) (obs : Bool) :
    (done a obs).mem = Memory.writeBytes Layout.default [] 0 image := by
  simp only [done]

theorem byte_done (a : Agent) (obs : Bool) (o : Nat) (h : o < 256) :
    (done a obs).byte 0 o = byteAt image o := by
  unfold State.byte State.read State.addr
  rw [done_layout, done_mem, read_writeBytes, length_image]
  unfold descAddr
  rw [if_pos ⟨by omega, by omega⟩]
  congr 1
  omega

theorem memRead_done (a : Agent) (obs : Bool) (o n : Nat) (h : o + n ≤ 256) :
    (done a obs).memRead 0 o n = slice image o n := by
  have hi := length_image
  refine bytes_ext _ _ ?_ fun i hl => ?_
  · rw [length_slice _ _ _ (by omega), length_memRead]
  · rw [length_memRead] at hl
    rw [byteAt_slice _ _ _ _ hl, ← byte_done a obs (o + i) (by omega), byteAt_memRead _ _ _ _ _ hl]

theorem word_done (a : Agent) (obs : Bool) :
    (done a obs).atomicRead32 0 = ⟨0x7F74, 0x44, 0x03⟩ := by
  unfold State.atomicRead32
  rw [memRead_done _ _ _ _ (by decide), done_layout]
  decide

theorem phase_done (a : Agent) (obs : Bool) : (done a obs).phase 0 (doneDesc obs) = .completed := by
  unfold State.phase
  rw [word_done, done_cfg]
  cases obs <;> decide

theorem invariantCrcMatches_done (a : Agent) (obs : Bool) :
    (done a obs).invariantCrcMatches 0 = true := by
  unfold State.invariantCrcMatches State.invariantPart
  rw [word_done, done_layout, done_cfg, memRead_done _ _ _ _ (by decide)]
  show (invariantCrc Config.default _ == _) = true
  unfold invariantCrc
  rw [crc16_eq_strict]
  decide

theorem variantCrcMatches_done (a : Agent) (obs : Bool) :
    (done a obs).variantCrcMatches 0 = true := by
  unfold State.variantCrcMatches State.asvBytes State.storedVariantCrc State.fieldNat State.fieldBytes
  rw [done_layout, memRead_done _ _ _ _ (by decide), memRead_done _ _ _ _ (by decide)]
  unfold variantCrc
  rw [crc16_eq_strict]
  decide

/-- V-I10. -/
theorem test_verifyInvariantCrc :
    after (exec (.verifyInvariantCrc 0) (done (.sw 0) false)) State.answer =
      some (some ⟨.ok, .flag true⟩) := by
  show after (execVerifyInvariantCrc 0 _) _ = _
  unfold execVerifyInvariantCrc
  rw [admitted_eq _ _ _ (doneDesc false) _ ⟨by unfold RoleGranted; decide, rfl, rfl, rfl⟩,
    show (0 : Byte).toNat = 0 from rfl, phase_done, if_pos (by decide), invariantCrcMatches_done]
  rfl
/-- P6 step 8. -/
theorem test_verifyVariantCrc :
    after (exec (.verifyVariantCrc 0) (done (.sw 0) true)) State.answer =
      some (some ⟨.ok, .flag true⟩) := by
  show after (execVerifyVariantCrc 0 _) _ = _
  unfold execVerifyVariantCrc
  rw [admitted_eq _ _ _ (doneDesc true) _ ⟨by unfold RoleGranted; decide, rfl, rfl, rfl⟩,
    show (0 : Byte).toNat = 0 from rfl, phase_done, if_neg (by decide), variantCrcMatches_done]
  rfl
/-- P3 steps 10 and 15: the CRC of `ASV1`, and of `ASV1` with bit 0 of its byte 0x1F changed. -/
theorem test_variant_crc_of_asv :
    variantCrc asv1 = 0x2F28 ∧ variantCrc (putBytes asv1 0x1F [0xB9]) = 0xA2F4 := by
  unfold variantCrc
  rw [crc16_eq_strict, crc16_eq_strict]
  decide
/-- P6 step 7, V-E4: a failure by `attention_code` alone. -/
theorem test_result_attention :
    (done (.sw 0) false).returnCode 0 = 0 ∧ (done (.sw 0) false).attentionCode 0 = 1 ∧
      resultStatus Config.default 0 1 = .operationFailed ∧ resultStatus Config.default 0 0 = .ok ∧
      resultStatus { Config.default with retcOk := [0x102] } 0x102 0 = .ok := by
  unfold State.returnCode State.attentionCode State.fieldNat State.fieldBytes
  rw [done_layout, memRead_done _ _ _ _ (by decide), memRead_done _ _ _ _ (by decide)]
  decide +kernel

/-! ### Witnesses: the hypotheses of each obligation can be met -/

/-- A role is granted on a concrete machine. -/
theorem granted (s : State) (op : Opcode) (h : (rolesOf op).contains (roleOf s.issuer) = true) :
    RoleGranted s op := by
  simpa [RoleGranted] using h

/-- An operation on descriptor 0 of `machine` is admitted. -/
theorem admitted (a : Agent) (hsi shi : Byte) (fmt obs : Bool) (op : Opcode)
    (h : (rolesOf op).contains (roleOf a) = true) (ht : threadAllowed a 0 = true) :
    Admitted (machine a hsi shi fmt obs) op 0 (desc fmt obs) := ⟨granted _ _ h, rfl, rfl, ht⟩

/-- Both ends of the length operands. -/
theorem witness_DecodeEncodeRoundTrip :
    Config.default.opCodes.toList.Nodup ∧ WellFormed Config.default (.crc16 0xFFFF 0 []) = true ∧
      WellFormed Config.default (.format 0 1 1 0 1 0 255 (zeros 255)) = true ∧
      WellFormed { Config.default with atsPresent := false } (.format 0 1 1 0 1 0 0 []) = true :=
  ⟨by decide, by decide, by decide +kernel, by decide⟩

theorem witness_DecodedRequestIsItsEncoding : decode Config.default [0x50] = .ok .fifoInit := by decide

theorem witness_UnlistedCodesAreRefused :
    ({ State.reset with stream := [⟨.sw 0, [0x45]⟩] } : State).stream = ⟨.sw 0, [0x45]⟩ :: [] ∧
      (0x45 : Byte) ∉ State.reset.cfg.opCodes.toList := by decide

/-- A machine with one request in line. -/
def presented (a : Agent) (bs : List Byte) : State := { State.reset with stream := [⟨a, bs⟩] }

theorem witness_StepRunsPresentedInstruction :
    (presented (.sw 0) [0x24, 0x00]).stream = ⟨.sw 0, [0x24, 0x00]⟩ :: [] ∧
      decode Config.default [0x24, 0x00] = .ok (.isCompleted 0) ∧
      WellFormed Config.default (.isCompleted 0) = true ∧ State.reset.stream = [] := by decide

/-- One code of each role's list is another role's. -/
theorem witness_UngrantedRoleIsRefused :
    opcodeByte OpCodes.default (instrOpcode .fifoInit) = 0x50 ∧
      opcodeByte OpCodes.default (instrOpcode (.submitMarker 0)) = 0x21 ∧
      opcodeByte OpCodes.default (instrOpcode (.hwFetch 0)) = 0x30 ∧ State.reset.issuer = .sw 0 ∧
      hardware.issuer = .hw ∧ (staging 0 0).issuer = .owner 0 := by decide

/-- The first index past `NDESC`; a base of 2; another thread; another session. -/
theorem witness_InadmissibleOperationsStop :
    descriptorOf (.isFetched 1) = some 1 ∧ RoleGranted State.reset .isFetched ∧
      State.reset.descs[(1 : Byte).toNat]? = none ∧ ({ boot0 with base := 2 } : Desc).base % 4 ≠ 0 ∧
      State.reset.descs[(0 : Byte).toNat]? = some (boot0) ∧ (boot0).base % 4 = 0 ∧
      ({ State.reset with issuer := .sw 1 } : State).issuer = .sw 1 ∧ 1 ≠ (boot0).thread ∧
      ({ State.reset with issuer := .owner 1 } : State).issuer = .owner 1 ∧
      1 ≠ State.reset.fifo.session :=
  ⟨rfl, granted _ _ rfl, rfl, by decide, rfl, rfl, rfl, by decide, rfl, by decide⟩

theorem witness_StepKeepsFixedParts :
    ∃ t, step (presented (.owner 0) [0x51, 0x5A]) = .next t ∧ t.fifo.push = 1 := ⟨_, rfl, rfl⟩

theorem witness_BootLeavesWhatTheSpecStates :
    Config.default.wf = true ∧
      (State.boot Config.default 2).descs[1]? = some (Desc.boot Config.default 1) := ⟨wf_default, rfl⟩

theorem witness_BootSatisfiesInvariants : Config.default.wf = true := wf_default

theorem witness_DefaultInterlockWord : State.reset.cfg.layout = Layout.default := rfl

/-- Another configuration the statements range over: 512-byte descriptors, the interlock word in another order
with other masks, a 32-bit sequence number, header and variant fields at other offsets. -/
def otherConfig : Config :=
  { Config.default with
    layout :=
      { Layout.default with
        size := 512, shi := ⟨0, 1⟩, hsi := ⟨1, 1⟩, icrc := ⟨2, 2⟩, seq := ⟨0x14, 4⟩,
        acfunc := ⟨0x09, 2⟩, cmd := ⟨0x0B, 1⟩, opts := ⟨0x12, 2⟩, firmware := ⟨0x20, 8⟩,
        asiv := ⟨0x30, 104⟩, asv := ⟨0x100, 64⟩, variantCrc := ⟨0x99, 2⟩ }
    masks := ⟨0x80, 0x01, 0x02, 0x01⟩
    seqWidth := 32
    descAlign := 64
    opCodes := { OpCodes.default with crc16 := 0x56, free := 0x10 }
    errCodes := { ErrorCodes.default with badCommand := 77 } }

theorem test_other_config :
    otherConfig.wf = true ∧ (Desc.boot otherConfig 3).base = 1536 ∧
      { otherConfig with masks := ⟨0x80, 0x80, 0x02, 0x01⟩ }.wf = false ∧
      { otherConfig with descAlign := 6 }.wf = false ∧
      { otherConfig with layout := Layout.default }.wf = false ∧
      { otherConfig with opCodes := { OpCodes.default with crc16 := 0x56 } }.wf = false ∧
      { otherConfig with errCodes := { ErrorCodes.default with badCommand := 0 } }.wf = false := by
  decide +kernel

/-- The codes are the configuration's. -/
theorem test_other_codes :
    decode otherConfig [0x10] = .ok .free ∧ encode otherConfig .free = [0x10] ∧
      (⟨.badCommand, .empty⟩ : Answer).code otherConfig = 77 := by decide

/-- A memory that lists three bytes, and a step that writes a fourth. -/
theorem witness_StepKeepsMemoryCanonical :
    MemoryCanonical { machine (.sw 0) 0 0x01 true false with stream := [⟨.sw 0, [0x22, 0x00]⟩] } ∧
      ∃ t, step { machine (.sw 0) 0 0x01 true false with stream := [⟨.sw 0, [0x22, 0x00]⟩] } =
        .next t := ⟨by unfold MemoryCanonical; decide, ⟨_, rfl⟩⟩

/-- Every word of `machine`'s one descriptor that shows a legal cycle. -/
theorem legal (a : Agent) (hsi shi : Byte) (fmt obs : Bool)
    (h : (let w := (machine a hsi shi fmt obs).atomicRead32 0
      let m := FlagMasks.default
      w.reservedClear m && (!w.isFetched m || w.isNext m) && (!w.isCompleted m || w.isFetched m)
        && (!w.isNext m || fmt) && (!w.isPurged m || fmt) && (!obs || (fmt && w.isCompleted m)))
      = true) :
    InterlockLegal (machine a hsi shi fmt obs) := by
  intro d x hx
  have hd : d = 0 := by
    by_contra hne
    obtain ⟨k, rfl⟩ : ∃ k, d = k + 1 := ⟨d - 1, by omega⟩
    simp [machine] at hx
  subst hd
  obtain rfl : desc fmt obs = x := by simpa [machine] using hx
  simp only [Bool.and_eq_true] at h
  obtain ⟨⟨⟨⟨⟨h1, h2⟩, h3⟩, h4⟩, h5⟩, h6⟩ := h
  have imp : ∀ a b : Bool, (!a || b) = true → a = true → b = true := by decide
  refine ⟨h1, fun h => imp _ _ h2 h, fun h => imp _ _ h3 h, fun h => imp _ _ h4 h,
    fun h => imp _ _ h5 h, fun h => ?_⟩
  have := imp _ _ h6 h
  rwa [Bool.and_eq_true] at this

theorem witness_StepKeepsInterlockLegal :
    Config.default.wf = true ∧
      InterlockLegal (machine (.sw 0) 0x44 0x03 true true) ∧
      ∃ t, step { machine (.sw 0) 0x44 0x03 true true with stream := [⟨.sw 0, [0x21, 0x00]⟩] } =
        .next t := ⟨wf_default, legal _ _ _ _ _ (by decide), ⟨_, rfl⟩⟩

theorem sectionsProtected_done (a : Agent) (obs : Bool) : SectionsProtected (done a obs) := by
  intro d x hx _
  have hd : d = 0 := by
    by_contra hne
    obtain ⟨k, rfl⟩ : ∃ k, d = k + 1 := ⟨d - 1, by omega⟩
    simp [done] at hx
  subst hd
  obtain rfl : doneDesc obs = x := by simpa [done] using hx
  refine ⟨invariantCrcMatches_done a obs, fun _ _ => ⟨?_, rfl⟩, fun _ _ =>
    variantCrcMatches_done a obs⟩
  unfold State.invariantPart
  rw [done_layout, memRead_done _ _ _ _ (by decide)]
  rfl

theorem witness_StepKeepsSectionsProtected :
    Config.default.wf = true ∧
      SectionsProtected (done (.sw 0) true) ∧ ∃ t, step (done (.sw 0) true) = .next t :=
  ⟨wf_default, sectionsProtected_done _ _, ⟨_, rfl⟩⟩

theorem witness_FlagsOnlyGrowWithinCycle :
    Config.default.wf = true ∧
      ∃ t, exec (.submitMarker 0) (machine (.sw 0) 0 0x02 true false) = .next t ∧
      (machine (.sw 0) 0 0x02 true false).descs[0]? = some (desc true false) ∧
      t.descs[0]? = some (desc true false) ∧ isFormatOf (.submitMarker 0) 0 = false :=
  ⟨wf_default, _, rfl, rfl, rfl, rfl⟩

/-- A changed byte of the interlock word, at its last offset. -/
theorem witness_OwnershipTableIsRespected_word :
    Config.default.wf = true ∧
      InterlockLegal (machine (.sw 0) 0 0 true false) ∧
      ∃ t, exec (.submitMarker 0) (machine (.sw 0) 0 0 true false) = .next t ∧
        t.byte 0 3 ≠ (machine (.sw 0) 0 0 true false).byte 0 3 :=
  ⟨wf_default, legal _ _ _ _ _ (by decide), ⟨_, rfl, by decide⟩⟩

/-- A changed byte of the interlock word where SW may only set `purge`: SHI, before the observation. -/
theorem witness_OwnershipTableIsRespected_purge :
    InterlockLegal (machine (.sw 0) 0x44 0x01 true false) ∧
      ∃ t, exec (.purgeMarker 0) (machine (.sw 0) 0x44 0x01 true false) = .next t ∧
        t.byte 0 3 ≠ (machine (.sw 0) 0x44 0x01 true false).byte 0 3 :=
  ⟨legal _ _ _ _ _ (by decide), ⟨_, rfl, by decide⟩⟩

/-- A byte of the interlock word that HW changes: HSI, at its first offset. -/
theorem witness_OwnershipTableIsRespected_hardware :
    InterlockLegal (machine .hw 0 0x01 true false) ∧
      ∃ t, exec (.hwFetch 0) (machine .hw 0 0x01 true false) = .next t ∧
        t.byte 0 2 ≠ (machine .hw 0 0x01 true false).byte 0 2 :=
  ⟨legal _ _ _ _ _ (by decide), ⟨_, rfl, by decide⟩⟩

/-- A machine whose descriptor 0 is not formatted and holds 0xFF at offset 4. -/
def dirty : State := { State.reset with mem := [(4, 0xFF)] }

/-- A changed byte outside the interlock word, at the first such offset. -/
theorem witness_OwnershipTableIsRespected_byte :
    Config.default.wf = true ∧ InterlockLegal dirty ∧
      ∃ t, exec (.format 0 1 1 0 1 0 0 []) dirty = .next t ∧
      t.byte 0 4 ≠ dirty.byte 0 4 := by
  refine ⟨wf_default, ?_, { formatted dirty 0 (boot0) (formatImage Config.default 1 1 0 1 0 []) with
    answer := some ⟨.ok, .empty⟩ }, ?_, ?_⟩
  · intro d x hx
    have hd : d = 0 := by
      by_contra hne
      obtain ⟨k, rfl⟩ : ∃ k, d = k + 1 := ⟨d - 1, by omega⟩
      simp [dirty, State.reset, State.boot] at hx
    subst hd
    obtain rfl : boot0 = x := by simpa [dirty, State.reset, State.boot, boot0] using hx
    refine ⟨by decide, ?_, ?_, ?_, ?_, ?_⟩ <;> decide
  · show execFormat _ _ _ _ _ _ _ _ _ = _
    unfold execFormat
    rw [admitted_eq _ _ _ (boot0) _ ⟨granted _ _ rfl, rfl, rfl, rfl⟩, if_pos (by decide)]
    exact if_neg (by decide)
  · rw [byte_answer, byte_formatted dirty (by decide) 0 boot0 _
      (length_formatImage Config.default 1 1 0 1 0 []) 0 4 (by decide) (by decide), if_pos rfl]
    decide

theorem witness_DescriptorsAreIndependent :
    Config.default.wf = true ∧
      (∃ t, exec (.submitMarker 0) (machine (.sw 0) 0 0 true false) = .next t) ∧
      descriptorOf (.submitMarker 0) = some 0 ∧ (0 : Byte).toNat ≠ 1 ∧
      (∃ t, exec (.push 1) (staging 0 0) = .next t) ∧ descriptorOf (.push 1) = none ∧
      (∃ t, exec .used (staging 0 0) = .next t) ∧
      instrOpcode .used ∉ ([.fifoInit, .push, .push32, .pop, .pop16] : List Opcode) :=
  ⟨wf_default, ⟨_, rfl⟩, rfl, by decide, ⟨_, rfl⟩, rfl, ⟨_, rfl⟩, by decide⟩

theorem witness_FailedOperationsChangeNothing :
    ∃ t, exec (.result 0) (machine (.sw 0) 0x04 0x01 true false) = .next t ∧
      t.answer = some ⟨.notCompleted, .empty⟩ := ⟨_, rfl, rfl⟩

theorem witness_StatusesAreThoseOfTheErrorTable :
    (∃ t, exec .pop (staging 0 0) = .next t ∧ t.answer = some ⟨.stagingUnderflow, .empty⟩) ∧
      (staging 0 0).cfg.errCodes.toList.Nodup ∧
      statusCode (staging 0 0).cfg.errCodes .stagingUnderflow =
        (⟨.stagingUnderflow, .empty⟩ : Answer).code (staging 0 0).cfg :=
  ⟨⟨_, rfl, rfl⟩, by decide, rfl⟩

/-- Both roles, and no data. -/
theorem witness_Crc16ReturnsFold :
    RoleGranted State.reset .crc16 ∧ RoleGranted hardware .crc16 ∧ ([] : List Byte).length = 0 :=
  ⟨granted _ _ rfl, granted _ _ rfl, rfl⟩

/-- R290 gives the FIFO's owner no CRC16. -/
theorem test_crc16_owner :
    refusal (exec (.crc16 0xFFFF 0 []) (staging 0 0)) = some .roleNotGranted := by decide

/-- V-C7 and V-C8. -/
theorem witness_Crc16Composes :
    ([0x01, 0x02] : List Byte).length = 2 ∧ ([0x03, 0x04] : List Byte).length = 2 ∧
      (∃ t, exec (.crc16 0xFFFF 2 [0x01, 0x02]) State.reset = .next t ∧
        t.answer = some ⟨.ok, .crc 0x0E7C⟩) ∧
      ∃ u, exec (.crc16 0x0E7C 2 [0x03, 0x04]) State.reset = .next u ∧
        u.answer = some ⟨.ok, .crc 0x89C3⟩ :=
  ⟨rfl, rfl, ⟨_, rfl, by decide +kernel⟩, ⟨_, rfl, by decide +kernel⟩⟩

theorem witness_Crc16DetectsSingleBitErrors : 7 < 8 := by decide

/-- UNFORMATTED, FORMATTED and completion observed; 96 payload bytes with `ats`, 104 without. -/
theorem witness_FormatWritesWholeDescriptor :
    Config.default.wf = true ∧
      Admitted (machine (.sw 0) 0 0 false false) .format 0 (desc false false) ∧
      (machine (.sw 0) 0 0 false false).phase 0 (desc false false) = .unformatted ∧
      Admitted (machine (.sw 0) 0 0 true false) .format 0 (desc true false) ∧
      (machine (.sw 0) 0 0 true false).phase 0 (desc true false) = .formatted ∧
      Admitted (machine (.sw 0) 0x44 0x01 true true) .format 0 (desc true true) ∧
      (desc true true).swObsDone = true ∧ (zeros 96).length = (96 : Byte).toNat ∧
      (96 : Byte).toNat ≤ (if Config.default.atsPresent then 96 else 104) ∧
      (104 : Byte).toNat ≤ (if ({ Config.default with atsPresent := false } : Config).atsPresent
        then 96 else 104) :=
  ⟨wf_default, admitted _ _ _ _ _ _ rfl rfl, by decide, admitted _ _ _ _ _ _ rfl rfl, by decide,
    admitted _ _ _ _ _ _ rfl rfl, rfl, rfl, by decide, by decide⟩

theorem witness_FormatRejectsLongPayload :
    Config.default.wf = true ∧
      Admitted (machine (.sw 0) 0 0 false false) .format 0 (desc false false) ∧
      (machine (.sw 0) 0 0 false false).phase 0 (desc false false) = .unformatted ∧
      (if Config.default.atsPresent then 96 else 104) < (97 : Byte).toNat :=
  ⟨wf_default, admitted _ _ _ _ _ _ rfl rfl, by decide, by decide⟩

/-- V-I12: NEXT, FETCHED, and COMPLETED before the observation. -/
theorem witness_FormatOfOwnedDescriptorIsRefused :
    Admitted (machine (.sw 0) 0 0x01 true false) .format 0 (desc true false) ∧
      (machine (.sw 0) 0 0x01 true false).phase 0 (desc true false) = .next ∧
      Admitted (machine (.sw 0) 0x04 0x01 true false) .format 0 (desc true false) ∧
      (machine (.sw 0) 0x04 0x01 true false).phase 0 (desc true false) = .fetched ∧
      Admitted (machine (.sw 0) 0x44 0x01 true false) .format 0 (desc true false) ∧
      (machine (.sw 0) 0x44 0x01 true false).phase 0 (desc true false) = .completed ∧
      (desc true false).swObsDone = false :=
  ⟨admitted _ _ _ _ _ _ rfl rfl, by decide, admitted _ _ _ _ _ _ rfl rfl, by decide,
    admitted _ _ _ _ _ _ rfl rfl, by decide, rfl⟩

/-- A descriptor never formatted, and one in each phase a submission cycle has. -/
theorem witness_SubmitMarkerSetsNext :
    Config.default.wf = true ∧
      Admitted (machine (.sw 0) 0 0 false false) .submitMarker 0 (desc false false) ∧
      (machine (.sw 0) 0 0 false false).phase 0 (desc false false) = .unformatted ∧
      Admitted (machine (.sw 0) 0 0 true false) .submitMarker 0 (desc true false) ∧
      (machine (.sw 0) 0 0 true false).phase 0 (desc true false) = .formatted ∧
      Admitted (machine (.sw 0) 0x44 0x03 true true) .submitMarker 0 (desc true true) ∧
      (machine (.sw 0) 0x44 0x03 true true).phase 0 (desc true true) = .completed :=
  ⟨wf_default, admitted _ _ _ _ _ _ rfl rfl, by decide, admitted _ _ _ _ _ _ rfl rfl, by decide,
    admitted _ _ _ _ _ _ rfl rfl, by decide⟩

/-- Before any FORMAT, inside the window, and after the observation. -/
theorem witness_PurgeMarkerSetsPurge :
    Config.default.wf = true ∧
      Admitted (machine (.sw 0) 0 0 false false) .purgeMarker 0 (desc false false) ∧
      (desc false false).fmt = false ∧
      Admitted (machine (.sw 0) 0x44 0x01 true false) .purgeMarker 0 (desc true false) ∧
      (desc true false).fmt = true ∧ (desc true false).swObsDone = false ∧
      Admitted (machine (.sw 0) 0x44 0x01 true true) .purgeMarker 0 (desc true true) ∧
      (desc true true).swObsDone = true :=
  ⟨wf_default, admitted _ _ _ _ _ _ rfl rfl, rfl, admitted _ _ _ _ _ _ rfl rfl, rfl, rfl,
    admitted _ _ _ _ _ _ rfl rfl, rfl⟩

theorem witness_IsFetchedReadsFlag :
    Admitted (machine (.sw 0) 0x04 0x01 true false) .isFetched 0 (desc true false) :=
  admitted _ _ _ _ _ _ rfl rfl

/-- Both branches. -/
theorem witness_IsCompletedReadsAndObserves :
    Admitted (machine (.sw 0) 0x44 0x01 true false) .isCompleted 0 (desc true false) ∧
      ((machine (.sw 0) 0x44 0x01 true false).atomicRead32 0).hsi &&& FlagMasks.default.completed ≠ 0 ∧
      Admitted (machine (.sw 0) 0x04 0x01 true false) .isCompleted 0 (desc true false) ∧
      ((machine (.sw 0) 0x04 0x01 true false).atomicRead32 0).hsi &&& FlagMasks.default.completed
        = 0 :=
  ⟨admitted _ _ _ _ _ _ rfl rfl, by decide, admitted _ _ _ _ _ _ rfl rfl, by decide⟩

/-- Each of the six cases. -/
theorem witness_VerifyVariantCrcCompares :
    Config.default.wf = true ∧
      Admitted (machine (.sw 0) 0 0 false false) .verifyVariantCrc 0 (desc false false) ∧
      (machine (.sw 0) 0 0 false false).phase 0 (desc false false) = .unformatted ∧
      (machine (.sw 0) 0 0 true false).phase 0 (desc true false) = .formatted ∧
      (machine (.sw 0) 0x44 0x01 true true).phase 0 (desc true true) = .completed ∧
      Admitted (machine (.sw 0) 0 0x01 true false) .verifyVariantCrc 0 (desc true false) ∧
      (machine (.sw 0) 0 0x01 true false).phase 0 (desc true false) = .next ∧
      (machine (.sw 0) 0x04 0x01 true false).phase 0 (desc true false) = .fetched ∧
      (machine (.sw 0) 0x44 0x01 true false).phase 0 (desc true false) = .completed :=
  ⟨wf_default, admitted _ _ _ _ _ _ rfl rfl, by decide, by decide, by decide, admitted _ _ _ _ _ _ rfl rfl,
    by decide, by decide, by decide⟩

theorem witness_ResultReturnsFields :
    Config.default.wf = true ∧
      Admitted (machine (.sw 0) 0x04 0x01 true false) .result 0 (desc true false) ∧
      ((machine (.sw 0) 0x04 0x01 true false).atomicRead32 0).hsi &&& FlagMasks.default.completed
        = 0 ∧
      Admitted (done (.sw 0) false) .result 0 (doneDesc false) :=
  ⟨wf_default, admitted _ _ _ _ _ _ rfl rfl, by decide, granted _ _ rfl, rfl, rfl, rfl⟩

/-- Software in any phase; HW in NEXT, where it may read, and in FORMATTED, where it may not. -/
theorem witness_VerifyInvariantCrcCompares :
    Admitted (machine (.sw 0) 0 0 true false) .verifyInvariantCrc 0 (desc true false) ∧
      roleOf (machine (.sw 0) 0 0 true false).issuer = .sw ∧
      Admitted (machine .hw 0 0x01 true false) .verifyInvariantCrc 0 (desc true false) ∧
      (machine .hw 0 0x01 true false).phase 0 (desc true false) = .next ∧
      Admitted (machine .hw 0 0 true false) .verifyInvariantCrc 0 (desc true false) ∧
      roleOf (machine .hw 0 0 true false).issuer = .hw ∧
      (machine .hw 0 0 true false).phase 0 (desc true false) = .formatted :=
  ⟨admitted _ _ _ _ _ _ rfl rfl, rfl, admitted _ _ _ _ _ _ rfl rfl, by decide,
    admitted _ _ _ _ _ _ rfl rfl, rfl, by decide⟩

theorem witness_PrematureVerifyFails :
    Config.default.wf = true ∧ ([] : List Byte).length = (0 : Byte).toNat ∧
      ∃ t, exec (.format 0 1 1 0 1 0 0 []) State.reset = .next t ∧ t.answer = some ⟨.ok, .empty⟩ := by
  refine ⟨wf_default, rfl, { formatted State.reset 0 (boot0) (formatImage Config.default 1 1 0 1 0 []) with
    answer := some ⟨.ok, .empty⟩ }, ?_, rfl⟩
  show execFormat _ _ _ _ _ _ _ _ _ = _
  unfold execFormat
  rw [admitted_eq _ _ _ (boot0) _ ⟨granted _ _ rfl, rfl, rfl, rfl⟩, if_pos (by decide)]
  exact if_neg (by decide)

theorem witness_ProtectedSectionsVerify :
    SectionsProtected (done (.sw 0) true) ∧ (doneDesc true).fmt = true ∧
      Admitted (done (.sw 0) true) .verifyInvariantCrc 0 (doneDesc true) ∧
      roleOf (done (.sw 0) true).issuer = .sw ∧
      Admitted (done (.sw 0) true) .verifyVariantCrc 0 (doneDesc true) ∧
      (done (.sw 0) true).cfg.linkFaults = false ∧
      (done (.sw 0) true).phase 0 (doneDesc true) = .completed ∧ (doneDesc true).swObsDone = true :=
  ⟨sectionsProtected_done _ _, rfl, ⟨granted _ _ rfl, rfl, rfl, rfl⟩, rfl,
    ⟨granted _ _ rfl, rfl, rfl, rfl⟩, rfl, phase_done _ _, rfl⟩

/-- The same machine where HW may see corrupted bytes. -/
def faulty : State :=
  { machine .hw 0 0x01 true false with cfg := { Config.default with linkFaults := true } }

theorem witness_HwFetchTakesSnapshot_linkFaults :
    faulty.cfg.wf = true ∧ Admitted faulty .hwFetch 0 (desc true false) ∧
      faulty.phase 0 (desc true false) = .next ∧ faulty.cfg.linkFaults = true ∧
      127 < faulty.cfg.layout.invariantLen :=
  ⟨by decide +kernel, ⟨granted _ _ rfl, rfl, rfl, rfl⟩, by decide, rfl, by decide⟩

theorem witness_HwFetchTakesSnapshot :
    Config.default.wf = true ∧
      Admitted (machine .hw 0 0 true false) .hwFetch 0 (desc true false) ∧
      (machine .hw 0 0 true false).phase 0 (desc true false) ≠ .next ∧
      Admitted (machine .hw 0 0x03 true false) .hwFetch 0 (desc true false) ∧
      (machine .hw 0 0x03 true false).phase 0 (desc true false) = .next ∧
      Config.default.linkFaults = false :=
  ⟨wf_default, admitted _ _ _ _ _ _ rfl rfl, by decide, admitted _ _ _ _ _ _ rfl rfl, by decide, rfl⟩

/-- A record whose snapshot has the given two bytes that select the overlay. -/
def snapped (ok : Bool) (acfunc cmd : Byte) : Desc :=
  { desc true false with snap := ⟨layOut 128 [(8, [acfunc, cmd])], ok⟩ }

/-- A failed check, a known command, an unknown one; and a phase that refuses. -/
theorem witness_HwCompleteWritesVariantPart :
    Config.default.wf = true ∧
      Admitted (machine .hw 0 0x01 true false) .hwComplete 0 (desc true false) ∧
      (machine .hw 0 0x01 true false).phase 0 (desc true false) ≠ .fetched ∧
      (∀ ok f c, Admitted { machine .hw 0x04 0x01 true false with descs := [snapped ok f c] }
        .hwComplete 0 (snapped ok f c)) ∧
      ({ machine .hw 0x04 0x01 true false with descs := [snapped true 1 2] } : State).phase 0
        (snapped true 1 2) = .fetched ∧
      (snapped false 1 2).snap.icrcOk = false ∧ (snapped true 1 2).snap.icrcOk = true ∧
      SnapshotKnown Config.default (snapped true 1 2).snap.bytes ∧
      ¬SnapshotKnown Config.default (snapped true 1 3).snap.bytes ∧
      Config.default.zipOnly = true ∧ Config.default.linkFaults = false :=
  ⟨wf_default, admitted _ _ _ _ _ _ rfl rfl, by decide, fun _ _ _ => ⟨granted _ _ rfl, rfl, rfl, rfl⟩,
    by decide, rfl, rfl, by unfold SnapshotKnown; decide, by unfold SnapshotKnown; decide, rfl, rfl⟩

theorem witness_PurgeFetchRaceKeepsBothFlags :
    Config.default.wf = true ∧
      Admitted { machine (.sw 0) 0 0x01 true false with issuer := .sw 0 } .purgeMarker 0
        (desc true false) ∧
      (machine (.sw 0) 0 0x01 true false).phase 0 (desc true false) = .next ∧
      (desc true false).fmt = true ∧ (desc true false).swObsDone = false ∧
      ((machine (.sw 0) 0 0x01 true false).atomicRead32 0).hsi = 0 ∧
      ((machine (.sw 0) 0 0x01 true false).atomicRead32 0).shi = 0x01 :=
  ⟨wf_default, admitted _ _ _ _ _ _ rfl rfl, by decide, rfl, rfl, by decide, by decide⟩

/-- V-O2: the save options with their addresses. -/
theorem witness_EncInflAsivWritesLayout :
    Config.default.wf = true ∧
      RoleGranted State.reset .encInflAsiv ∧
      KindsAgree Config.default.opt 0x0024 .flat .flat ∧
      InflAddressesPresent Config.default.opt 0x0024
        (inflParams 0x40010020 0x2000 0x40008010 0x8010 .flat).toInflFields :=
  ⟨wf_default, granted _ _ rfl, by unfold KindsAgree OptSet; decide,
    by unfold InflAddressesPresent OptSet; decide⟩

/-- 57 carried bits, and 56; the indirect options with their kinds. -/
theorem witness_EncDeflAsivWritesLayout :
    Config.default.wf = true ∧
      RoleGranted State.reset .encDeflAsiv ∧ 56 < (deflParams (zeros 7) 57).inumbits.toNat ∧
      (deflParams (zeros 7) 56).inumbits.toNat ≤ 56 ∧ (deflParams (zeros 7) 56).ibits.length = 7 ∧
      KindsAgree Config.default.opt 0x0003 .segList .segList ∧
      DeflAddressesPresent Config.default.opt 0x0003 (deflParams (zeros 7) 56).toDeflFields :=
  ⟨wf_default, granted _ _ rfl, by decide, by decide, rfl, by unfold KindsAgree OptSet; decide,
    by unfold DeflAddressesPresent OptSet; decide⟩

/-- V-O4 and V-O3; the deflate encoder likewise. -/
theorem witness_EncodersRejectBadOptions :
    RoleGranted State.reset .encInflAsiv ∧ ¬KindsAgree Config.default.opt 0x0001 .flat .flat ∧
      KindsAgree Config.default.opt 0x0004 .flat .flat ∧
      ¬InflAddressesPresent Config.default.opt 0x0004 (inflParams 0 0 0 0 .flat).toInflFields ∧
      RoleGranted State.reset .encDeflAsiv ∧ (deflParams (zeros 7) 56).inumbits.toNat ≤ 56 ∧
      ¬DeflAddressesPresent Config.default.opt 0x0004 (deflParams (zeros 7) 56).toDeflFields :=
  ⟨granted _ _ rfl, by unfold KindsAgree OptSet; decide, by unfold KindsAgree OptSet; decide,
    by unfold InflAddressesPresent OptSet; decide, granted _ _ rfl, by decide,
    by unfold DeflAddressesPresent OptSet; decide⟩

theorem witness_DecInflAsvReadsLayout :
    RoleGranted State.reset .decInflAsv ∧ (1 : Byte) = State.reset.cfg.cmdInflate :=
  ⟨granted _ _ rfl, rfl⟩

theorem witness_DecDeflAsvReadsLayout :
    RoleGranted State.reset .decDeflAsv ∧ (2 : Byte) = State.reset.cfg.cmdDeflate :=
  ⟨granted _ _ rfl, rfl⟩

theorem witness_AsivDecodersReadLayout :
    RoleGranted hardware .decInflAsiv ∧ (1 : Byte) = hardware.cfg.cmdInflate ∧
      RoleGranted hardware .decDeflAsiv ∧ (2 : Byte) = hardware.cfg.cmdDeflate :=
  ⟨granted _ _ rfl, rfl, granted _ _ rfl, rfl⟩

theorem witness_DecodersRejectWrongTag :
    (2 : Byte) ≠ State.reset.cfg.cmdInflate ∧ RoleGranted State.reset .decInflAsv ∧
      RoleGranted hardware .decInflAsiv ∧ (1 : Byte) ≠ State.reset.cfg.cmdDeflate ∧
      RoleGranted State.reset .decDeflAsv ∧ RoleGranted hardware .decDeflAsiv :=
  ⟨by decide, granted _ _ rfl, granted _ _ rfl, by decide, granted _ _ rfl, granted _ _ rfl⟩

theorem witness_AsvEncodersWriteLayout :
    Config.default.wf = true ∧
      RoleGranted hardware .encInflAsv ∧ RoleGranted hardware .encDeflAsv ∧
      (deflResult (zeros 31)).otail.length = hardware.cfg.otailLen :=
  ⟨wf_default, granted _ _ rfl, granted _ _ rfl, rfl⟩

/-- All four pairs. -/
theorem witness_OverlayRoundTrip :
    Config.default.wf = true ∧
      (∃ t a, exec (.encInflAsiv 0 (inflParams 0 0 0 0 .flat)) State.reset = .next t ∧
        t.answer = some ⟨.ok, .bytes a⟩) ∧ RoleGranted hardware .decInflAsiv ∧
      (∃ t a, exec (.encDeflAsiv 0 (deflParams (zeros 7) 56)) State.reset = .next t ∧
        t.answer = some ⟨.ok, .bytes a⟩) ∧ (deflParams (zeros 7) 56).ibits.length = 7 ∧
      RoleGranted hardware .decDeflAsiv ∧
      (∃ t a, exec (.encInflAsv inflResult) hardware = .next t ∧
        t.answer = some ⟨.ok, .bytes a⟩) ∧ RoleGranted State.reset .decInflAsv ∧
      (∃ t a, exec (.encDeflAsv (deflResult (zeros 31))) hardware = .next t ∧
        t.answer = some ⟨.ok, .bytes a⟩) ∧
      (deflResult (zeros 31)).otail.length = State.reset.cfg.otailLen ∧
      RoleGranted State.reset .decDeflAsv ∧ hardware.cfg = State.reset.cfg :=
  ⟨wf_default, ⟨_, _, rfl, rfl⟩, granted _ _ rfl, ⟨_, _, rfl, rfl⟩, rfl, granted _ _ rfl, ⟨_, _, rfl, rfl⟩,
    granted _ _ rfl, ⟨_, _, rfl, rfl⟩, rfl, granted _ _ rfl, rfl⟩

/-- V-K4: 248 bits, 24 bytes drained, 56 left; and V-K8, one bit more. -/
theorem witness_CarryKeepsBitSequence :
    RoleGranted State.reset .carry ∧ (zeros 31).length = State.reset.cfg.otailLen ∧
      (248 : Byte).toNat ≤ 8 * State.reset.cfg.otailLen ∧ 8 * (24 : Byte).toNat ≤ (248 : Byte).toNat ∧
      (248 : Byte).toNat - 8 * (24 : Byte).toNat ≤ 56 ∧
      ¬((249 : Byte).toNat ≤ 8 * State.reset.cfg.otailLen ∧
        8 * (24 : Byte).toNat ≤ (249 : Byte).toNat ∧
        (249 : Byte).toNat - 8 * (24 : Byte).toNat ≤ 56) :=
  ⟨granted _ _ rfl, rfl, by decide, by decide, by decide, by decide⟩

/-- Bits of the last carried byte above the carried ones are copied too (R220). -/
theorem test_carry_whole_byte :
    ∃ t, exec (.carry 11 1 ([0xA7, 0xFD] ++ zeros 29)) State.reset = .next t ∧
      t.answer = some ⟨.ok, .carry [0xA7] [0xFD, 0, 0, 0, 0, 0, 0] 3⟩ := ⟨_, rfl, by decide +kernel⟩

/-- The statements about the FIFO's owner with no other hypothesis. -/
theorem witness_FifoInitEmpties : IsFifoOwner (staging 7 3) := rfl

theorem witness_UsedAndFreeCount : IsFifoOwner (staging 2 250) := rfl

/-- Room for one more byte, and for four, at the limit; a wrapped pair of cursors. -/
theorem witness_PushAppendsByte : IsFifoOwner (staging 253 255) ∧ (staging 253 255).fifo.used ≤ 254 :=
  ⟨rfl, by decide⟩

theorem witness_Push32AppendsLittleEndian :
    IsFifoOwner (staging 251 0) ∧ (staging 251 0).fifo.used ≤ 251 := ⟨rfl, by decide⟩

theorem witness_PopRemovesOldest : IsFifoOwner (staging 0 255) ∧ 1 ≤ (staging 0 255).fifo.used :=
  ⟨rfl, by decide⟩

theorem witness_Pop16RemovesTwo : IsFifoOwner (staging 1 255) ∧ 2 ≤ (staging 1 255).fifo.used :=
  ⟨rfl, by decide⟩

/-- The bytes held number what the cursors say. -/
theorem held_count (f : Fifo) : f.held.length = f.used := by simp [Fifo.held]

/-- V-F4 and V-F7: no room for one, none for four; V-F1 and V-F11: no byte, and only one. -/
theorem witness_FifoRejectsWithoutMutation :
    IsFifoOwner (staging 255 0) ∧ 255 - (staging 255 0).fifo.held.length < 1 ∧
      IsFifoOwner (staging 255 3) ∧ 255 - (staging 255 3).fifo.held.length < 4 ∧
      IsFifoOwner (staging 0 0) ∧ (staging 0 0).fifo.held.length < 1 ∧
      IsFifoOwner (staging 1 0) ∧ (staging 1 0).fifo.held.length < 2 := by
  simp only [held_count]
  exact ⟨rfl, by decide, rfl, by decide, rfl, by decide, rfl, by decide⟩

theorem witness_Push32IsFourPushes :
    IsFifoOwner (staging 251 0) ∧ (staging 251 0).fifo.used ≤ 251 := ⟨rfl, by decide⟩

theorem witness_Push32ThenPop16RoundTrip :
    IsFifoOwner (staging 255 255) ∧ (staging 255 255).fifo.push = (staging 255 255).fifo.pop :=
  ⟨rfl, rfl⟩

end Sys2Proof.Tests
end

section
/-! The first request in line and the step that answers it (R7, R21), and the defaults of R10. -/

namespace Sys2Proof.Machine

/-! What a step does, by what stands first in line. -/

theorem fetch_of_stream_nil {s : State} (h : s.stream = []) : fetch s = .idle := by
  simp [fetch, h]

theorem fetch_of_decode_ok {s : State} {r : Request} {rest : List Request} {i : Instr}
    (hs : s.stream = r :: rest) (hd : decode s.cfg r.bytes = .ok i) :
    fetch s = .run i (s.take r rest) := by
  simp [fetch, hs, hd]

theorem step_of_stream_nil {s : State} (h : s.stream = []) : step s = .next s := by
  rw [step, fetch_of_stream_nil h]

theorem step_of_decode_ok {s : State} {r : Request} {rest : List Request} {i : Instr}
    (hs : s.stream = r :: rest) (hd : decode s.cfg r.bytes = .ok i) :
    step s = exec i (s.take r rest) := by
  rw [step, fetch_of_decode_ok hs hd]

/-- Settles O5: a decoded request runs in the state `State.take` leaves, and no request is the idle step.
That the instruction is well formed is not needed. -/
theorem stepRunsPresentedInstruction : Obligations.StepRunsPresentedInstruction := by
  unfold Obligations.StepRunsPresentedInstruction
  constructor
  · intro s r rest i hs hd _
    exact step_of_decode_ok hs hd
  · intro s hs
    exact step_of_stream_nil hs

/-! The default layout's reserved bytes. -/

/-- The gaps between the variant fields of R91: in front of `variant_crc`, behind it, and in front of the
driver's bytes. -/
theorem mem_reservedVariant_default (o : Nat) :
    o ∈ Layout.default.reservedVariant ↔
      (0xC0 ≤ o ∧ o ≤ 0xC1) ∨ (0xC4 ≤ o ∧ o ≤ 0xCF) ∨ (0xE0 ≤ o ∧ o ≤ 0xEF) := by
  rw [mem_reservedVariant, reserved_iff]
  simp only [Layout.invariantLen, Layout.fields, Layout.ilkFields, Layout.invFields, Layout.varFields,
    Layout.default, List.cons_append, List.nil_append, List.forall_mem_cons, List.not_mem_nil,
    false_imp_iff, implies_true, and_true]
  omega

/-- Settles O59: every default stands in `Config.default` as the spec writes it, the reserved variant bytes
are the gaps of the default layout, and the whole is well formed. -/
theorem defaultParametersAreTheSpecs : Obligations.DefaultParametersAreTheSpecs := by
  unfold Obligations.DefaultParametersAreTheSpecs
  exact ⟨rfl, rfl, mem_reservedVariant_default, rfl, rfl, rfl, rfl, rfl, rfl, rfl, rfl, rfl, rfl, rfl, rfl, rfl,
    rfl, rfl, rfl, rfl, rfl, rfl, rfl, rfl, rfl, rfl, rfl, rfl, rfl, Tests.wf_default⟩

end Sys2Proof.Machine
end

section
/-! The state of the block, 10_state.md: what boot leaves (R52, R314), the interlock word of the default layout
(R26, R94), which operations stop (R23, R67, R83, R293), and what an operation does to the descriptor it names
and leaves of everything else (R23, R31, R277). -/

namespace Sys2Proof.Machine

open Sys2Proof.Safety

/-! The state after boot: nothing is listed in memory. -/

@[simp] theorem boot_cfg (c : Config) (n : Nat) : (State.boot c n).cfg = c := rfl

theorem byte_boot (c : Config) (n d o : Nat) :
    (State.boot c n).byte d o = unlistedByte c.layout (descAddr c.layout d o) := rfl

/-- A byte of the interlock word as it is read (R68). -/
theorem byteAt_memRead_word (s : State) (d o : Nat) (ho : o < 4) :
    byteAt (s.memRead d 0 interlockLen) o = s.byte d o :=
  (byteAt_memRead s d 0 interlockLen o ho).trans (by rw [Nat.zero_add])

/-- The bytes of an interlock word's flag fields, where `LAYOUT` puts them (R26). -/
theorem atomicRead32_flags (s : State) (hc : s.cfg.wf = true) (d : Nat) :
    (s.atomicRead32 d).hsi = s.byte d s.layout.hsi.off ∧
      (s.atomicRead32 d).shi = s.byte d s.layout.shi.off := by
  obtain ⟨-, hhsi, hshi, -⟩ := wf_ilk hc
  exact ⟨byteAt_memRead_word s d _ hhsi, byteAt_memRead_word s d _ hshi⟩

/-- A flag byte that nothing has written reads 0x00 (R314). -/
theorem unlistedByte_flag (l : Layout) (d o : Nat) (ho : o < l.size)
    (hf : o = l.hsi.off ∨ o = l.shi.off) : unlistedByte l (descAddr l d o) = 0 := by
  have hmod : descAddr l d o % l.size = o := by
    rw [descAddr, Nat.mul_add_mod, Nat.mod_eq_of_lt ho]
  rw [unlistedByte, Memory.unlisted, hmod, if_pos hf]
  rfl

/-- After boot both flag bytes of every descriptor are 0 (R52). -/
theorem atomicRead32_boot (c : Config) (n : Nat) (hc : c.wf = true) (d : Nat) :
    ((State.boot c n).atomicRead32 d).hsi = 0 ∧ ((State.boot c n).atomicRead32 d).shi = 0 := by
  obtain ⟨hhsi, hshi⟩ := atomicRead32_flags (State.boot c n) hc d
  obtain ⟨-, ho, ho', -⟩ := wf_ilk hc
  obtain ⟨h1, h2⟩ := wf_size hc
  have h4 : interlockLen = 4 := rfl
  rw [hhsi, hshi, byte_boot, byte_boot]
  exact ⟨unlistedByte_flag c.layout d c.layout.hsi.off (by omega) (.inl rfl),
    unlistedByte_flag c.layout d c.layout.shi.off (by omega) (.inr rfl)⟩

/-- A descriptor after boot has its ghost flags false (R52). -/
theorem descs_boot {c : Config} {n d : Nat} {x : Desc} (h : (State.boot c n).descs[d]? = some x) :
    x.fmt = false ∧ x.swObsDone = false := by
  simp only [State.boot, List.getElem?_map, Option.map_eq_some_iff] at h
  obtain ⟨i, -, rfl⟩ := h
  exact ⟨rfl, rfl⟩

/-- An interlock word whose flag bytes are 0 has no flag set and every reserved bit clear. -/
theorem no_flag_of_zero (m : FlagMasks) (w : Interlock) (hhsi : w.hsi = 0) (hshi : w.shi = 0) :
    w.isNext m = false ∧ w.isPurged m = false ∧ w.isFetched m = false ∧ w.isCompleted m = false ∧
      w.reservedClear m = true := by
  simp [Interlock.isNext, Interlock.isPurged, Interlock.isFetched, Interlock.isCompleted,
    Interlock.reservedClear, hasFlag, hhsi, hshi]

/-- Settles O9: memory lists nothing after boot, so a flag byte reads as `Memory.unlisted` gives it; the FIFO
and the records are written out in the boot state. -/
theorem bootLeavesWhatTheSpecStates : Obligations.BootLeavesWhatTheSpecStates := by
  unfold Obligations.BootLeavesWhatTheSpecStates
  refine ⟨rfl, fun c n hc => ⟨rfl, rfl, fun i => ?_, ?_, fun d x hx => ?_⟩⟩
  · exact Vector.getElem_replicate i.isLt
  · simp [State.boot]
  · obtain ⟨hhsi, hshi⟩ := atomicRead32_boot c n hc d
    obtain ⟨hfmt, hobs⟩ := descs_boot hx
    obtain ⟨hnext, -, hfetched, hcompleted, -⟩ := no_flag_of_zero c.masks _ hhsi hshi
    have hphase : (State.boot c n).phase d x = .unformatted := by
      simp [State.phase, phaseOf, hnext, hfetched, hcompleted, hfmt]
    exact ⟨hhsi, hshi, hphase, hfmt, hobs⟩

/-- Settles O10: nothing is listed in memory, no flag is set, and no descriptor is formatted, so that no
section is protected yet. -/
theorem bootSatisfiesInvariants : Obligations.BootSatisfiesInvariants := by
  unfold Obligations.BootSatisfiesInvariants
  refine fun c n hc => ⟨rfl, fun d x hx => ?_, fun d x hx hfmt => ?_⟩
  · obtain ⟨hhsi, hshi⟩ := atomicRead32_boot c n hc d
    obtain ⟨-, hobs⟩ := descs_boot hx
    obtain ⟨hnext, hpurge, hfetched, hcompleted, hclear⟩ := no_flag_of_zero c.masks _ hhsi hshi
    simp [State.isFetched, State.isCompleted, hnext, hpurge, hfetched, hcompleted, hclear, hobs]
  · exact absurd hfmt (by simp [(descs_boot hx).1])

/-! The interlock word of the default layout. -/

/-- The word read from a descriptor is `be32` of its first four bytes in the default layout (R26, R94). -/
theorem word_atomicRead32_default (s : State) (d : Nat) (hl : s.layout = Layout.default) :
    (s.atomicRead32 d).word Layout.default =
      be32 (s.byte d 0) (s.byte d 1) (s.byte d 2) (s.byte d 3) := by
  rw [word_default, State.atomicRead32, hl, ← byteAt_memRead_word s d 0 (by decide),
    ← byteAt_memRead_word s d 1 (by decide), ← byteAt_memRead_word s d 2 (by decide),
    ← byteAt_memRead_word s d 3 (by decide)]
  rfl

/-- Settles O60: `word_default` says the word is the CRC, `hsi` and `shi` in a row, and appended bit vectors
give their parts back. -/
theorem defaultInterlockWord : Obligations.DefaultInterlockWord := by
  unfold Obligations.DefaultInterlockWord
  refine ⟨fun s d hl => ?_, fun w => ?_, word_masks⟩
  · rw [hl]
    exact (word_atomicRead32_default s d hl).symm
  · have hlow : (w.icrc ++ be16 w.hsi w.shi).extractLsb' 0 16 = be16 w.hsi w.shi := append_lo _ _
    rw [word_default]
    refine ⟨append_hi _ _, ?_, ?_⟩
    · calc _ = ((w.icrc ++ be16 w.hsi w.shi).extractLsb' 0 16).extractLsb' 8 8 :=
            (extract_extract _ 0 16 8 8 (by decide)).symm
        _ = w.hsi := by rw [hlow, be16_hi]
    · calc _ = ((w.icrc ++ be16 w.hsi w.shi).extractLsb' 0 16).extractLsb' 0 8 :=
            (extract_extract _ 0 16 0 8 (by decide)).symm
        _ = w.shi := by rw [hlow, be16_lo]

/-! Operations that stop. -/

/-- An instruction that names a descriptor makes the descriptor checks behind the role's. -/
theorem exec_eq_onDescriptor (i : Instr) (s : State) (d : Byte) (h : descriptorOf i = some d) :
    ∃ k, exec i s = issue s (instrOpcode i) (onDescriptor s d k) := by
  cases i <;> cases h <;> exact ⟨_, rfl⟩

theorem onDescriptor_none (s : State) (d : Byte) (k : Desc → Out) (h : s.descs[d.toNat]? = none) :
    onDescriptor s d k = .fault (.noSuchDescriptor d) := by
  simp [onDescriptor, h]

theorem onDescriptor_misaligned (s : State) (d : Byte) (k : Desc → Out) (x : Desc)
    (h : s.descs[d.toNat]? = some x) (hb : x.base % 4 ≠ 0) :
    onDescriptor s d k = .refused .misalignedDescriptor := by
  simp [onDescriptor, h, hb]

theorem onDescriptor_secondThread (s : State) (d : Byte) (k : Desc → Out) (x : Desc) (t : Nat)
    (h : s.descs[d.toNat]? = some x) (hs : s.issuer = .sw t) (hb : x.base % 4 = 0)
    (ht : t ≠ x.thread) : onDescriptor s d k = .refused .secondSoftwareThread := by
  simp [onDescriptor, threadAllowed, h, hs, hb, ht]

theorem onFifo_otherSession (s : State) (k : Out) (n : Nat) (hs : s.issuer = .owner n)
    (hn : n ≠ s.fifo.session) : onFifo s k = .refused .notFifoOwner := by
  simp [onFifo, ownsFifo, hs, hn]

/-- An instruction of the FIFO's owner makes the ownership check behind the role's. -/
theorem exec_eq_onFifo (i : Instr) (s : State) (h : Role.owner ∈ rolesOf (instrOpcode i)) :
    ∃ k, exec i s = issue s (instrOpcode i) (onFifo s k) := by
  cases i with
  | fifoInit | push | push32 | pop | pop16 | used | free => exact ⟨_, rfl⟩
  | crc16 | format | submitMarker | purgeMarker | isFetched | isCompleted | verifyVariantCrc | result
  | verifyInvariantCrc | hwFetch | hwComplete | encInflAsiv | encDeflAsiv | decInflAsv | decDeflAsv
  | carry | decInflAsiv | decDeflAsiv | encInflAsv | encDeflAsv => simp [instrOpcode, rolesOf] at h

/-- Settles O7: each check stands in front of everything the operation does, in the order the clauses have. -/
theorem inadmissibleOperationsStop : Obligations.InadmissibleOperationsStop := by
  unfold Obligations.InadmissibleOperationsStop
  constructor
  · intro i s d hd hr
    obtain ⟨k, hk⟩ := exec_eq_onDescriptor i s d hd
    rw [hk, issue_granted _ _ _ hr]
    exact ⟨onDescriptor_none s d k, fun x hx => ⟨onDescriptor_misaligned s d k x hx,
      fun t hs hb ht => onDescriptor_secondThread s d k x t hx hs hb ht⟩⟩
  · intro i s n hi hs hn
    have howner : Role.owner ∈ rolesOf (instrOpcode i) := by
      obtain rfl | ⟨b, rfl⟩ | ⟨v, rfl⟩ | rfl | rfl | rfl | rfl := hi <;> exact List.mem_singleton_self _
    obtain ⟨k, hk⟩ := exec_eq_onFifo i s howner
    have hgranted : RoleGranted s (instrOpcode i) := by rwa [RoleGranted, hs]
    rw [hk, issue_granted _ _ _ hgranted, onFifo_otherSession s k n hs hn]

/-! What an operation does to the descriptor it names. -/

/-- A descriptor operation that answers a next state has passed its checks. -/
theorem next_of_issue_onDescriptor {s t : State} {op : Opcode} {d : Byte} {k : Desc → Out}
    (h : (issue s op <| onDescriptor s d k) = .next t) :
    ∃ x, s.descs[d.toNat]? = some x ∧ k x = .next t := by
  obtain ⟨-, h⟩ := (issue_next_iff ..).mp h
  obtain ⟨x, hx, -, -, h⟩ := (onDescriptor_next_iff ..).mp h
  exact ⟨x, hx, h⟩

/-- Everything an instruction that names descriptor `d`, whose record is `x`, can have done when it answers a
next state: `Effect` with the descriptor known. -/
inductive EffectOn (i : Instr) (s : State) (d : Nat) (x : Desc) : State → Prop
  | answered (a : Answer) : EffectOn i s d x { s with answer := some a }
  | drawn (a : Answer) : EffectOn i s d x { s.nextDraw with answer := some a }
  | formatted (img : List Byte) (a : Answer) (hi : isFormatOf i d = true)
      (hl : img.length = s.layout.size) : EffectOn i s d x { formatted s d x img with answer := some a }
  | submitted (a : Answer) (hp : s.phase d x ≠ .unformatted) :
      EffectOn i s d x { s.atomicOr32 d (maskNext s.cfg.masks) with answer := some a }
  | purged (a : Answer) :
      EffectOn i s d x { s.atomicOr32 d (maskPurge s.cfg.masks) with answer := some a }
  | observed (a : Answer) : EffectOn i s d x { s.observeDone d x with answer := some a }
  | fetched (draws : FetchDraws) (a : Answer) (hp : s.phase d x = .next) :
      EffectOn i s d x { (fetched s d x draws).nextDraw with answer := some a }
  | completed (n : Nat) (a : Answer) (hp : s.phase d x = .fetched) :
      EffectOn i s d x
        { (completed s d x (completionDraws s.layout n)).nextDraw with answer := some a }

/-- What each instruction that names a descriptor and answers a next state has done to it. -/
theorem exec_effectOn (i : Instr) (s t : State) (d : Byte) (hd : descriptorOf i = some d)
    (h : exec i s = .next t) : ∃ x, s.descs[d.toNat]? = some x ∧ EffectOn i s d.toNat x t := by
  cases i with
  | format =>
    cases hd
    obtain ⟨x, hx, h⟩ := next_of_issue_onDescriptor h
    refine ⟨x, hx, ?_⟩
    split at h
    · split at h
      · obtain rfl := (give_eq_next_iff ..).mp h
        exact .answered _
      · obtain rfl := (give_eq_next_iff ..).mp h
        exact .formatted _ _ (beq_self_eq_true _) (length_formatImage ..)
    · cases h
  | submitMarker =>
    cases hd
    obtain ⟨x, hx, h⟩ := next_of_issue_onDescriptor h
    split at h
    · cases h
    · rename_i hp
      obtain rfl := (give_eq_next_iff ..).mp h
      exact ⟨x, hx, .submitted _ hp⟩
  | purgeMarker =>
    cases hd
    obtain ⟨x, hx, h⟩ := next_of_issue_onDescriptor h
    split at h
    · obtain rfl := (give_eq_next_iff ..).mp h
      exact ⟨x, hx, .purged _⟩
    · cases h
  | isFetched =>
    cases hd
    obtain ⟨x, hx, h⟩ := next_of_issue_onDescriptor h
    obtain rfl := (give_eq_next_iff ..).mp h
    exact ⟨x, hx, .answered _⟩
  | isCompleted | result =>
    cases hd
    obtain ⟨x, hx, h⟩ := next_of_issue_onDescriptor h
    split at h
    · obtain rfl := (give_eq_next_iff ..).mp h
      exact ⟨x, hx, .observed _⟩
    · obtain rfl := (give_eq_next_iff ..).mp h
      exact ⟨x, hx, .answered _⟩
  | verifyVariantCrc =>
    cases hd
    obtain ⟨x, hx, h⟩ := next_of_issue_onDescriptor h
    split at h
    · obtain rfl := (give_eq_next_iff ..).mp h
      exact ⟨x, hx, .drawn _⟩
    · obtain rfl := (give_eq_next_iff ..).mp h
      exact ⟨x, hx, .answered _⟩
  | verifyInvariantCrc =>
    cases hd
    obtain ⟨x, hx, h⟩ := next_of_issue_onDescriptor h
    split at h
    · obtain rfl := (give_eq_next_iff ..).mp h
      exact ⟨x, hx, .answered _⟩
    · cases h
  | hwFetch =>
    cases hd
    obtain ⟨x, hx, h⟩ := next_of_issue_onDescriptor h
    split at h
    · rename_i hp
      obtain rfl := (give_eq_next_iff ..).mp h
      exact ⟨x, hx, .fetched _ _ hp⟩
    · cases h
  | hwComplete =>
    cases hd
    obtain ⟨x, hx, h⟩ := next_of_issue_onDescriptor h
    split at h
    · rename_i hp
      obtain rfl := (give_eq_next_iff ..).mp h
      exact ⟨x, hx, .completed _ _ hp⟩
    · cases h
  | crc16 | encInflAsiv | encDeflAsiv | decInflAsv | decDeflAsv | carry | decInflAsiv | decDeflAsiv
  | encInflAsv | encDeflAsv | fifoInit | push | push32 | pop | pop16 | used | free => cases hd

/-- The operations that change the FIFO. -/
def fifoWriters : List Opcode := [.fifoInit, .push, .push32, .pop, .pop16]

/-- An instruction that names no descriptor leaves an answer, and at most another FIFO if it is one of the
FIFO's. -/
theorem exec_unnamed (i : Instr) (s t : State) (hd : descriptorOf i = none)
    (h : exec i s = .next t) :
    ∃ f a, t = { s with fifo := f, answer := some a } ∧ (instrOpcode i ∉ fifoWriters → f = s.fifo) := by
  cases i with
  | format | submitMarker | purgeMarker | isFetched | isCompleted | verifyVariantCrc | result
  | verifyInvariantCrc | hwFetch | hwComplete => cases hd
  | crc16 | encInflAsv | encDeflAsv =>
    obtain ⟨-, h⟩ := (issue_next_iff ..).mp h
    exact ⟨s.fifo, _, (give_eq_next_iff ..).mp h, fun _ => rfl⟩
  | used | free =>
    obtain ⟨-, h⟩ := (issue_next_iff ..).mp h
    obtain ⟨-, h⟩ := (onFifo_next_iff ..).mp h
    exact ⟨s.fifo, _, (give_eq_next_iff ..).mp h, fun _ => rfl⟩
  | decInflAsv | decDeflAsv | decInflAsiv | decDeflAsiv =>
    obtain ⟨-, h⟩ := (issue_next_iff ..).mp h
    split at h
    all_goals exact ⟨s.fifo, _, (give_eq_next_iff ..).mp h, fun _ => rfl⟩
  | encInflAsiv =>
    obtain ⟨-, h⟩ := (issue_next_iff ..).mp h
    split at h
    · exact ⟨s.fifo, _, (give_eq_next_iff ..).mp h, fun _ => rfl⟩
    · split at h
      all_goals exact ⟨s.fifo, _, (give_eq_next_iff ..).mp h, fun _ => rfl⟩
  | encDeflAsiv =>
    obtain ⟨-, h⟩ := (issue_next_iff ..).mp h
    split at h
    · cases h
    · split at h
      · exact ⟨s.fifo, _, (give_eq_next_iff ..).mp h, fun _ => rfl⟩
      · split at h
        all_goals exact ⟨s.fifo, _, (give_eq_next_iff ..).mp h, fun _ => rfl⟩
  | carry =>
    obtain ⟨-, h⟩ := (issue_next_iff ..).mp h
    split at h
    · exact ⟨s.fifo, _, (give_eq_next_iff ..).mp h, fun _ => rfl⟩
    · cases h
  | fifoInit =>
    obtain ⟨-, h⟩ := (issue_next_iff ..).mp h
    obtain ⟨-, h⟩ := (onFifo_next_iff ..).mp h
    obtain rfl := (give_eq_next_iff ..).mp h
    exact ⟨_, _, rfl, fun hi => absurd (by simp [instrOpcode, fifoWriters]) hi⟩
  | push | push32 | pop | pop16 =>
    obtain ⟨-, h⟩ := (issue_next_iff ..).mp h
    obtain ⟨-, h⟩ := (onFifo_next_iff ..).mp h
    split at h
    · exact ⟨s.fifo, _, (give_eq_next_iff ..).mp h, fun _ => rfl⟩
    · obtain rfl := (give_eq_next_iff ..).mp h
      exact ⟨_, _, rfl, fun hi => absurd (by simp [instrOpcode, fifoWriters]) hi⟩

/-! What an operation leaves of everything else. -/

/-- Nothing of descriptor `e` has changed: its bytes, its record and the layout they are read by. -/
structure LeavesAlone (s t : State) (e : Nat) : Prop where
  cfg : t.cfg = s.cfg
  bytes : ∀ o, o < s.cfg.layout.size → t.byte e o = s.byte e o
  desc : t.descs[e]? = s.descs[e]?

theorem observeDone_descs_of_ne (s : State) (d : Nat) (x : Desc) (e : Nat) (hne : e ≠ d) :
    (s.observeDone d x).descs[e]? = s.descs[e]? := by
  unfold State.observeDone
  split
  · exact List.getElem?_set_ne hne.symm
  · rfl

/-- An operation on one descriptor leaves every other one alone (R23). -/
theorem EffectOn.leavesAlone {i : Instr} {s t : State} {d : Nat} {x : Desc} (h : EffectOn i s d x t)
    (hw : s.cfg.wf = true) {e : Nat} (hne : e ≠ d) : LeavesAlone s t e := by
  have hsize : interlockLen ≤ s.layout.size := ((wf_size hw).1.trans (wf_size hw).2).le
  cases h with
  | answered | drawn => exact ⟨rfl, fun _ _ => rfl, rfl⟩
  | formatted img a hi hl =>
    exact ⟨rfl, fun o ho => byte_formatted_of_ne s hw d x img hl e o hne ho,
      List.getElem?_set_ne hne.symm⟩
  | submitted | purged =>
    exact ⟨rfl, fun o ho => byte_atomicOr32_of_ne s hsize d _ e o hne ho, rfl⟩
  | observed =>
    exact ⟨observeDone_cfg s d x, fun o _ => byte_observeDone s d x e o,
      observeDone_descs_of_ne s d x e hne⟩
  | fetched draws =>
    exact ⟨rfl, fun o ho => byte_fetched_of_ne s hw d x draws e o hne ho,
      List.getElem?_set_ne hne.symm⟩
  | completed n =>
    exact ⟨rfl, fun o ho => byte_completed_of_ne s hw d x n e o hne ho, rfl⟩

/-- No operation on a descriptor changes the FIFO. -/
theorem EffectOn.fifo {i : Instr} {s t : State} {d : Nat} {x : Desc} (h : EffectOn i s d x t) :
    t.fifo = s.fifo := by
  cases h with
  | observed => exact observeDone_fifo s d x
  | answered | drawn | formatted | submitted | purged | fetched | completed => rfl

/-- An operation leaves alone every descriptor it does not name (R23, R277). -/
theorem exec_leavesAlone (i : Instr) (s t : State) (hw : s.cfg.wf = true) (h : exec i s = .next t)
    (e : Nat) (he : ∀ d, descriptorOf i = some d → d.toNat ≠ e) : LeavesAlone s t e := by
  cases hd : descriptorOf i with
  | none =>
    obtain ⟨f, a, rfl, -⟩ := exec_unnamed i s t hd h
    exact ⟨rfl, fun _ _ => rfl, rfl⟩
  | some d =>
    obtain ⟨x, -, heff⟩ := exec_effectOn i s t d hd h
    exact heff.leavesAlone hw (he d hd).symm

/-- Settles O16: `exec_leavesAlone` for the descriptors; the FIFO stays in every effect on a descriptor and in
what an instruction without one does unless it is one of `fifoWriters`. -/
theorem descriptorsAreIndependent : Obligations.DescriptorsAreIndependent := by
  unfold Obligations.DescriptorsAreIndependent
  intro i s t hw h
  refine ⟨fun e he => ?_, fun hop => ?_, fun hd => ?_⟩
  · obtain ⟨-, hbytes, hdesc⟩ := exec_leavesAlone i s t hw h e he
    exact ⟨hbytes, hdesc⟩
  · cases hd : descriptorOf i with
    | none =>
      obtain ⟨f, a, rfl, hf⟩ := exec_unnamed i s t hd h
      exact hf hop
    | some d =>
      obtain ⟨x, -, heff⟩ := exec_effectOn i s t d hd h
      exact heff.fifo
  · obtain ⟨f, a, rfl, -⟩ := exec_unnamed i s t hd h
    exact ⟨rfl, rfl⟩

/-! Within a submission cycle. -/

/-- A word that is as it was, with the `fmt` flag as it was, is one a cycle may show next. -/
theorem cycleAdvances_of_eq {s t : State} {d : Nat} {x y : Desc} (hc : t.cfg = s.cfg)
    (hw : t.atomicRead32 d = s.atomicRead32 d) (hf : y.fmt = x.fmt) : CycleAdvances s t d x y := by
  have hp : t.phase d y = s.phase d x := by rw [State.phase, State.phase, hc, hw, hf]
  rw [CycleAdvances, hw, hp]
  simp

/-- The phase stays or moves forward to the next one (R31). -/
def PhaseAdvances (p q : Phase) : Prop := phaseRank p ≤ phaseRank q ∧ phaseRank q ≤ phaseRank p + 1

/-- The OR of the word with a mask of flags keeps the CRC and loses no flag (R69), so that only the phase is
left to show. -/
theorem cycleAdvances_of_or {s t : State} {d : Nat} {x y : Desc} (hc : t.cfg = s.cfg) (m : Interlock)
    (hm : m.icrc = 0) (hw : t.atomicRead32 d = (s.atomicRead32 d).or m) (hf : y.fmt = x.fmt)
    (hp : PhaseAdvances (s.phase d x) (phaseOf s.cfg.masks ((s.atomicRead32 d).or m) x.fmt)) :
    CycleAdvances s t d x y := by
  have hkeep (v u : Byte) : v &&& (v ||| u) = v := by
    ext j hj
    cases hv : v[j] <;> simp [hv]
  have hphase : t.phase d y = phaseOf s.cfg.masks ((s.atomicRead32 d).or m) x.fmt := by
    rw [State.phase, hc, hw, hf]
  rw [CycleAdvances, hw, hphase]
  exact ⟨or_icrc _ _ hm, hkeep _ _, hkeep _ _, hp⟩

section
variable {c : Config} (hc : c.wf = true) (w : Interlock) (f : Bool)
include hc

/-- SUBMIT_MARKER's OR moves a phase from FORMATTED to NEXT and keeps the later ones (R166). -/
theorem phaseAdvances_or_maskNext (h : phaseOf c.masks w f ≠ .unformatted) :
    PhaseAdvances (phaseOf c.masks w f) (phaseOf c.masks (w.or (maskNext c.masks)) f) := by
  revert h
  simp only [PhaseAdvances, phaseOf, isCompleted_or_maskNext, isFetched_or_maskNext,
    isNext_or_maskNext hc w, if_true]
  by_cases hcomp : w.isCompleted c.masks
  · simp [hcomp]
  by_cases hfetch : w.isFetched c.masks
  · simp [hcomp, hfetch]
  cases w.isNext c.masks <;> cases f <;> simp [hcomp, hfetch, phaseRank]

/-- `purge` does not enter the phase (R30, R170). -/
theorem phaseOf_or_maskPurge : phaseOf c.masks (w.or (maskPurge c.masks)) f = phaseOf c.masks w f := by
  simp [phaseOf, isNext_or_maskPurge hc w]

/-- HW_FETCH's OR in phase NEXT gives FETCHED (R184). -/
theorem phaseOf_or_maskFetched (h : phaseOf c.masks w f = .next) :
    phaseOf c.masks (w.or (maskFetched c.masks)) f = .fetched := by
  have hnot : w.isCompleted c.masks ≠ true := fun hcomp => by simp [phaseOf, hcomp] at h
  simp [phaseOf, isFetched_or_maskFetched hc w, isCompleted_or_maskFetched hc w, hnot]

/-- HW_COMPLETE's OR gives COMPLETED (R186). -/
theorem phaseOf_or_maskCompleted :
    phaseOf c.masks (w.or (maskCompleted c.masks)) f = .completed := by
  simp [phaseOf, isCompleted_or_maskCompleted hc w]

end

theorem phaseAdvances_refl (p : Phase) : PhaseAdvances p p := ⟨Nat.le_refl _, Nat.le_succ _⟩

/-- The record a descriptor has after it was replaced. -/
theorem eq_of_getElem?_set {ds : List Desc} {d : Nat} {x y z : Desc} (hx : ds[d]? = some x)
    (hy : (ds.set d z)[d]? = some y) : y = z :=
  Option.some.inj (hy.symm.trans (List.getElem?_set_self (List.getElem?_eq_some_iff.mp hx).1))

/-- Observing a completion keeps `fmt` (R174). -/
theorem observeDone_fmt {s : State} {d : Nat} {x y : Desc} (hx : s.descs[d]? = some x)
    (hy : (s.observeDone d x).descs[d]? = some y) : y.fmt = x.fmt := by
  rw [observeDone_eq s d x hx] at hy
  rw [eq_of_getElem?_set hx hy]

/-- An operation on `d` that is no FORMAT of it advances its cycle (R31). -/
theorem EffectOn.cycleAdvances {i : Instr} {s t : State} {d : Nat} {x y : Desc}
    (h : EffectOn i s d x t) (hw : s.cfg.wf = true) (hx : s.descs[d]? = some x)
    (hy : t.descs[d]? = some y) (hi : isFormatOf i d = false) : CycleAdvances s t d x y := by
  cases h with
  | answered | drawn =>
    obtain rfl : x = y := Option.some.inj (hx.symm.trans hy)
    exact cycleAdvances_of_eq rfl rfl rfl
  | formatted img a hi' => exact absurd hi' (by simp [hi])
  | submitted a hp =>
    obtain rfl : x = y := Option.some.inj (hx.symm.trans hy)
    exact cycleAdvances_of_or rfl (maskNext s.cfg.masks) rfl
      ((atomicRead32_atomicOr32 s hw d _ d).trans (if_pos rfl)) rfl
      (phaseAdvances_or_maskNext hw _ x.fmt hp)
  | purged =>
    obtain rfl : x = y := Option.some.inj (hx.symm.trans hy)
    refine cycleAdvances_of_or rfl (maskPurge s.cfg.masks) rfl
      ((atomicRead32_atomicOr32 s hw d _ d).trans (if_pos rfl)) rfl ?_
    rw [phaseOf_or_maskPurge hw]
    exact phaseAdvances_refl _
  | observed =>
    exact cycleAdvances_of_eq (observeDone_cfg s d x) (atomicRead32_observeDone s d x d)
      (observeDone_fmt hx hy)
  | fetched draws a hp =>
    have hfmt : y.fmt = x.fmt := by rw [eq_of_getElem?_set hx hy]
    refine cycleAdvances_of_or rfl (maskFetched s.cfg.masks) rfl
      ((atomicRead32_fetched s hw d x draws d).trans (if_pos rfl)) hfmt ?_
    rw [phaseOf_or_maskFetched hw _ _ hp, hp]
    exact ⟨by decide, by decide⟩
  | completed n a hp =>
    obtain rfl : x = y := Option.some.inj (hx.symm.trans hy)
    refine cycleAdvances_of_or rfl (maskCompleted s.cfg.masks) rfl
      ((atomicRead32_completed s hw d x n d).trans (if_pos rfl)) rfl ?_
    rw [phaseOf_or_maskCompleted hw, hp]
    exact ⟨by decide, by decide⟩

/-- Settles O14: a descriptor the operation does not name stays as it is, the named one has one of the effects
of `EffectOn`, and FORMAT is excluded. -/
theorem flagsOnlyGrowWithinCycle : Obligations.FlagsOnlyGrowWithinCycle := by
  unfold Obligations.FlagsOnlyGrowWithinCycle
  intro i s t d x y hw h hx hy hi
  by_cases hnamed : ∃ b, descriptorOf i = some b ∧ b.toNat = d
  · obtain ⟨b, hb, rfl⟩ := hnamed
    obtain ⟨x', hx', heff⟩ := exec_effectOn i s t b hb h
    obtain rfl : x = x' := Option.some.inj (hx.symm.trans hx')
    exact heff.cycleAdvances hw hx hy hi
  · push Not at hnamed
    obtain ⟨hcfg, hbytes, hdesc⟩ := exec_leavesAlone i s t hw h d hnamed
    obtain rfl : x = y := Option.some.inj (hx.symm.trans (hdesc.symm.trans hy))
    obtain ⟨h1, h2⟩ := wf_size hw
    have h4 : interlockLen = 4 := rfl
    exact cycleAdvances_of_eq hcfg
      (atomicRead32_congr s t d hcfg fun p hp => hbytes p (by omega)) rfl

end Sys2Proof.Machine
end

section
/-! Descriptor memory, 20_memory.md: the canonical form of the memory along a step (log entry 2), who changes
which byte of a descriptor (R77, R79), and when FORMAT is refused (R78). -/

namespace Sys2Proof.Machine

open Sys2Proof.Safety

/-! The canonical form of the memory. -/

/-- Each effect stores into descriptor memory by the stores of `wf_memWrite` and its like, or not at all. -/
theorem Effect.memoryCanonical {s t : State} (h : Effect s t) (hs : MemoryCanonical s) :
    MemoryCanonical t := by
  cases h with
  | answered | drawn | staged => exact hs
  | formatted d x img => exact wf_formatted s d x img hs
  | submitted d => exact wf_atomicOr32 s d (maskNext s.cfg.masks) hs
  | purged d => exact wf_atomicOr32 s d (maskPurge s.cfg.masks) hs
  | observed d x => simpa [MemoryCanonical, State.layout] using hs
  | fetched d x draws => exact wf_fetched s d x draws hs
  | completed d x n => exact wf_completed s d x (completionDraws s.layout n) hs

/-- Settles O11: a step is idle or has one of the effects of `Effect`, and taking the request does not touch the
memory. -/
theorem stepKeepsMemoryCanonical : Obligations.StepKeepsMemoryCanonical := by
  unfold Obligations.StepKeepsMemoryCanonical
  intro s t hs h
  obtain rfl | ⟨r, rest, -, heff⟩ := step_effect s t h
  · exact hs
  · have htake : MemoryCanonical (s.take r rest) := hs
    exact heff.memoryCanonical htake

/-! The columns of R77's table. -/

/-- The phase is COMPLETED exactly when the flag is set: it is the first test of R30. -/
theorem phaseOf_eq_completed_iff (m : FlagMasks) (w : Interlock) (f : Bool) :
    phaseOf m w f = .completed ↔ w.isCompleted m = true := by
  unfold phaseOf
  split_ifs with hcomp <;> simp [hcomp]

/-- The third column is a completion SW has not observed. -/
theorem stageOf_eq_completedUnseen_iff (p : Phase) (b : Bool) :
    stageOf p b = .completedUnseen ↔ p = .completed ∧ b = false := by
  cases p <;> cases b <;> decide

/-- SW owns every byte of the descriptor: the first and the last column of R77. -/
def SwOwns (st : Stage) : Prop := st = .software ∨ st = .completedSeen

/-- Where FORMAT is enabled SW owns the descriptor (R78): what SW has observed is a completion that is there. -/
theorem swOwns_of_formatEnabled {s : State} {d : Nat} {x : Desc} (hl : InterlockLegal s)
    (hx : s.descs[d]? = some x) (he : formatEnabled (s.phase d x) x.swObsDone = true) :
    SwOwns (stageOf (s.phase d x) x.swObsDone) := by
  by_cases hobs : x.swObsDone = true
  · obtain ⟨-, -, -, -, -, hseen⟩ := hl d x hx
    have hphase : s.phase d x = .completed := (phaseOf_eq_completed_iff ..).mpr (hseen hobs).2
    exact .inr (by simp [hphase, hobs, stageOf])
  · have hphase : s.phase d x = .unformatted ∨ s.phase d x = .formatted := by
      simpa [formatEnabled, hobs] using he
    rcases hphase with h | h <;> exact .inl (by simp [h, stageOf])

/-- In a completion the word still shows `next` (R190). -/
theorem isNext_of_completedUnseen {s : State} {d : Nat} {x : Desc} (hl : InterlockLegal s)
    (hx : s.descs[d]? = some x)
    (hst : stageOf (s.phase d x) x.swObsDone = .completedUnseen) :
    (s.atomicRead32 d).isNext s.cfg.masks = true := by
  obtain ⟨-, hnext, hfetched, -⟩ := hl d x hx
  obtain ⟨hphase, -⟩ := (stageOf_eq_completedUnseen_iff _ _).mp hst
  exact hnext (hfetched ((phaseOf_eq_completed_iff ..).mp hphase))

/-! The rows of R77's table. -/

/-- A byte behind the interlock word is in one of the other three rows. -/
theorem regionOf_ne_interlock (l : Layout) (o : Nat) (ho : ¬o < 4) : regionOf l o ≠ .interlock := by
  unfold regionOf interlockLen
  rw [if_neg ho]
  split_ifs <;> decide

/-- A byte behind the invariant part that is not the driver's is in the variant part's row. -/
theorem regionOf_eq_variantPart (l : Layout) (o : Nat) (h4 : ¬o < 4) (hinv : ¬o < l.invariantLen)
    (hdrv : ¬l.driver.covers o = true) : regionOf l o = .variantPart := by
  unfold regionOf interlockLen
  rw [if_neg h4, if_neg hinv, if_neg hdrv]

/-- `dispatch_timestamp` stands in the variant part's row. -/
theorem regionOf_dispatchTs {c : Config} (hw : c.wf = true) (o : Nat)
    (hcov : c.layout.dispatchTs.covers o = true) : regionOf c.layout o = .variantPart := by
  have hb := wf_var_bounds hw c.layout.dispatchTs (by simp [Layout.varFields])
  have hd := fit_disjoint (wf_varFields hw) 6 7 c.layout.driver c.layout.dispatchTs (by decide) rfl rfl
  have hs := (wf_size hw).1
  have h4 : interlockLen = 4 := rfl
  have ho := (covers_iff _ _).mp hcov
  exact regionOf_eq_variantPart _ _ (by omega) (by omega) (by rw [covers_iff]; omega)

/-! A changed byte of the interlock word. -/

/-- Setting a flag that is set changes nothing. -/
theorem or_eq_self_of_hasFlag {v m : Byte} (hm : isSingleBit m = true) (h : hasFlag v m = true) :
    v ||| m = v := by
  obtain ⟨i, hi, rfl⟩ := (isSingleBit_iff m).mp hm
  rw [hasFlag, and_bit_ne_zero _ _ hi] at h
  apply BitVec.eq_of_getLsbD_eq
  intro j hj
  by_cases hij : i = j
  · subst hij; simp [h]
  · simp [BitVec.getLsbD_twoPow, hij]

section
variable {s t : State} (hw : s.cfg.wf = true) (hc : t.cfg = s.cfg) {d o : Nat} (ho : o < 4)
  (hch : t.byte d o ≠ s.byte d o)
include hw hc ho hch

/-- An OR of a flag of SW's changes the SHI byte only. -/
theorem shi_changed_of_or (b : Byte) (h : t.atomicRead32 d = (s.atomicRead32 d).or ⟨0, 0, b⟩) :
    o = s.cfg.layout.shi.off ∧ t.byte d o = s.byte d o ||| b := by
  have hbyte := byte_of_atomicRead32_or s t hw hc d ⟨0, 0, b⟩ rfl h o ho
  split_ifs at hbyte with hhsi hshi
  · exact absurd (hbyte.trans BitVec.or_zero) hch
  · exact ⟨hshi, hbyte⟩
  · exact absurd hbyte hch

/-- An OR of a flag of HW's changes the HSI byte only. -/
theorem hsi_changed_of_or (b : Byte) (h : t.atomicRead32 d = (s.atomicRead32 d).or ⟨0, b, 0⟩) :
    o = s.cfg.layout.hsi.off ∧ t.byte d o = s.byte d o ||| b := by
  have hbyte := byte_of_atomicRead32_or s t hw hc d ⟨0, b, 0⟩ rfl h o ho
  split_ifs at hbyte with hhsi hshi
  · exact ⟨hhsi, hbyte⟩
  · exact absurd (hbyte.trans BitVec.or_zero) hch
  · exact absurd hbyte hch

end

/-! What the table grants. -/

/-- The ownership table lets the issuer turn byte `o` of descriptor `d`, whose record is `x`, into `v`: the
conclusion of `Obligations.OwnershipTableIsRespected` for one byte. -/
def ChangeGranted (s : State) (d : Nat) (x : Desc) (o : Nat) (v : Byte) : Prop :=
  if o < 4 then interlockGranted s.cfg o (s.byte d o) v (roleOf s.issuer)
    (stageOf (s.phase d x) x.swObsDone) = true
  else writeGranted (roleOf s.issuer) (regionOf s.cfg.layout o)
    (stageOf (s.phase d x) x.swObsDone) = true

section
variable {s : State} {d : Nat} {x : Desc} {o : Nat}

/-- SW may write every row but the interlock word's while it owns the descriptor. -/
theorem writeGranted_of_swOwns {g : Region} {st : Stage} (hg : g ≠ .interlock) (hst : SwOwns st) :
    writeGranted .sw g st = true := by
  rcases hst with rfl | rfl <;> cases g with
  | interlock => exact absurd rfl hg
  | invariantPart | variantPart | driverBytes => rfl

/-- SW may store every byte while it owns the descriptor. -/
theorem changeGranted_of_swOwns (v : Byte) (hr : roleOf s.issuer = .sw)
    (hst : SwOwns (stageOf (s.phase d x) x.swObsDone)) : ChangeGranted s d x o v := by
  unfold ChangeGranted
  rw [hr]
  split
  · rcases hst with h | h <;> rw [h] <;> rfl
  · rename_i ho
    exact writeGranted_of_swOwns (regionOf_ne_interlock s.cfg.layout o ho) hst

/-- SW may set `next` until HW has completed, and `purge` always. -/
theorem changeGranted_shi {b : Byte} (hr : roleOf s.issuer = .sw) (ho : o < 4)
    (hoff : o = s.cfg.layout.shi.off)
    (hb : b = s.cfg.masks.purge ∨
      b = s.cfg.masks.next ∧ stageOf (s.phase d x) x.swObsDone ≠ .completedUnseen) :
    ChangeGranted s d x o (s.byte d o ||| b) := by
  unfold ChangeGranted
  rw [if_pos ho, hr]
  cases hst : stageOf (s.phase d x) x.swObsDone with
  | software | completedSeen => rfl
  | submitted => rcases hb with rfl | ⟨rfl, -⟩ <;> simp [interlockGranted, hoff]
  | completedUnseen =>
    obtain rfl := hb.resolve_right fun h => h.2 hst
    simp [interlockGranted, hoff]

/-- HW may set its flags while it owns the descriptor. -/
theorem changeGranted_hsi {b : Byte} (hr : roleOf s.issuer = .hw) (ho : o < 4)
    (hoff : o = s.cfg.layout.hsi.off) (hb : b = s.cfg.masks.fetched ∨ b = s.cfg.masks.completed)
    (hst : stageOf (s.phase d x) x.swObsDone = .submitted) :
    ChangeGranted s d x o (s.byte d o ||| b) := by
  unfold ChangeGranted
  rw [if_pos ho, hr, hst]
  rcases hb with rfl | rfl <;> simp [interlockGranted, hoff]

/-- HW may store the variant part while it owns the descriptor. -/
theorem changeGranted_variant (v : Byte) (hr : roleOf s.issuer = .hw) (ho : ¬o < 4)
    (hreg : regionOf s.cfg.layout o = .variantPart)
    (hst : stageOf (s.phase d x) x.swObsDone = .submitted) : ChangeGranted s d x o v := by
  unfold ChangeGranted
  rw [if_neg ho, hr, hreg, hst]
  rfl

end

/-! Each operation that stores into a descriptor, held to the table. -/

section
variable {s : State} (hw : s.cfg.wf = true) {d : Nat} {x : Desc} {o : Nat} (hos : o < s.cfg.layout.size)
include hw hos

/-- An atomic OR of a flag of SW's changes the SHI byte only. -/
theorem shi_changed_of_atomicOr32 (b : Byte)
    (hch : (s.atomicOr32 d ⟨0, 0, b⟩).byte d o ≠ s.byte d o) :
    o < 4 ∧ o = s.cfg.layout.shi.off ∧ (s.atomicOr32 d ⟨0, 0, b⟩).byte d o = s.byte d o ||| b := by
  have ho : o < 4 := by
    by_contra h
    exact hch (byte_atomicOr32_of_ge s d _ d o hos (by omega))
  exact ⟨ho, shi_changed_of_or hw (atomicOr32_cfg s d _) ho hch b
    ((atomicRead32_atomicOr32 s hw d _ d).trans (if_pos rfl))⟩

/-- SUBMIT_MARKER: where only `purge` may be set, `next` is set already and no byte changes (R166, R182). -/
theorem changeGranted_submitted (hl : InterlockLegal s) (hr : roleOf s.issuer = .sw)
    (hx : s.descs[d]? = some x)
    (hch : (s.atomicOr32 d (maskNext s.cfg.masks)).byte d o ≠ s.byte d o) :
    ChangeGranted s d x o ((s.atomicOr32 d (maskNext s.cfg.masks)).byte d o) := by
  obtain ⟨ho, hoff, hbyte⟩ := shi_changed_of_atomicOr32 hw hos s.cfg.masks.next hch
  rw [maskNext, hbyte]
  refine changeGranted_shi hr ho hoff (.inr ⟨rfl, fun hst => hch ?_⟩)
  have hnext := isNext_of_completedUnseen hl hx hst
  rw [Interlock.isNext, (atomicRead32_flags s hw d).2] at hnext
  have hbit : isSingleBit s.cfg.masks.next = true := by
    have hpair := wf_shiFlags hw
    simp only [flagPair, Bool.and_eq_true] at hpair
    exact hpair.1.1
  rw [maskNext, hbyte, hoff]
  exact or_eq_self_of_hasFlag hbit hnext

/-- PURGE_MARKER. -/
theorem changeGranted_purged (hr : roleOf s.issuer = .sw)
    (hch : (s.atomicOr32 d (maskPurge s.cfg.masks)).byte d o ≠ s.byte d o) :
    ChangeGranted s d x o ((s.atomicOr32 d (maskPurge s.cfg.masks)).byte d o) := by
  obtain ⟨ho, hoff, hbyte⟩ := shi_changed_of_atomicOr32 hw hos s.cfg.masks.purge hch
  rw [maskPurge, hbyte]
  exact changeGranted_shi hr ho hoff (.inl rfl)

/-- HW_FETCH: the `fetched` flag, and `dispatch_timestamp` behind the interlock word (R184). -/
theorem changeGranted_fetched (draws : FetchDraws) (hr : roleOf s.issuer = .hw)
    (hp : s.phase d x = .next) (hch : (fetched s d x draws).byte d o ≠ s.byte d o) :
    ChangeGranted s d x o ((fetched s d x draws).byte d o) := by
  have hst : stageOf (s.phase d x) x.swObsDone = .submitted := by rw [hp]; rfl
  by_cases ho : o < 4
  · obtain ⟨hoff, hbyte⟩ := hsi_changed_of_or hw (fetched_cfg s d x draws) ho hch s.cfg.masks.fetched
      ((atomicRead32_fetched s hw d x draws d).trans (if_pos rfl))
    rw [hbyte]
    exact changeGranted_hsi hr ho hoff (.inl rfl) hst
  · have hcov : s.cfg.layout.dispatchTs.covers o = true := by
      by_contra hcov
      exact hch ((byte_fetched s hw d x draws d o (by omega) hos).trans (if_neg fun h => hcov h.2))
    exact changeGranted_variant _ hr ho (regionOf_dispatchTs hw o hcov) hst

/-- HW_COMPLETE: the `completed` flag, and the variant part without the driver's bytes (R186). -/
theorem changeGranted_completed (n : Nat) (hr : roleOf s.issuer = .hw) (hp : s.phase d x = .fetched)
    (hch : (completed s d x (completionDraws s.layout n)).byte d o ≠ s.byte d o) :
    ChangeGranted s d x o ((completed s d x (completionDraws s.layout n)).byte d o) := by
  have hst : stageOf (s.phase d x) x.swObsDone = .submitted := by rw [hp]; rfl
  by_cases ho : o < 4
  · obtain ⟨hoff, hbyte⟩ := hsi_changed_of_or hw (completed_cfg s d x (completionDraws s.layout n)) ho hch
      s.cfg.masks.completed ((atomicRead32_completed s hw d x n d).trans (if_pos rfl))
    rw [hbyte]
    exact changeGranted_hsi hr ho hoff (.inr rfl) hst
  · have hkept := byte_completed_outside s hw d x n d o (by omega) hos
    have hreg : regionOf s.cfg.layout o = .variantPart :=
      regionOf_eq_variantPart _ _ ho (fun h => hch (hkept (.inr (.inl h))))
        fun h => hch (hkept (.inr (.inr (.inl h))))
    exact changeGranted_variant _ hr ho hreg hst

end

/-- Whatever an operation has done, a byte it changed is one the table grants its issuer. -/
theorem Effect.changeGranted {s t : State} (h : Effect s t) (hw : s.cfg.wf = true)
    (hl : InterlockLegal s) {d : Nat} {x : Desc} (hx : s.descs[d]? = some x) {o : Nat}
    (hos : o < s.cfg.layout.size) (hch : t.byte d o ≠ s.byte d o) :
    ChangeGranted s d x o (t.byte d o) := by
  have hsize : interlockLen ≤ s.layout.size := ((wf_size hw).1.trans (wf_size hw).2).le
  cases h with
  | answered | drawn | staged => exact absurd rfl hch
  | observed e y => exact absurd (byte_observeDone s e y d o) hch
  | formatted e y img a hr hy he hlen =>
    obtain rfl : d = e := by
      by_contra hne
      exact hch (byte_formatted_of_ne s hw e y img hlen d o hne hos)
    obtain rfl : x = y := Option.some.inj (hx.symm.trans hy)
    exact changeGranted_of_swOwns _ hr (swOwns_of_formatEnabled hl hx he)
  | submitted e y a hr =>
    obtain rfl : d = e := by
      by_contra hne
      exact hch (byte_atomicOr32_of_ne s hsize e _ d o hne hos)
    exact changeGranted_submitted hw hos hl hr hx hch
  | purged e y a hr =>
    obtain rfl : d = e := by
      by_contra hne
      exact hch (byte_atomicOr32_of_ne s hsize e _ d o hne hos)
    exact changeGranted_purged hw hos hr hch
  | fetched e y draws a hr hy hp =>
    obtain rfl : d = e := by
      by_contra hne
      exact hch (byte_fetched_of_ne s hw e y draws d o hne hos)
    obtain rfl : x = y := Option.some.inj (hx.symm.trans hy)
    exact changeGranted_fetched hw hos draws hr hp hch
  | completed e y n a hr hy hp =>
    obtain rfl : d = e := by
      by_contra hne
      exact hch (byte_completed_of_ne s hw e y n d o hne hos)
    obtain rfl : x = y := Option.some.inj (hx.symm.trans hy)
    exact changeGranted_completed hw hos n hr hp hch

/-- Settles O15: `Effect.changeGranted` for the effect the instruction has had. -/
theorem ownershipTableIsRespected : Obligations.OwnershipTableIsRespected := by
  unfold Obligations.OwnershipTableIsRespected
  intro i s t d x o hw hl h hx hos hch
  exact (exec_effect i s t h).changeGranted hw hl hx hos hch

/-! FORMAT of a descriptor that is not SW's. -/

/-- FORMAT is not enabled from the submission until the completion is observed (R78). -/
theorem formatEnabled_eq_false {p : Phase} (hp : p = .next ∨ p = .fetched ∨ p = .completed) :
    formatEnabled p false = false := by
  rcases hp with rfl | rfl | rfl <;> rfl

/-- Settles O27: an admitted FORMAT is refused where `formatEnabled` is false. -/
theorem formatOfOwnedDescriptorIsRefused : Obligations.FormatOfOwnedDescriptorIsRefused := by
  unfold Obligations.FormatOfOwnedDescriptorIsRefused
  intro s d acfunc cmd opts seq ats alen asiv x hadm hp hobs
  refine (admitted_eq s .format d x _ hadm).trans (if_neg ?_)
  rw [hobs, formatEnabled_eq_false hp]
  decide

end Sys2Proof.Machine
end

section
/-! The encoding of requests, 30_encoding.md: the decoder and the encoder invert each other on well-formed
instructions and on the requests that decode (R120, R121), and the codes no table lists (R122). -/

namespace Sys2Proof.Machine

/-! Runs of a byte array, side by side. -/

theorem slice_append_slice (bs : List Byte) (o m p n : Nat) (h : o + m = p) :
    slice bs o m ++ slice bs p n = slice bs o (m + n) := by
  rw [slice, slice, slice, List.take_add, List.drop_drop, h]

theorem slice_append_drop (bs : List Byte) (o n p : Nat) (h : o + n = p) :
    slice bs o n ++ bs.drop p = bs.drop o := by
  rw [slice, ← h, ← List.drop_drop, List.take_append_drop]

theorem slice_to_end (bs : List Byte) (o n : Nat) (h : bs.length = o + n) : slice bs o n = bs.drop o :=
  List.take_of_length_le (by rw [List.length_drop]; omega)

theorem byteAt_cons_drop (bs : List Byte) (o p : Nat) (h : o + 1 = p) (ho : o < bs.length) :
    byteAt bs o :: bs.drop p = bs.drop o := by
  rw [List.drop_eq_getElem_cons ho, h, byteAt, List.getD_eq_getElem _ _ ho]

theorem singleton_byteAt (bs : List Byte) (o : Nat) (ho : o < bs.length) :
    [byteAt bs o] = slice bs o 1 := by
  rw [slice, ← byteAt_cons_drop bs o (o + 1) rfl ho]
  rfl

theorem byteAt_cons_slice (bs : List Byte) (o p n : Nat) (h : o + 1 = p) (ho : o < bs.length) :
    byteAt bs o :: slice bs p n = slice bs o (1 + n) := by
  rw [← slice_append_slice bs o 1 p n h, ← singleton_byteAt bs o ho]
  rfl

/-! A field read from a byte array is stored as the bytes it was read from. -/

theorem toBe16_be16At (bs : List Byte) (o : Nat) (h : o + 2 ≤ bs.length) :
    toBe16 (be16At bs o) = slice bs o 2 := by
  rw [be16At, toBe16_be16, singleton_byteAt bs (o + 1) h, byteAt_cons_slice bs o (o + 1) 1 rfl (by omega)]

theorem toBe32_be32At (bs : List Byte) (o : Nat) (h : o + 4 ≤ bs.length) :
    toBe32 (be32At bs o) = slice bs o 4 := by
  rw [← slice_append_slice bs o 2 (o + 2) 2 rfl, ← toBe16_be16At bs o (by omega),
    ← toBe16_be16At bs (o + 2) h]
  simp [be32At, be16At]

theorem toBe64_be64At (bs : List Byte) (o : Nat) (h : o + 8 ≤ bs.length) :
    toBe64 (be64At bs o) = slice bs o 8 := by
  rw [← slice_append_slice bs o 4 (o + 4) 4 rfl, ← toBe32_be32At bs o (by omega),
    ← toBe32_be32At bs (o + 4) h]
  simp [be64At, be32At]

/-- The operand of `PUSH32`, least significant byte first (R63). -/
theorem toLe32_le32At (bs : List Byte) (o : Nat) (h : o + 4 ≤ bs.length) :
    toLe32 (le32At bs o) = slice bs o 4 := by
  rw [← toBe32_be32At bs o h]
  simp [toLe32, le32At, le32, be32At]

/-- A field whose width is a parameter. -/
theorem toBe_beAt (bs : List Byte) (o n : Nat) (h : o + n ≤ bs.length) :
    toBe n (beAt bs o n) = slice bs o n := by
  have := toBe_ofBe (slice bs o n)
  rwa [length_slice bs o n h, ← beAt_eq_slice bs o n h] at this

theorem le32At_of_slice (bs : List Byte) (o : Nat) (v : U32) (h : slice bs o 4 = toLe32 v) :
    le32At bs o = v := by
  have hb (i : Nat) (hi : i < 4) : byteAt bs (o + i) = byteAt (toLe32 v) i := by
    rw [← h, byteAt_slice bs o 4 i hi]
  rw [le32At, ← Nat.add_zero o, hb 0 (by decide), hb 1 (by decide), hb 2 (by decide), hb 3 (by decide)]
  exact be32_toBe32 v

/-! The `kinds` byte (R121). -/

theorem kindsLegal_kindsByte (a b : BufKind) : kindsLegal (kindsByte a b) = true := by
  cases a <;> cases b <;> rfl

theorem kindOfBit_kindsByte (a b : BufKind) :
    kindOfBit (kindsByte a b) 0 = a ∧ kindOfBit (kindsByte a b) 1 = b := by
  cases a <;> cases b <;> exact ⟨rfl, rfl⟩

/-- A byte whose bits 2 to 7 are 0 is the `kinds` byte of the two kinds its bits 0 and 1 say. -/
theorem kindsByte_kindOfBit : ∀ k : Byte, kindsLegal k = true →
    kindsByte (kindOfBit k 0) (kindOfBit k 1) = k := by
  decide

/-! What the decoder answers. -/

/-- A byte string decodes exactly where its first byte is a code, its length is the one of that code, and
its operands are admitted. -/
theorem decode_eq_ok_iff (c : Config) (bs : List Byte) (i : Instr) :
    decode c bs = .ok i ↔ bs ≠ [] ∧ ∃ op, opcodeOf c.opCodes (byteAt bs 0) = some op ∧
      bs.length = requestLength c bs op ∧ decodeFields c bs op = .ok i := by
  cases bs with
  | nil => simp [decode]
  | cons code ops =>
    have hcode : byteAt (code :: ops) 0 = code := rfl
    rw [hcode, decode]
    cases opcodeOf c.opCodes code with
    | none => simp
    | some op =>
      simp only [ne_eq, List.cons_ne_nil, not_false_eq_true, Option.some.injEq, true_and, exists_eq_left']
      split
      next hshort => simp only [reduceCtorEq, hshort.ne, false_and]
      next =>
        split
        next hlong => simp only [reduceCtorEq, hlong.ne', false_and]
        next => simp only [iff_and_self]; omega

/-- The decoder's answer to a code that names no operation (R122). -/
theorem decode_of_unlisted (c : Config) (code : Byte) (ops : List Byte) (h : code ∉ c.opCodes.toList) :
    decode c (code :: ops) = .error (.unknownCode code) := by
  simp only [decode, (opcodeOf_eq_none c.opCodes code).mpr h]

theorem step_of_decode_error {s : State} {r : Request} {rest : List Request} {e : DecodeError}
    (hs : s.stream = r :: rest) (hd : decode s.cfg r.bytes = .error e) :
    step s = .refused (.invalidRequest e) := by
  simp [step, fetch, hs, hd]

/-! Encoding, then decoding. A field is read back because the bytes at its place are those the encoder put
there (`be64At_of_slice` and its like); the appended runs are bracketed to the right first, so that finding
those bytes is a walk along the list. -/

/-- The request of every well-formed instruction has the one length of its operation (R121). -/
theorem requestLength_encode : ∀ i : Instr, Laws.RequestLength.Statement i
  | .crc16 init n data => Laws.RequestLength.crc16 init n data
  | .format d acfunc cmd opts seq ats alen asiv =>
    Laws.RequestLength.format d acfunc cmd opts seq ats alen asiv
  | .submitMarker d => Laws.RequestLength.submitMarker d
  | .purgeMarker d => Laws.RequestLength.purgeMarker d
  | .isFetched d => Laws.RequestLength.isFetched d
  | .isCompleted d => Laws.RequestLength.isCompleted d
  | .verifyVariantCrc d => Laws.RequestLength.verifyVariantCrc d
  | .result d => Laws.RequestLength.result d
  | .verifyInvariantCrc d => Laws.RequestLength.verifyInvariantCrc d
  | .hwFetch d => Laws.RequestLength.hwFetch d
  | .hwComplete d => Laws.RequestLength.hwComplete d
  | .encInflAsiv opts p => Laws.RequestLength.encInflAsiv opts p
  | .encDeflAsiv opts p => Laws.RequestLength.encDeflAsiv opts p
  | .decInflAsv cmd asv => Laws.RequestLength.decInflAsv cmd asv
  | .decDeflAsv cmd asv => Laws.RequestLength.decDeflAsv cmd asv
  | .carry onumbits k otail => Laws.RequestLength.carry onumbits k otail
  | .decInflAsiv cmd asiv => Laws.RequestLength.decInflAsiv cmd asiv
  | .decDeflAsiv cmd asiv => Laws.RequestLength.decDeflAsiv cmd asiv
  | .encInflAsv r => Laws.RequestLength.encInflAsv r
  | .encDeflAsv r => Laws.RequestLength.encDeflAsv r
  | .fifoInit => Laws.RequestLength.fifoInit
  | .push b => Laws.RequestLength.push b
  | .push32 v => Laws.RequestLength.push32 v
  | .pop => Laws.RequestLength.pop
  | .pop16 => Laws.RequestLength.pop16
  | .used => Laws.RequestLength.used
  | .free => Laws.RequestLength.free

theorem decodeFields_encode_crc16 (c : Config) (init : U16) (n : Nat) (data : List Byte)
    (hn : n < 2 ^ c.crcLenBits) :
    decodeFields c (encode c (.crc16 init n data)) .crc16 = .ok (.crc16 init n data) := by
  have hinit : be16At (encode c (.crc16 init n data)) 1 = init := be16At_of_slice _ _ _ rfl
  have hdata : (encode c (.crc16 init n data)).drop (3 + nBytes c) = data :=
    List.drop_left' (l₁ := c.opCodes.crc16 :: (toBe16 init ++ toBe (nBytes c) n)) (by simp; omega)
  rw [decodeFields, Laws.RequestLength.crcLength_encode c init n data hn, if_pos hn, hinit, hdata]

/-- `ats` is read from its place where the request has one, and is 0 where it has none. -/
theorem ats_encode (c : Config) (d acfunc cmd : Byte) (opts : U16) (seq : Nat) (ats : U64) (alen : Byte)
    (asiv : List Byte) (h : c.atsPresent = true ∨ ats = 0) :
    (if c.atsPresent then be64At (encode c (.format d acfunc cmd opts seq ats alen asiv)) (offAts c) else 0)
      = ats := by
  cases hp : c.atsPresent with
  | false =>
    rw [if_neg (by decide)]
    exact (h.resolve_left (by simp [hp])).symm
  | true =>
    rw [if_pos rfl]
    apply be64At_of_slice
    have hsplit : encode c (.format d acfunc cmd opts seq ats alen asiv) =
        (c.opCodes.format :: ([d, acfunc, cmd] ++ toBe16 opts ++ toBe (seqBytes c) seq)) ++
          (toBe64 ats ++ ([alen] ++ asiv)) := by
      simp [encode, encodeOperands, hp, opcodeByte, instrOpcode]
    rw [hsplit, slice, List.drop_left' (by simp [offAts]; omega), List.take_left' (length_toBe64 ats)]

theorem decodeFields_encode_format (c : Config) (d acfunc cmd : Byte) (opts : U16) (seq : Nat) (ats : U64)
    (alen : Byte) (asiv : List Byte) (hseq : seq < 2 ^ c.seqWidth) (hats : c.atsPresent = true ∨ ats = 0) :
    decodeFields c (encode c (.format d acfunc cmd opts seq ats alen asiv)) .format =
      .ok (.format d acfunc cmd opts seq ats alen asiv) := by
  have hopts : be16At (encode c (.format d acfunc cmd opts seq ats alen asiv)) 4 = opts :=
    be16At_of_slice _ _ _ rfl
  have hasiv : (encode c (.format d acfunc cmd opts seq ats alen asiv)).drop (offAlen c + 1) = asiv :=
    List.drop_left' (l₁ := c.opCodes.format :: ([d, acfunc, cmd] ++ toBe16 opts ++ toBe (seqBytes c) seq
      ++ (if c.atsPresent then toBe64 ats else []) ++ [alen])) (by
        unfold offAlen offAts
        split <;> simp <;> omega)
  rw [decodeFields, Laws.RequestLength.seqNumber_encode c _ _ _ _ _ _ _ _ hseq, if_pos hseq, hopts,
    ats_encode c _ _ _ _ _ _ _ _ hats, Laws.RequestLength.alen_encode, hasiv]
  rfl

theorem decodeInflParams_encode (c : Config) (opts : U16) (p : InflParams) :
    decodeInflParams (encode c (.encInflAsiv opts p)) = p := by
  obtain ⟨hin, hout⟩ := kindOfBit_kindsByte p.inKind p.outKind
  rw [encode, encodeOperands]
  simp only [List.append_assoc]
  rw [decodeInflParams, be64At_of_slice _ 4 p.inBuff rfl, be32At_of_slice _ 12 p.inBuffLen rfl,
    be32At_of_slice _ 16 p.inCrc32 rfl, be64At_of_slice _ 20 p.outBuff rfl,
    be32At_of_slice _ 28 p.outBuffLen rfl, be32At_of_slice _ 32 p.inAdler32 rfl,
    be64At_of_slice _ 36 p.inDict rfl, be32At_of_slice _ 44 p.inDictLen rfl,
    be64At_of_slice _ 48 p.scratch rfl, be32At_of_slice _ 56 p.scratchLen rfl,
    be16At_of_slice _ 60 p.inHdrBits rfl, be64At_of_slice _ 64 p.outDict rfl,
    be32At_of_slice _ 72 p.outDictLen rfl, byteAt_of_slice _ 3 (kindsByte p.inKind p.outKind) rfl,
    byteAt_of_slice _ 62 p.hdrIb rfl, byteAt_of_slice _ 63 p.scratchIb rfl, hin, hout]

theorem decodeDeflParams_encode (c : Config) (opts : U16) (p : DeflParams) (h : p.ibits.length = 7) :
    decodeDeflParams (encode c (.encDeflAsiv opts p)) = p := by
  obtain ⟨hin, hout⟩ := kindOfBit_kindsByte p.inKind p.outKind
  have htail : (encode c (.encDeflAsiv opts p)).drop 60 = p.ibits ++ [p.inumbits] := by
    rw [encode, encodeOperands]
    simp only [List.append_assoc]
    rfl
  have hibits : slice (encode c (.encDeflAsiv opts p)) 60 7 = p.ibits := by
    rw [slice, htail, List.take_left' h]
  have hnum : byteAt (encode c (.encDeflAsiv opts p)) 67 = p.inumbits := by
    rw [← byteAt_drop _ 60 7, htail]
    simp [byteAt, h]
  rw [decodeDeflParams, hibits, hnum, encode, encodeOperands]
  simp only [List.append_assoc]
  rw [be64At_of_slice _ 4 p.inBuff rfl, be32At_of_slice _ 12 p.inBuffLen rfl,
    be32At_of_slice _ 16 p.inCrc32 rfl, be64At_of_slice _ 20 p.outBuff rfl,
    be32At_of_slice _ 28 p.outBuffLen rfl, be32At_of_slice _ 32 p.inAdler32 rfl,
    be64At_of_slice _ 36 p.inDict rfl, be32At_of_slice _ 44 p.inDictLen rfl,
    be64At_of_slice _ 48 p.outDict rfl, be32At_of_slice _ 56 p.outDictLen rfl,
    byteAt_of_slice _ 3 (kindsByte p.inKind p.outKind) rfl, hin, hout]

theorem decodeInflResult_encode (c : Config) (r : InflResult) :
    decodeInflResult (encode c (.encInflAsv r)) = r := by
  rw [decodeInflResult, be16At_of_slice _ 1 r.outDictUsed rfl, byteAt_of_slice _ 3 r.copyblockLen rfl,
    byteAt_of_slice _ 4 r.inflStat rfl, be32At_of_slice _ 5 r.hdrStart rfl,
    byteAt_of_slice _ 9 r.hdrStartBits rfl, be32At_of_slice _ 10 r.outCrc32 rfl,
    be32At_of_slice _ 14 r.outAdler32 rfl, be32At_of_slice _ 18 r.inpProcessed rfl,
    be32At_of_slice _ 22 r.outpReturned rfl, byteAt_of_slice _ 26 r.outDictOffs rfl]

theorem decodeDeflResult_encode (c : Config) (r : DeflResult) :
    decodeDeflResult (encode c (.encDeflAsv r)) = r := by
  have htail : (encode c (.encDeflAsv r)).drop 20 = r.otail := rfl
  rw [decodeDeflResult, be16At_of_slice _ 1 r.outDictUsed rfl, byteAt_of_slice _ 3 r.onumbits rfl,
    be32At_of_slice _ 4 r.outCrc32 rfl, be32At_of_slice _ 8 r.outAdler32 rfl,
    be32At_of_slice _ 12 r.inpProcessed rfl, be32At_of_slice _ 16 r.outpReturned rfl, htail]

/-- The operands of a well-formed instruction are read back from its request. -/
theorem decodeFields_encode (c : Config) (i : Instr) (h : WellFormed c i = true) :
    decodeFields c (encode c i) (instrOpcode i) = .ok i := by
  cases i with
  | crc16 init n data =>
    simp only [WellFormed, Bool.and_eq_true, decide_eq_true_eq] at h
    obtain ⟨-, hn⟩ := h
    exact decodeFields_encode_crc16 c init n data hn
  | format d acfunc cmd opts seq ats alen asiv =>
    simp only [WellFormed, Bool.and_eq_true, Bool.or_eq_true, decide_eq_true_eq, beq_iff_eq] at h
    obtain ⟨⟨-, hseq⟩, hats⟩ := h
    exact decodeFields_encode_format c d acfunc cmd opts seq ats alen asiv hseq hats
  | encInflAsiv opts p =>
    rw [instrOpcode, decodeFields, byteAt_of_slice _ 3 (kindsByte p.inKind p.outKind) rfl,
      if_pos (kindsLegal_kindsByte _ _), be16At_of_slice _ 1 opts rfl, decodeInflParams_encode]
  | encDeflAsiv opts p =>
    have hl : p.ibits.length = 7 := by simpa [WellFormed] using h
    rw [instrOpcode, decodeFields, byteAt_of_slice _ 3 (kindsByte p.inKind p.outKind) rfl,
      if_pos (kindsLegal_kindsByte _ _), be16At_of_slice _ 1 opts rfl, decodeDeflParams_encode c opts p hl]
  | encInflAsv r => rw [instrOpcode, decodeFields, decodeInflResult_encode]
  | encDeflAsv r => rw [instrOpcode, decodeFields, decodeDeflResult_encode]
  | push32 v => rw [instrOpcode, decodeFields, le32At_of_slice _ 1 v rfl]
  | submitMarker | purgeMarker | isFetched | isCompleted | verifyVariantCrc | result | verifyInvariantCrc
  | hwFetch | hwComplete | decInflAsv | decDeflAsv | carry | decInflAsiv | decDeflAsiv | fifoInit | push
  | pop | pop16 | used | free => rfl

/-- Settles O1: the code of the request names its operation, its length is the one of that operation, and
its operands are read back. -/
theorem decodeEncodeRoundTrip : Obligations.DecodeEncodeRoundTrip := by
  unfold Obligations.DecodeEncodeRoundTrip
  intro c i hcodes hwf
  exact (decode_eq_ok_iff c (encode c i) i).mpr ⟨List.cons_ne_nil _ _, instrOpcode i,
    opcodeOf_opcodeByte hcodes (instrOpcode i), requestLength_encode i c hwf, decodeFields_encode c i hwf⟩

/-! Decoding, then encoding. -/

/-- The instruction is a well-formed one of the operation, and has these operand bytes. -/
structure HasRequest (c : Config) (op : Opcode) (ops : List Byte) (i : Instr) : Prop where
  opcode : instrOpcode i = op
  wellFormed : WellFormed c i = true
  operands : encodeOperands c i = ops

theorem hasRequest_crc16 {c : Config} {bs : List Byte} (hl : bs.length = requestLength c bs .crc16)
    (hn : crcLength c bs < 2 ^ c.crcLenBits) :
    HasRequest c .crc16 (bs.drop 1) (.crc16 (be16At bs 1) (crcLength c bs) (bs.drop (3 + nBytes c))) := by
  rw [requestLength] at hl
  refine ⟨rfl, by simp [WellFormed, hn, hl], ?_⟩
  rw [encodeOperands, crcLength]
  simp (disch := omega) only [toBe16_be16At, toBe_beAt, slice_append_slice, slice_append_drop]

theorem hasRequest_format {c : Config} {bs : List Byte} (hl : bs.length = requestLength c bs .format)
    (hseq : seqNumber c bs < 2 ^ c.seqWidth) :
    HasRequest c .format (bs.drop 1) (.format (byteAt bs 1) (byteAt bs 2) (byteAt bs 3) (be16At bs 4)
      (seqNumber c bs) (if c.atsPresent then be64At bs (offAts c) else 0) (byteAt bs (offAlen c))
      (bs.drop (offAlen c + 1))) := by
  rw [requestLength] at hl
  refine ⟨rfl, ?_, ?_⟩
  · cases hp : c.atsPresent <;> simp [WellFormed, hseq, hl, hp]
  · have hats : offAts c = 6 + seqBytes c := rfl
    rw [encodeOperands, seqNumber]
    cases hp : c.atsPresent with
    | true =>
      have halen : offAlen c = offAts c + 8 := if_pos hp
      simp (disch := omega) only [if_true, toBe16_be16At, toBe_beAt, toBe64_be64At, singleton_byteAt,
        byteAt_cons_slice, slice_append_slice, slice_append_drop]
    | false =>
      have halen : offAlen c = offAts c := if_neg (by simp [hp])
      simp (disch := omega) only [Bool.false_eq_true, if_false, List.append_nil, toBe16_be16At, toBe_beAt,
        singleton_byteAt, byteAt_cons_slice, slice_append_slice, slice_append_drop]

theorem hasRequest_encInflAsiv {c : Config} {bs : List Byte} (hl : bs.length = 76)
    (hk : kindsLegal (byteAt bs 3) = true) :
    HasRequest c .encInflAsiv (bs.drop 1) (.encInflAsiv (be16At bs 1) (decodeInflParams bs)) := by
  refine ⟨rfl, rfl, ?_⟩
  simp (disch := omega) only [encodeOperands, decodeInflParams, kindsByte_kindOfBit _ hk, toBe16_be16At,
    toBe32_be32At, toBe64_be64At, singleton_byteAt, byteAt_cons_slice, slice_append_slice, slice_to_end,
    slice_append_drop]

theorem hasRequest_encDeflAsiv {c : Config} {bs : List Byte} (hl : bs.length = 68)
    (hk : kindsLegal (byteAt bs 3) = true) :
    HasRequest c .encDeflAsiv (bs.drop 1) (.encDeflAsiv (be16At bs 1) (decodeDeflParams bs)) := by
  have hibits : (slice bs 60 7).length = 7 := length_slice bs 60 7 (by omega)
  refine ⟨rfl, by simp [WellFormed, decodeDeflParams, hibits], ?_⟩
  simp (disch := omega) only [encodeOperands, decodeDeflParams, kindsByte_kindOfBit _ hk, toBe16_be16At,
    toBe32_be32At, toBe64_be64At, singleton_byteAt, slice_append_slice, slice_to_end, slice_append_drop]

theorem hasRequest_encInflAsv {c : Config} {bs : List Byte} (hl : bs.length = 27) :
    HasRequest c .encInflAsv (bs.drop 1) (.encInflAsv (decodeInflResult bs)) := by
  refine ⟨rfl, rfl, ?_⟩
  simp (disch := omega) only [encodeOperands, decodeInflResult, toBe16_be16At, toBe32_be32At, singleton_byteAt,
    byteAt_cons_slice, slice_append_slice, slice_to_end, slice_append_drop]

theorem hasRequest_encDeflAsv {c : Config} {bs : List Byte} (hl : bs.length = 20 + c.otailLen) :
    HasRequest c .encDeflAsv (bs.drop 1) (.encDeflAsv (decodeDeflResult bs)) := by
  refine ⟨rfl, by simp [WellFormed, decodeDeflResult, hl], ?_⟩
  simp (disch := omega) only [encodeOperands, decodeDeflResult, toBe16_be16At, toBe32_be32At, singleton_byteAt,
    slice_append_slice, slice_append_drop]

theorem hasRequest_carry {c : Config} {bs : List Byte} (hl : bs.length = 3 + c.otailLen) :
    HasRequest c .carry (bs.drop 1) (.carry (byteAt bs 1) (byteAt bs 2) (bs.drop 3)) := by
  refine ⟨rfl, by simp [WellFormed, hl], ?_⟩
  rw [encodeOperands, byteAt_cons_drop bs 2 3 rfl (by omega), byteAt_cons_drop bs 1 2 rfl (by omega)]

/-- An operand check of the decoder that lets an instruction through. -/
theorem guard_of_ok {p : Prop} [Decidable p] {i j : Instr} {e : DecodeError}
    (h : (if p then Except.ok i else Except.error e) = .ok j) : p ∧ i = j := by
  split at h
  next hp => exact ⟨hp, Except.ok.inj h⟩
  next => cases h

/-- A request of the right length that decodes gives a well-formed instruction of its operation, whose
operand bytes are those behind the code byte. -/
theorem hasRequest_of_decodeFields {c : Config} {bs : List Byte} {op : Opcode} {i : Instr}
    (hl : bs.length = requestLength c bs op) (h : decodeFields c bs op = .ok i) :
    HasRequest c op (bs.drop 1) i := by
  cases op with
  | crc16 =>
    obtain ⟨hn, rfl⟩ := guard_of_ok h
    exact hasRequest_crc16 hl hn
  | format =>
    obtain ⟨hseq, rfl⟩ := guard_of_ok h
    exact hasRequest_format hl hseq
  | encInflAsiv =>
    obtain ⟨hk, rfl⟩ := guard_of_ok h
    exact hasRequest_encInflAsiv hl hk
  | encDeflAsiv =>
    obtain ⟨hk, rfl⟩ := guard_of_ok h
    exact hasRequest_encDeflAsiv hl hk
  | encInflAsv => obtain rfl := Except.ok.inj h; exact hasRequest_encInflAsv hl
  | encDeflAsv => obtain rfl := Except.ok.inj h; exact hasRequest_encDeflAsv hl
  | carry => obtain rfl := Except.ok.inj h; exact hasRequest_carry hl
  | push32 =>
    obtain rfl := Except.ok.inj h
    rw [requestLength] at hl
    exact ⟨rfl, rfl, (toLe32_le32At bs 1 (by omega)).trans (slice_to_end bs 1 4 hl)⟩
  | decInflAsv | decDeflAsv | decInflAsiv | decDeflAsiv =>
    obtain rfl := Except.ok.inj h
    rw [requestLength] at hl
    exact ⟨rfl, by simp [WellFormed, hl], byteAt_cons_drop bs 1 2 rfl (by omega)⟩
  | submitMarker | purgeMarker | isFetched | isCompleted | verifyVariantCrc | result | verifyInvariantCrc
  | hwFetch | hwComplete | push =>
    obtain rfl := Except.ok.inj h
    rw [requestLength] at hl
    exact ⟨rfl, rfl, (singleton_byteAt bs 1 (by omega)).trans (slice_to_end bs 1 1 hl)⟩
  | fifoInit | pop | pop16 | used | free =>
    obtain rfl := Except.ok.inj h
    rw [requestLength] at hl
    exact ⟨rfl, rfl, (List.drop_eq_nil_of_le hl.le).symm⟩

/-- Settles O2: the code byte is that of the operation it names, and the operand bytes are those of the
decoded instruction. -/
theorem decodedRequestIsItsEncoding : Obligations.DecodedRequestIsItsEncoding := by
  unfold Obligations.DecodedRequestIsItsEncoding
  intro c bs i hdec
  obtain ⟨hne, op, hcode, hl, hfields⟩ := (decode_eq_ok_iff c bs i).mp hdec
  obtain ⟨hop, hwf, hops⟩ := hasRequest_of_decodeFields hl hfields
  refine ⟨hwf, ?_⟩
  rw [encode, hop, opcodeByte_of_opcodeOf hcode, hops]
  exact byteAt_cons_drop bs 0 1 rfl (List.length_pos_of_ne_nil hne)

/-! Codes outside the table, and requests written out. -/

/-- Settles O3: what no table lists decodes to its refusal, and the step hands that refusal on. -/
theorem unlistedCodesAreRefused : Obligations.UnlistedCodesAreRefused := by
  unfold Obligations.UnlistedCodesAreRefused
  refine ⟨fun s a code ops rest hs hcode => ?_, rfl⟩
  have hdec := decode_of_unlisted s.cfg code ops hcode
  exact ⟨hdec, step_of_decode_error hs hdec⟩

/-- Bytes that are the request of a well-formed instruction decode to it, with the codes of R120. -/
theorem decode_of_encode_default {bs : List Byte} {i : Instr} (hwf : WellFormed Config.default i = true)
    (hbs : encode Config.default i = bs) : decode Config.default bs = .ok i :=
  hbs ▸ decodeEncodeRoundTrip Config.default i (by decide) hwf

/-- Settles O4: each byte string is the request the encoder writes for its instruction. -/
theorem writtenRequestsDecode : Obligations.WrittenRequestsDecode := by
  unfold Obligations.WrittenRequestsDecode
  exact ⟨decode_of_encode_default (by decide) (by decide), decode_of_encode_default (by decide) (by decide),
    decode_of_encode_default (by decide) (by decide), decode_of_encode_default (by decide) (by decide),
    decode_of_encode_default (by decide) (by decide)⟩

end Sys2Proof.Machine
end

section
/-! The Checksum Engine, 40_checksum_engine.md: the operation CRC16 (R141, R144), the byte step bit by bit
(R142), and what follows of its being linear and injective (R145, R147, R148). -/

namespace Sys2Proof.Machine

open Sys2Proof.Safety

/-! The operation. -/

/-- What an admitted CRC16 answers (R141). -/
theorem exec_crc16_granted {s : State} (h : RoleGranted s .crc16) (init : U16) (n : Nat) (data : List Byte) :
    exec (.crc16 init n data) s =
      .next { s with answer := some ⟨.ok, .crc (crc16 (data.take n) init)⟩ } :=
  issue_granted s .crc16 _ h

/-- A CRC16 that answers was admitted. -/
theorem exec_crc16_next_iff (s t : State) (init : U16) (n : Nat) (data : List Byte) :
    exec (.crc16 init n data) s = .next t ↔
      RoleGranted s .crc16 ∧ t = { s with answer := some ⟨.ok, .crc (crc16 (data.take n) init)⟩ } :=
  (issue_next_iff s t .crc16 _).trans (and_congr_right' (give_eq_next_iff s t .ok _))

/-- Settles O19: `n` is the length of the data, so all of it is folded. -/
theorem crc16ReturnsFold : Obligations.Crc16ReturnsFold := by
  unfold Obligations.Crc16ReturnsFold
  rintro s init n data hrole rfl
  rw [exec_crc16_granted hrole, List.take_length, crc16]

/-- Settles O21: the first answer tells that the role is granted and which value the second run starts from;
the fold over the concatenation is the second fold after the first. -/
theorem crc16Composes : Obligations.Crc16Composes := by
  unfold Obligations.Crc16Composes
  rintro s t u a b _ _ init va vb rfl rfl ht hva hu hvb
  obtain ⟨hrole, rfl⟩ := (exec_crc16_next_iff ..).mp ht
  obtain ⟨-, rfl⟩ := (exec_crc16_next_iff ..).mp hu
  obtain rfl : crc16 a init = va := by simpa using hva
  obtain rfl : crc16 b (crc16 a init) = vb := by simpa using hvb
  rw [exec_crc16_granted hrole, ← List.length_append, List.take_length, crc16_append]

/-! One shift: what is shifted, and the polynomial fed back. -/

/-- The polynomial, when the bit shifted out is 1 (R142). -/
def crc16Feedback (out : Bool) : U16 := if out then 0x1021 else 0

@[simp] theorem crc16Feedback_false : crc16Feedback false = 0#16 := rfl

theorem crc16Feedback_xor (a b : Bool) : crc16Feedback (a ^^ b) = crc16Feedback a ^^^ crc16Feedback b := by
  cases a <;> cases b <;> rfl

/-- The constant term of the polynomial is 1: the bit shifted out comes back as the lowest one. -/
theorem getLsbD_zero_crc16Feedback (a : Bool) : (crc16Feedback a).getLsbD 0 = a := by
  cases a <;> rfl

/-- The test with 0x8000 reads bit 15 (R142). -/
theorem crc16Shift_eq (c : U16) : crc16Shift c = c <<< 1 ^^^ crc16Feedback (c.getLsbD 15) := by
  have htest : c &&& 0x8000 = if c.getLsbD 15 then 0x8000 else 0 := BitVec.and_twoPow c 15
  rw [crc16Shift, htest]
  cases c.getLsbD 15 <;> simp [crc16Feedback]

theorem crc16Shift_xor (a b : U16) : crc16Shift (a ^^^ b) = crc16Shift a ^^^ crc16Shift b := by
  simp only [crc16Shift_eq, BitVec.shiftLeft_xor_distrib, BitVec.getLsbD_xor, crc16Feedback_xor]
  ac_rfl

/-- No value shifts to 0 but 0: the lowest bit tells the bit shifted out, the others are those that stay. -/
theorem crc16Shift_eq_zero {c : U16} (h : crc16Shift c = 0) : c = 0 := by
  rw [crc16Shift_eq] at h
  have hout : c.getLsbD 15 = false := by
    have hlow : (c <<< 1 ^^^ crc16Feedback (c.getLsbD 15)).getLsbD 0 = false := by rw [h]; rfl
    have hfill : (c <<< 1).getLsbD 0 = false := BitVec.getLsbD_shiftLeft ..
    rwa [BitVec.getLsbD_xor, getLsbD_zero_crc16Feedback, hfill, Bool.false_xor] at hlow
  have hstay : c <<< 1 = 0 := by rwa [hout, crc16Feedback_false, BitVec.xor_zero] at h
  have hsmall : 2 * c.toNat < 2 ^ 16 := BitVec.msb_eq_false_iff_two_mul_lt.mp hout
  bv_omega

theorem crc16Shift_injective : Function.Injective crc16Shift := fun a b h =>
  BitVec.xor_eq_zero_iff.mp (crc16Shift_eq_zero (by rw [crc16Shift_xor, h, BitVec.xor_self]; rfl))

/-! Several shifts. -/

theorem crc16Shifts_xor (n : Nat) (a b : U16) :
    crc16Shifts n (a ^^^ b) = crc16Shifts n a ^^^ crc16Shifts n b := by
  induction n generalizing a b with
  | zero => rfl
  | succ n ih => simp only [crc16Shifts, crc16Shift_xor, ih]

theorem crc16Shifts_injective (n : Nat) : Function.Injective (crc16Shifts n) := by
  induction n with
  | zero => exact Function.injective_id
  | succ n ih => exact ih.comp crc16Shift_injective

@[simp] theorem crc16Shifts_zero (n : Nat) : crc16Shifts n 0 = 0 := by
  induction n with
  | zero => rfl
  | succ n ih => exact ih

/-- Shifting out bits that are 0 feeds nothing back. -/
theorem crc16Shifts_of_top_zero {n : Nat} {c : U16} (h : ∀ i < n, c.getMsbD i = false) :
    crc16Shifts n c = c <<< n := by
  induction n generalizing c with
  | zero => simp [crc16Shifts]
  | succ n ih =>
    have hout : c.getLsbD 15 = false := h 0 n.succ_pos
    have hshift : crc16Shift c = c <<< 1 := by
      rw [crc16Shift_eq, hout, crc16Feedback_false, BitVec.xor_zero]
    rw [crc16Shifts, hshift, ih, ← BitVec.shiftLeft_add, Nat.add_comm]
    intro i hi
    rw [BitVec.getMsbD_shiftLeft]
    exact h (i + 1) (by omega)

/-- One data bit of R142's bit-serial form. -/
def crc16Bit (v : U16) (d : Bool) : U16 := v <<< 1 ^^^ crc16Feedback (v.getLsbD 15 ^^ d)

/-- Of a word added to the value, the top bit enters as a data bit and the rest moves up. -/
theorem crc16Shift_xor_word (c x : U16) :
    crc16Shift (c ^^^ x) = crc16Bit c (x.getMsbD 0) ^^^ x <<< 1 := by
  have htop : x.getMsbD 0 = x.getLsbD 15 := rfl
  rw [crc16Shift_eq, crc16Bit, htop, BitVec.getLsbD_xor, BitVec.shiftLeft_xor_distrib]
  ac_rfl

/-- `n` shifts of a value to which a word is added take the word's first `n` bits in, one by one. -/
theorem crc16Shifts_xor_word (n : Nat) (c x : U16) :
    crc16Shifts n (c ^^^ x) =
      (List.range n).foldl (fun v i => crc16Bit v (x.getMsbD i)) c ^^^ x <<< n := by
  induction n generalizing c x with
  | zero => simp [crc16Shifts]
  | succ n ih =>
    have hmove : ∀ i, (x <<< 1).getMsbD i = x.getMsbD (i + 1) := fun i => BitVec.getMsbD_shiftLeft ..
    simp only [crc16Shifts, crc16Shift_xor_word, ih, List.range_succ_eq_map, List.foldl_cons,
      List.foldl_map, hmove, ← BitVec.shiftLeft_add, Nat.add_comm 1 n, Nat.succ_eq_add_one]

/-! The byte step. -/

/-- A byte at the top 8 bits, where it enters (R142). -/
def topByte (b : Byte) : U16 := b.setWidth 16 <<< 8

theorem crc16Step_eq (c : U16) (b : Byte) : crc16Step c b = crc16Shifts 8 (c ^^^ topByte b) := rfl

theorem topByte_xor (a b : Byte) : topByte (a ^^^ b) = topByte a ^^^ topByte b := by
  rw [topByte, BitVec.setWidth_xor, BitVec.shiftLeft_xor_distrib, topByte, topByte]

theorem topByte_injective : Function.Injective topByte := by
  intro a b h
  unfold topByte at h
  bv_omega

theorem topByte_shiftLeft (b : Byte) : topByte b <<< 8 = 0#16 := by
  unfold topByte
  bv_omega

theorem getMsbD_topByte (b : Byte) (i : Nat) : (topByte b).getMsbD i = b.getMsbD i := by
  simp [topByte, BitVec.getMsbD_shiftLeft, BitVec.getMsbD_setWidth]

/-- Eight shifts move a low byte up, nothing above it. -/
theorem crc16Shifts_setWidth (b : Byte) : crc16Shifts 8 (b.setWidth 16) = topByte b :=
  crc16Shifts_of_top_zero fun i hi => by simp [BitVec.getMsbD_setWidth, hi.not_ge]

/-- The high byte of a value, entering against itself, leaves the low byte. -/
theorem xor_topByte_high (c : U16) : c ^^^ topByte (c.extractLsb' 8 8) = (c.extractLsb' 0 8).setWidth 16 := by
  apply BitVec.eq_of_getLsbD_eq
  intro i hi
  rw [BitVec.getLsbD_xor, topByte, BitVec.getLsbD_shiftLeft]
  by_cases h : i < 8
  · simp [h, hi]
  · obtain ⟨j, rfl⟩ := Nat.exists_eq_add_of_le (not_lt.mp h)
    have hj : j < 8 := by omega
    simp [hj, hi, show j < 16 by omega]

/-- Settles O20: the eight shifts take the byte's bits in one by one, and nothing of it is left over. -/
theorem crc16StepIsBitSerial : Obligations.Crc16StepIsBitSerial := by
  unfold Obligations.Crc16StepIsBitSerial
  intro c b
  calc crc16Step c b
    _ = (List.range 8).foldl (fun v i => crc16Bit v ((topByte b).getMsbD i)) c := by
        rw [crc16Step_eq, crc16Shifts_xor_word, topByte_shiftLeft, BitVec.xor_zero]
    _ = (List.range 8).foldl (fun v i => crc16Bit v (b.getMsbD i)) c := by
        simp only [getMsbD_topByte]
    _ = _ := rfl

/-- The byte step is linear (R145). -/
theorem crc16Step_xor (c₁ c₂ : U16) (b₁ b₂ : Byte) :
    crc16Step (c₁ ^^^ c₂) (b₁ ^^^ b₂) = crc16Step c₁ b₁ ^^^ crc16Step c₂ b₂ := by
  simp only [crc16Step_eq, ← crc16Shifts_xor, topByte_xor]
  congr 1
  ac_rfl

/-- For each byte, distinct values stay distinct. -/
theorem crc16Step_injective (b : Byte) : Function.Injective fun c => crc16Step c b := fun _ _ h =>
  (BitVec.xor_left_inj _).mp (crc16Shifts_injective 8 h)

/-- Distinct bytes take a value to distinct values. -/
theorem crc16Step_injective_byte (c : U16) : Function.Injective (crc16Step c) := fun _ _ h =>
  topByte_injective ((BitVec.xor_right_inj _).mp (crc16Shifts_injective 8 h))

theorem crc16Step_zero_zero : crc16Step 0 0 = 0 := crc16Shifts_zero 8

/-- Settles O22: the values are finitely many, so the step being injective is enough. -/
theorem crc16StepIsLinearAndBijective : Obligations.Crc16StepIsLinearAndBijective := by
  unfold Obligations.Crc16StepIsLinearAndBijective
  refine ⟨fun c₁ c₂ b₁ b₂ => ?_, crc16Step_zero_zero, fun b => ?_⟩
  · rw [crc16Step_xor, crc16Step_zero_zero]
    exact BitVec.xor_zero.symm
  · exact Finite.injective_iff_bijective.mp (crc16Step_injective b)

/-! The checksum of a byte string. -/

/-- Equal data never hide a difference of the start values. -/
theorem crc16_injective (data : List Byte) : Function.Injective (crc16 data) := by
  induction data with
  | nil => exact Function.injective_id
  | cons b bs ih => exact ih.comp (crc16Step_injective b)

/-- Byte strings that differ in one byte have different checksums. -/
theorem crc16_ne_of_byte_ne (pre post : List Byte) {a b : Byte} (init : U16) (h : a ≠ b) :
    crc16 (pre ++ a :: post) init ≠ crc16 (pre ++ b :: post) init := by
  simp only [crc16_append, crc16_cons]
  exact fun heq => h (crc16Step_injective_byte _ (crc16_injective post heq))

/-- Settles O23: a byte with one bit changed is another byte. -/
theorem crc16DetectsSingleBitErrors : Obligations.Crc16DetectsSingleBitErrors := by
  unfold Obligations.Crc16DetectsSingleBitErrors
  intro pre post b k init hk
  apply crc16_ne_of_byte_ne
  intro heq
  have hbit := congrArg (fun v : Byte => v.getLsbD k) heq
  simp [hk] at hbit

/-- The low byte, left by the first step, moves up, where the second step meets it with itself (R148). -/
theorem crc16_toBe16_self (c : U16) : crc16 (toBe16 c) c = 0 := by
  have hhigh : crc16Step c (c.extractLsb' 8 8) = topByte (c.extractLsb' 0 8) := by
    rw [crc16Step_eq, xor_topByte_high, crc16Shifts_setWidth]
  rw [toBe16, crc16_cons, crc16_cons, crc16_nil, hhigh, crc16Step_eq, BitVec.xor_self]
  exact crc16Shifts_zero 8

/-- Settles O24: the data leave their checksum, whose own bytes then enter against it. -/
theorem crc16ResidueIsZero : Obligations.Crc16ResidueIsZero := by
  unfold Obligations.Crc16ResidueIsZero
  intro data init
  rw [crc16_append, crc16_toBe16_self]

end Sys2Proof.Machine
end

section
/-! The invariants of the command descriptor along a step, 41_command_descriptor.md: the interlock word stays one
a submission cycle can show (R190), and the protected sections stay in agreement with their CRCs (R164, R184,
R186). Both hold of each descriptor by itself, so that a step is judged by what it does to one. -/

namespace Sys2Proof.Machine

open Sys2Proof.Safety

/-! What an effect does to one descriptor. -/

/-- What an effect has done to descriptor `d`, whose record was `x` and has become the last argument: it was
left alone, or it is the one the effect is about. -/
inductive DescEffect (s : State) (d : Nat) (x : Desc) : State → Desc → Prop
  | kept {t : State} (h : LeavesAlone s t d) : DescEffect s d x t x
  | formatted (img : List Byte) (a : Answer) (hl : img.length = s.layout.size) :
      DescEffect s d x { formatted s d x img with answer := some a }
        { x with fmt := true, swObsDone := false }
  | submitted (a : Answer) (hp : s.phase d x ≠ .unformatted) :
      DescEffect s d x { s.atomicOr32 d (maskNext s.cfg.masks) with answer := some a } x
  | purged (a : Answer) (hf : x.fmt = true) :
      DescEffect s d x { s.atomicOr32 d (maskPurge s.cfg.masks) with answer := some a } x
  | observed (a : Answer) (hc : s.isCompleted d = true) :
      DescEffect s d x { s.observeDone d x with answer := some a }
        { x with swObsDone := x.swObsDone || x.fmt }
  | fetched (draws : FetchDraws) (a : Answer) (hp : s.phase d x = .next) :
      DescEffect s d x { (fetched s d x draws).nextDraw with answer := some a }
        { x with snap := takeSnapshot s d draws }
  | completed (n : Nat) (a : Answer) (hp : s.phase d x = .fetched) :
      DescEffect s d x
        { (completed s d x (completionDraws s.layout n)).nextDraw with answer := some a } x

theorem descEffect_of_leavesAlone {s t : State} {d : Nat} {y : Desc} (h : LeavesAlone s t d)
    (hy : t.descs[d]? = some y) : ∃ x, s.descs[d]? = some x ∧ DescEffect s d x t y :=
  ⟨y, h.desc ▸ hy, .kept h⟩

/-- An effect seen from any one descriptor. -/
theorem Effect.descEffect {s t : State} (h : Effect s t) (hw : s.cfg.wf = true) {d : Nat} {y : Desc}
    (hy : t.descs[d]? = some y) : ∃ x, s.descs[d]? = some x ∧ DescEffect s d x t y := by
  have hsize : interlockLen ≤ s.layout.size := ((wf_size hw).1.trans (wf_size hw).2).le
  cases h with
  | answered | drawn | staged => exact descEffect_of_leavesAlone ⟨rfl, fun _ _ => rfl, rfl⟩ hy
  | formatted e x img a hr hx he hl =>
    by_cases hde : d = e
    · subst hde
      obtain rfl := eq_of_getElem?_set hx hy
      exact ⟨x, hx, .formatted img a hl⟩
    · exact descEffect_of_leavesAlone ⟨rfl, fun o ho => byte_formatted_of_ne s hw e x img hl d o hde ho,
        List.getElem?_set_ne (Ne.symm hde)⟩ hy
  | submitted e x a hr hx hp =>
    by_cases hde : d = e
    · subst hde
      obtain rfl : x = y := Option.some.inj (hx.symm.trans hy)
      exact ⟨x, hx, .submitted a hp⟩
    · exact descEffect_of_leavesAlone
        ⟨rfl, fun o ho => byte_atomicOr32_of_ne s hsize e _ d o hde ho, rfl⟩ hy
  | purged e x a hr hx hf =>
    by_cases hde : d = e
    · subst hde
      obtain rfl : x = y := Option.some.inj (hx.symm.trans hy)
      exact ⟨x, hx, .purged a hf⟩
    · exact descEffect_of_leavesAlone
        ⟨rfl, fun o ho => byte_atomicOr32_of_ne s hsize e _ d o hde ho, rfl⟩ hy
  | observed e x a hr hx hc =>
    by_cases hde : d = e
    · subst hde
      have hset := observeDone_eq s d x hx
      obtain rfl := eq_of_getElem?_set hx (congrArg (fun u : State => u.descs[d]?) hset ▸ hy)
      exact ⟨x, hx, .observed a hc⟩
    · exact descEffect_of_leavesAlone ⟨observeDone_cfg s e x, fun o _ => byte_observeDone s e x d o,
        observeDone_descs_of_ne s e x d hde⟩ hy
  | fetched e x draws a hr hx hp =>
    by_cases hde : d = e
    · subst hde
      obtain rfl := eq_of_getElem?_set hx hy
      exact ⟨x, hx, .fetched draws a hp⟩
    · exact descEffect_of_leavesAlone ⟨rfl, fun o ho => byte_fetched_of_ne s hw e x draws d o hde ho,
        List.getElem?_set_ne (Ne.symm hde)⟩ hy
  | completed e x n a hr hx hp =>
    by_cases hde : d = e
    · subst hde
      obtain rfl : x = y := Option.some.inj (hx.symm.trans hy)
      exact ⟨x, hx, .completed n a hp⟩
    · exact descEffect_of_leavesAlone
        ⟨rfl, fun o ho => byte_completed_of_ne s hw e x n d o hde ho, rfl⟩ hy

/-- The interlock word of a descriptor that was left alone. -/
theorem LeavesAlone.atomicRead32 {s t : State} {d : Nat} (h : LeavesAlone s t d) (hw : s.cfg.wf = true) :
    t.atomicRead32 d = s.atomicRead32 d := by
  obtain ⟨h1, h2⟩ := wf_size hw
  have h4 : interlockLen = 4 := rfl
  exact atomicRead32_congr s t d h.cfg fun p hp => h.bytes p (by omega)

/-- A property of each descriptor by itself that every effect on that descriptor keeps is kept by every step:
the step is idle, or it takes a request, which the property does not see, and has an effect. -/
theorem step_keeps_of_descEffect {P : State → Nat → Desc → Prop}
    (htake : ∀ s r rest d x, P s d x → P (s.take r rest) d x)
    (heff : ∀ s t d x y, s.cfg.wf = true → P s d x → DescEffect s d x t y → P t d y)
    {s t : State} (hw : s.cfg.wf = true) (hs : ∀ d x, s.descs[d]? = some x → P s d x)
    (h : step s = .next t) : ∀ d y, t.descs[d]? = some y → P t d y := by
  obtain rfl | ⟨r, rest, -, heffect⟩ := step_effect s t h
  · exact hs
  · intro d y hy
    obtain ⟨x, hx, hde⟩ := heffect.descEffect hw hy
    exact heff (s.take r rest) t d x y hw (htake s r rest d x (hs d x hx)) hde

/-! The interlock word. -/

/-- An interlock word a submission cycle can show (R190), beside the two ghost flags of its descriptor: the
clauses of `InterlockLegal`. -/
structure WordLegal (m : FlagMasks) (w : Interlock) (fmt observed : Bool) : Prop where
  reserved : w.reservedClear m = true
  next_of_fetched : w.isFetched m = true → w.isNext m = true
  fetched_of_completed : w.isCompleted m = true → w.isFetched m = true
  fmt_of_next : w.isNext m = true → fmt = true
  fmt_of_purged : w.isPurged m = true → fmt = true
  completed_of_observed : observed = true → fmt = true ∧ w.isCompleted m = true

/-- The word of descriptor `d` is legal beside the ghost flags of record `x`. -/
def LegalAt (s : State) (d : Nat) (x : Desc) : Prop :=
  WordLegal s.cfg.masks (s.atomicRead32 d) x.fmt x.swObsDone

theorem interlockLegal_iff (s : State) :
    InterlockLegal s ↔ ∀ d x, s.descs[d]? = some x → LegalAt s d x := by
  constructor
  · intro h d x hx
    obtain ⟨hreserved, hnext, hfetched, hfmt, hpurged, hobserved⟩ := h d x hx
    exact ⟨hreserved, hnext, hfetched, hfmt, hpurged, hobserved⟩
  · intro h d x hx
    obtain ⟨hreserved, hnext, hfetched, hfmt, hpurged, hobserved⟩ := h d x hx
    exact ⟨hreserved, hnext, hfetched, hfmt, hpurged, hobserved⟩

/-- The OR with a flag of SW's, field by field. -/
theorem or_shi (w : Interlock) (b : Byte) : w.or ⟨0, 0, b⟩ = { w with shi := w.shi ||| b } := by
  simp [Interlock.or]

/-- The OR with a flag of HW's, field by field. -/
theorem or_hsi (w : Interlock) (b : Byte) : w.or ⟨0, b, 0⟩ = { w with hsi := w.hsi ||| b } := by
  simp [Interlock.or]

/-- In phase NEXT the flag `next` is set, and `completed` is not (R30). -/
theorem flags_of_phase_next {m : FlagMasks} {w : Interlock} {f : Bool} (h : phaseOf m w f = .next) :
    w.isNext m = true ∧ w.isCompleted m = false := by
  unfold phaseOf at h
  split_ifs at h with hcompleted hfetched hnext
  exact ⟨hnext, by simpa using hcompleted⟩

/-- In phase FETCHED the flag `fetched` is set (R30). -/
theorem isFetched_of_phase {m : FlagMasks} {w : Interlock} {f : Bool} (h : phaseOf m w f = .fetched) :
    w.isFetched m = true := by
  unfold phaseOf at h
  split_ifs at h with hcompleted hfetched
  exact hfetched

/-- The word FORMAT stores, all flags 0. -/
theorem wordLegal_of_zero (m : FlagMasks) (icrc : U16) : WordLegal m ⟨icrc, 0, 0⟩ true false := by
  obtain ⟨hnext, hpurged, hfetched, hcompleted, hreserved⟩ := no_flag_of_zero m ⟨icrc, 0, 0⟩ rfl rfl
  exact ⟨hreserved, fun h => absurd (hfetched.symm.trans h) (by decide),
    fun h => absurd (hcompleted.symm.trans h) (by decide), fun _ => rfl, fun _ => rfl, by simp⟩

section
variable {c : Config} (hc : c.wf = true) {w : Interlock} {f o : Bool} (h : WordLegal c.masks w f o)
include h

/-- Every flag of a legal word needs a FORMAT, so a phase other than UNFORMATTED does. -/
theorem WordLegal.fmt_of_phase (hp : phaseOf c.masks w f ≠ .unformatted) : f = true := by
  unfold phaseOf at hp
  split_ifs at hp with hcompleted hfetched hnext hfmt
  · exact h.fmt_of_next (h.next_of_fetched (h.fetched_of_completed hcompleted))
  · exact h.fmt_of_next (h.next_of_fetched hfetched)
  · exact h.fmt_of_next hnext
  · exact hfmt
  · exact absurd rfl hp

/-- The observation of a completion that is there. -/
theorem WordLegal.observe (hcomp : w.isCompleted c.masks = true) : WordLegal c.masks w f (o || f) :=
  { h with completed_of_observed := fun _ =>
      ⟨h.fmt_of_next (h.next_of_fetched (h.fetched_of_completed hcomp)), hcomp⟩ }

include hc

theorem WordLegal.or_maskNext (hf : f = true) : WordLegal c.masks (w.or (maskNext c.masks)) f o where
  reserved := reservedClear_or _ _ _ h.reserved (reservedClear_masks c.masks).1
  next_of_fetched _ := isNext_or_maskNext hc w
  fetched_of_completed := by simpa using h.fetched_of_completed
  fmt_of_next _ := hf
  fmt_of_purged _ := hf
  completed_of_observed := by simpa using h.completed_of_observed

theorem WordLegal.or_maskPurge (hf : f = true) :
    WordLegal c.masks (w.or (maskPurge c.masks)) f o where
  reserved := reservedClear_or _ _ _ h.reserved (reservedClear_masks c.masks).2.1
  next_of_fetched := by simpa [isNext_or_maskPurge hc w] using h.next_of_fetched
  fetched_of_completed := by simpa using h.fetched_of_completed
  fmt_of_next _ := hf
  fmt_of_purged _ := hf
  completed_of_observed := by simpa using h.completed_of_observed

theorem WordLegal.or_maskFetched (hn : w.isNext c.masks = true) :
    WordLegal c.masks (w.or (maskFetched c.masks)) f o where
  reserved := reservedClear_or _ _ _ h.reserved (reservedClear_masks c.masks).2.2.1
  next_of_fetched _ := by simpa using hn
  fetched_of_completed _ := isFetched_or_maskFetched hc w
  fmt_of_next := by simpa using h.fmt_of_next
  fmt_of_purged := by simpa using h.fmt_of_purged
  completed_of_observed := by simpa [isCompleted_or_maskFetched hc w] using h.completed_of_observed

theorem WordLegal.or_maskCompleted (hf : w.isFetched c.masks = true) :
    WordLegal c.masks (w.or (maskCompleted c.masks)) f o where
  reserved := reservedClear_or _ _ _ h.reserved (reservedClear_masks c.masks).2.2.2
  next_of_fetched _ := by simpa using h.next_of_fetched hf
  fetched_of_completed _ := by simpa [isFetched_or_maskCompleted hc w] using hf
  fmt_of_next := by simpa using h.fmt_of_next
  fmt_of_purged := by simpa using h.fmt_of_purged
  completed_of_observed ho := ⟨(h.completed_of_observed ho).1, isCompleted_or_maskCompleted hc w⟩

end

/-- Every effect on a descriptor leaves its word legal: each flag is set after the one it needs (R31). -/
theorem DescEffect.legalAt {s t : State} {d : Nat} {x y : Desc} (h : DescEffect s d x t y)
    (hw : s.cfg.wf = true) (hl : LegalAt s d x) : LegalAt t d y := by
  cases h with
  | kept h =>
    rw [LegalAt, h.atomicRead32 hw, h.cfg]
    exact hl
  | formatted img a hlen =>
    have hword := (atomicRead32_formatted s hw d x img hlen d).trans (if_pos rfl)
    rw [LegalAt, atomicRead32_answer, hword]
    exact wordLegal_of_zero _ _
  | submitted a hp =>
    have hword := (atomicRead32_atomicOr32 s hw d (maskNext s.cfg.masks) d).trans (if_pos rfl)
    rw [LegalAt, atomicRead32_answer, hword]
    exact WordLegal.or_maskNext hw hl (WordLegal.fmt_of_phase hl hp)
  | purged a hf =>
    have hword := (atomicRead32_atomicOr32 s hw d (maskPurge s.cfg.masks) d).trans (if_pos rfl)
    rw [LegalAt, atomicRead32_answer, hword]
    exact WordLegal.or_maskPurge hw hl hf
  | observed a hcomp =>
    rw [LegalAt, atomicRead32_answer, atomicRead32_observeDone, observeDone_cfg]
    exact WordLegal.observe hl hcomp
  | fetched draws a hp =>
    have hword := (atomicRead32_fetched s hw d x draws d).trans (if_pos rfl)
    rw [LegalAt, atomicRead32_answer, atomicRead32_nextDraw, hword]
    exact WordLegal.or_maskFetched hw hl (flags_of_phase_next hp).1
  | completed n a hp =>
    have hword := (atomicRead32_completed s hw d x n d).trans (if_pos rfl)
    rw [LegalAt, atomicRead32_answer, atomicRead32_nextDraw, hword]
    exact WordLegal.or_maskCompleted hw hl (isFetched_of_phase hp)

/-- Settles O12: legality is a property of each descriptor, and every effect on one keeps it. -/
theorem stepKeepsInterlockLegal : Obligations.StepKeepsInterlockLegal := by
  unfold Obligations.StepKeepsInterlockLegal
  intro s t hw hs h
  rw [interlockLegal_iff] at hs ⊢
  exact step_keeps_of_descEffect (fun _ _ _ _ _ hl => hl) (fun _ _ _ _ _ hw hl he => he.legalAt hw hl)
    hw hs h

/-! The protected sections. -/

/-- The sections of a formatted descriptor agree with their CRCs, `snap` being HW's snapshot: the clauses of
`SectionsProtected`. -/
structure SectionsAgree (s : State) (d : Nat) (snap : Snapshot) : Prop where
  invariant : s.invariantCrcMatches d = true
  snapshot : s.cfg.linkFaults = false → s.isFetched d = true →
    snap.bytes = s.invariantPart d ∧ snap.icrcOk = true
  variant : s.cfg.linkFaults = false → s.isCompleted d = true → s.variantCrcMatches d = true

/-- The sections of descriptor `d` agree with their CRCs if it is formatted. -/
def ProtectedAt (s : State) (d : Nat) (x : Desc) : Prop := x.fmt = true → SectionsAgree s d x.snap

theorem sectionsProtected_iff (s : State) :
    SectionsProtected s ↔ ∀ d x, s.descs[d]? = some x → ProtectedAt s d x := by
  constructor
  · intro h d x hx hf
    obtain ⟨hinvariant, hsnapshot, hvariant⟩ := h d x hx hf
    exact ⟨hinvariant, hsnapshot, hvariant⟩
  · intro h d x hx hf
    obtain ⟨hinvariant, hsnapshot, hvariant⟩ := h d x hx hf
    exact ⟨hinvariant, hsnapshot, hvariant⟩

section
variable {s : State} {d : Nat} {snap : Snapshot} (h : SectionsAgree s d snap)
include h

/-! The agreement does not see the model's own fields. -/

theorem SectionsAgree.answer (a : Option Answer) : SectionsAgree { s with answer := a } d snap :=
  ⟨h.invariant, h.snapshot, h.variant⟩

theorem SectionsAgree.nextDraw : SectionsAgree s.nextDraw d snap := ⟨h.invariant, h.snapshot, h.variant⟩

theorem SectionsAgree.take (r : Request) (rest : List Request) : SectionsAgree (s.take r rest) d snap :=
  ⟨h.invariant, h.snapshot, h.variant⟩

end

/-- A field of the variant part stands behind the interlock word, inside the descriptor. -/
theorem wf_varField_range {c : Config} (hw : c.wf = true) {f : Field} (hf : f ∈ c.layout.varFields)
    {p : Nat} (hp : f.covers p = true) : 4 ≤ p ∧ p < c.layout.size := by
  obtain ⟨h1, h2⟩ := wf_var_bounds hw f hf
  have hs := (wf_size hw).1
  have h4 : interlockLen = 4 := rfl
  have hcov := (covers_iff _ _).mp hp
  omega

/-- Where the CRC of the word, the two flags of HW and every byte behind the word are as they were, the
sections agree as they did. -/
theorem SectionsAgree.of_kept {s t : State} {d : Nat} {snap : Snapshot} (h : SectionsAgree s d snap)
    (hw : s.cfg.wf = true) (hc : t.cfg = s.cfg)
    (hicrc : (t.atomicRead32 d).icrc = (s.atomicRead32 d).icrc)
    (hfetched : t.isFetched d = s.isFetched d) (hcompleted : t.isCompleted d = s.isCompleted d)
    (hbytes : ∀ p, 4 ≤ p → p < s.cfg.layout.size → t.byte d p = s.byte d p) :
    SectionsAgree t d snap := by
  have hinv : ∀ p, 4 ≤ p → p < s.layout.invariantLen → t.byte d p = s.byte d p := fun p h4 hp =>
    hbytes p h4 (hp.trans (wf_size hw).2)
  have hfield : ∀ f ∈ s.cfg.layout.varFields, ∀ p, f.covers p = true → t.byte d p = s.byte d p :=
    fun f hf p hp => hbytes p (wf_varField_range hw hf hp).1 (wf_varField_range hw hf hp).2
  have hvar : t.variantCrcMatches d = s.variantCrcMatches d :=
    variantCrcMatches_congr s t d hc fun p hp => hp.elim (hfield _ (by simp [Layout.varFields]) p)
      (hfield _ (by simp [Layout.varFields]) p)
  constructor
  · rw [invariantCrcMatches_congr s t d hc hicrc hinv]
    exact h.invariant
  · rw [hc, hfetched, invariantPart_congr s t d hc hinv]
    exact h.snapshot
  · rw [hc, hcompleted, hvar]
    exact h.variant

/-- An OR of a flag of SW's touches neither HW's flags nor the sections. -/
theorem SectionsAgree.atomicOr32_shi {s : State} {d : Nat} {snap : Snapshot} (h : SectionsAgree s d snap)
    (hw : s.cfg.wf = true) (b : Byte) : SectionsAgree (s.atomicOr32 d ⟨0, 0, b⟩) d snap := by
  have hword := (atomicRead32_atomicOr32 s hw d ⟨0, 0, b⟩ d).trans (if_pos rfl)
  have hhsi : ((s.atomicOr32 d ⟨0, 0, b⟩).atomicRead32 d).hsi = (s.atomicRead32 d).hsi := by
    rw [hword, or_shi]
  refine h.of_kept hw rfl ?_ ?_ ?_ fun p h4 hp => byte_atomicOr32_of_ge s d _ d p hp h4
  · rw [hword]
    exact or_icrc _ _ rfl
  · exact congrArg (hasFlag · s.cfg.masks.fetched) hhsi
  · exact congrArg (hasFlag · s.cfg.masks.completed) hhsi

/-- HW_FETCH stores no byte the two CRCs cover before a completion: the snapshot it takes is the invariant part,
whose check succeeds (R184). -/
theorem SectionsAgree.after_fetched {s : State} {d : Nat} {x : Desc} (h : SectionsAgree s d x.snap)
    (hw : s.cfg.wf = true) (draws : FetchDraws) (hp : s.phase d x = .next) :
    SectionsAgree (fetched s d x draws) d (takeSnapshot s d draws) := by
  have hword := (atomicRead32_fetched s hw d x draws d).trans (if_pos rfl)
  have hicrc := (congrArg Interlock.icrc hword).trans (or_icrc _ _ rfl)
  have hinv : ∀ p, 4 ≤ p → p < s.layout.invariantLen →
      (fetched s d x draws).byte d p = s.byte d p := by
    intro p h4 hlt
    obtain ⟨hts, -⟩ := wf_var_bounds hw s.cfg.layout.dispatchTs (by simp [Layout.varFields])
    refine (byte_fetched s hw d x draws d p h4 (hlt.trans (wf_size hw).2)).trans (if_neg fun hcov => ?_)
    have hcov := (covers_iff _ _).mp hcov.2
    unfold State.layout at *
    omega
  constructor
  · rw [invariantCrcMatches_congr s (fetched s d x draws) d rfl hicrc hinv]
    exact h.invariant
  · intro hlf _
    rw [invariantPart_congr s (fetched s d x draws) d rfl hinv, takeSnapshot_icrcOk s d draws hlf]
    exact ⟨takeSnapshot_bytes s d draws hlf, h.invariant⟩
  · intro _ hcomp
    rw [State.isCompleted, hword, fetched_cfg, isCompleted_or_maskFetched hw,
      (flags_of_phase_next hp).2] at hcomp
    exact absurd hcomp (by decide)

/-- HW_COMPLETE stores no byte of the invariant part, and the CRC of the ASV it stores (R186). -/
theorem SectionsAgree.after_completed {s : State} {d : Nat} {x : Desc} (h : SectionsAgree s d x.snap)
    (hw : s.cfg.wf = true) (n : Nat) (hp : s.phase d x = .fetched) :
    SectionsAgree (completed s d x (completionDraws s.layout n)) d x.snap := by
  have hicrc := (congrArg Interlock.icrc ((atomicRead32_completed s hw d x n d).trans (if_pos rfl))).trans
    (or_icrc _ _ rfl)
  have hinv : ∀ p, 4 ≤ p → p < s.layout.invariantLen →
      (completed s d x (completionDraws s.layout n)).byte d p = s.byte d p := fun p h4 hlt =>
    byte_completed_outside s hw d x n d p h4 (hlt.trans (wf_size hw).2) (.inr (.inl hlt))
  constructor
  · rw [invariantCrcMatches_congr s (completed s d x (completionDraws s.layout n)) d rfl hicrc hinv]
    exact h.invariant
  · intro hlf _
    rw [invariantPart_congr s (completed s d x (completionDraws s.layout n)) d rfl hinv]
    exact h.snapshot hlf (isFetched_of_phase hp)
  · exact fun hlf _ => variantCrcMatches_completed s hw d x n hlf

/-- After FORMAT the CRC is that of the bytes it stored, and no flag is set (R160, R164). -/
theorem sectionsAgree_formatted (s : State) (hw : s.cfg.wf = true) (d : Nat) (x : Desc) (img : List Byte)
    (hl : img.length = s.layout.size) (snap : Snapshot) : SectionsAgree (formatted s d x img) d snap := by
  have hword := (atomicRead32_formatted s hw d x img hl d).trans (if_pos rfl)
  obtain ⟨-, -, hfetched, hcompleted, -⟩ :=
    no_flag_of_zero s.cfg.masks ((formatted s d x img).atomicRead32 d) (by rw [hword]) (by rw [hword])
  exact ⟨invariantCrcMatches_formatted s hw d x img hl,
    fun _ h => absurd (hfetched.symm.trans h) (by decide),
    fun _ h => absurd (hcompleted.symm.trans h) (by decide)⟩

/-- Every effect on a descriptor leaves its sections in agreement with their CRCs. -/
theorem DescEffect.protectedAt {s t : State} {d : Nat} {x y : Desc} (h : DescEffect s d x t y)
    (hw : s.cfg.wf = true) (hp : ProtectedAt s d x) : ProtectedAt t d y := by
  intro hf
  cases h with
  | kept h =>
    have hword := h.atomicRead32 hw
    refine (hp hf).of_kept hw h.cfg (by rw [hword]) ?_ ?_ fun p _ hsize => h.bytes p hsize
    · rw [State.isFetched, State.isFetched, hword, h.cfg]
    · rw [State.isCompleted, State.isCompleted, hword, h.cfg]
  | formatted img a hl => exact (sectionsAgree_formatted s hw d x img hl x.snap).answer a
  | submitted a => exact ((hp hf).atomicOr32_shi hw s.cfg.masks.next).answer a
  | purged a => exact ((hp hf).atomicOr32_shi hw s.cfg.masks.purge).answer a
  | observed a =>
    have hword := atomicRead32_observeDone s d x d
    refine ((hp hf).of_kept hw (observeDone_cfg s d x) (by rw [hword]) ?_ ?_
      fun p _ _ => byte_observeDone s d x d p).answer a
    · rw [State.isFetched, State.isFetched, hword, observeDone_cfg]
    · rw [State.isCompleted, State.isCompleted, hword, observeDone_cfg]
  | fetched draws a hphase => exact ((hp hf).after_fetched hw draws hphase).nextDraw.answer a
  | completed n a hphase => exact ((hp hf).after_completed hw n hphase).nextDraw.answer a

/-- Settles O13: agreement is a property of each descriptor, and every effect on one keeps it. -/
theorem stepKeepsSectionsProtected : Obligations.StepKeepsSectionsProtected := by
  unfold Obligations.StepKeepsSectionsProtected
  intro s t hw hs h
  rw [sectionsProtected_iff] at hs ⊢
  exact step_keeps_of_descEffect (fun _ r rest _ _ hp hf => (hp hf).take r rest)
    (fun _ _ _ _ _ hw hp he => he.protectedAt hw hp) hw hs h

end Sys2Proof.Machine
end

section
/-! The software side of the Command Descriptor unit, 41_command_descriptor.md rules R160 to R182: what each
operation on a descriptor answers and changes. -/

namespace Sys2Proof.Machine

open Sys2Proof.Safety

/-! What every store leaves beside the memory and the records (R22). -/

theorem unitsKept_atomicOr32 (s : State) (d : Nat) (m : Interlock) : UnitsKept s (s.atomicOr32 d m) :=
  ⟨rfl, rfl, rfl, rfl⟩

theorem unitsKept_formatted (s : State) (d : Nat) (x : Desc) (img : List Byte) :
    UnitsKept s (formatted s d x img) := ⟨rfl, rfl, rfl, rfl⟩

theorem unitsKept_fetched (s : State) (d : Nat) (x : Desc) (draws : FetchDraws) :
    UnitsKept s (fetched s d x draws) := ⟨rfl, rfl, rfl, rfl⟩

theorem unitsKept_completed (s : State) (d : Nat) (x : Desc) (draws : CompletionDraws) :
    UnitsKept s (completed s d x draws) := ⟨rfl, rfl, rfl, rfl⟩

theorem unitsKept_answer {s t : State} (h : UnitsKept s t) (a : Option Answer) :
    UnitsKept s { t with answer := a } := h

theorem unitsKept_nextDraw {s t : State} (h : UnitsKept s t) : UnitsKept s t.nextDraw := h

/-! What an admitted operation of SW does, behind the checks of its admission. -/

section
variable {s : State} {d : Byte} {x : Desc}

theorem exec_format_admitted (acfunc cmd : Byte) (opts : U16) (seq : Nat) (ats : U64) (alen : Byte)
    (asiv : List Byte) (h : Admitted s .format d x) :
    exec (.format d acfunc cmd opts seq ats alen asiv) s =
      if formatEnabled (s.phase d.toNat x) x.swObsDone then
        if s.cfg.asivCap < alen.toNat then s.fail .payloadTooLarge
        else (formatted s d.toNat x (formatImage s.cfg acfunc cmd opts seq ats asiv)).give .ok .empty
      else .refused .formatNotOwned :=
  admitted_eq s .format d x _ h

theorem exec_submitMarker_admitted (h : Admitted s .submitMarker d x) :
    exec (.submitMarker d) s =
      if s.phase d.toNat x = .unformatted then .refused .submitUnformatted
      else (s.atomicOr32 d.toNat (maskNext s.cfg.masks)).give .ok .empty :=
  admitted_eq s .submitMarker d x _ h

theorem exec_purgeMarker_admitted (h : Admitted s .purgeMarker d x) :
    exec (.purgeMarker d) s =
      if x.fmt && !x.swObsDone then (s.atomicOr32 d.toNat (maskPurge s.cfg.masks)).give .ok .empty
      else .refused .purgeOutsideWindow :=
  admitted_eq s .purgeMarker d x _ h

theorem exec_isFetched_admitted (h : Admitted s .isFetched d x) :
    exec (.isFetched d) s = s.give .ok (.flag (s.isFetched d.toNat)) :=
  admitted_eq s .isFetched d x _ h

theorem exec_isCompleted_admitted (h : Admitted s .isCompleted d x) :
    exec (.isCompleted d) s =
      if s.isCompleted d.toNat then (s.observeDone d.toNat x).give .ok (.flag true)
      else s.give .ok (.flag false) :=
  admitted_eq s .isCompleted d x _ h

theorem exec_verifyVariantCrc_admitted (h : Admitted s .verifyVariantCrc d x) :
    exec (.verifyVariantCrc d) s =
      if variantRaces (s.phase d.toNat x) x.swObsDone then
        s.nextDraw.giveVerify (Config.drawVerify s.draws)
      else s.giveVerify (s.variantCrcMatches d.toNat) :=
  admitted_eq s .verifyVariantCrc d x _ h

theorem exec_result_admitted (h : Admitted s .result d x) :
    exec (.result d) s =
      if s.isCompleted d.toNat then
        (s.observeDone d.toNat x).give
          (resultStatus s.cfg (s.returnCode d.toNat) (s.attentionCode d.toNat))
          (.result (s.returnCode d.toNat) (s.attentionCode d.toNat) (s.progressIndicator d.toNat)
            (s.asvBytes d.toNat))
      else s.fail .notCompleted :=
  admitted_eq s .result d x _ h

theorem exec_verifyInvariantCrc_admitted (h : Admitted s .verifyInvariantCrc d x) :
    exec (.verifyInvariantCrc d) s =
      if readGranted (roleOf s.issuer) .invariantPart (stageOf (s.phase d.toNat x) x.swObsDone) then
        s.giveVerify (s.invariantCrcMatches d.toNat)
      else .refused .accessNotGranted :=
  admitted_eq s .verifyInvariantCrc d x _ h

end

/-- The answer of a verify operation is the one R176 and R180 give. -/
theorem giveVerify_eq (s : State) (ok : Bool) :
    s.giveVerify ok = .next { s with answer := some (verifyAnswer ok) } := rfl

/-! The two CRCs of a descriptor, over its bytes. -/

/-- The invariant check is R161's comparison. -/
theorem invariantCrcMatches_eq (s : State) (d : Nat) :
    s.invariantCrcMatches d =
      (crc16 (coveredBytes s.cfg fun o => s.byte d o) 0xFFFF == (s.atomicRead32 d).icrc) := by
  rw [State.invariantCrcMatches, invariantCrc, icrcBytes_invariantPart]
  rfl

/-- The ASV is the 64 bytes from its offset. -/
theorem asvBytes_eq (s : State) (hw : s.cfg.wf = true) (d : Nat) :
    s.asvBytes d = (List.range 64).map fun i => s.byte d (s.cfg.layout.asv.off + i) := by
  obtain ⟨-, -, hasv, -⟩ := wf_lens hw
  rw [State.asvBytes, State.fieldBytes, hasv, memRead_eq_map]

/-- `variant_crc` is stored high byte first (R39, R60). -/
theorem storedVariantCrc_eq (s : State) (hw : s.cfg.wf = true) (d : Nat) :
    s.storedVariantCrc d = be16 (s.byte d s.cfg.layout.variantCrc.off)
      (s.byte d (s.cfg.layout.variantCrc.off + 1)) := by
  obtain ⟨-, -, -, hcrc, -⟩ := wf_lens hw
  have hbytes : s.fieldBytes d s.layout.variantCrc = [s.byte d s.cfg.layout.variantCrc.off,
      s.byte d (s.cfg.layout.variantCrc.off + 1)] := by
    rw [State.fieldBytes, hcrc, memRead_eq_map]
    rfl
  rw [State.storedVariantCrc, State.fieldNat, hbytes, ← toBe16_be16, toBe16_eq,
    ofNat_ofBe_toBe _ _ (by decide)]

/-- The variant check is R176's comparison. -/
theorem variantCrcMatches_eq (s : State) (hw : s.cfg.wf = true) (d : Nat) :
    s.variantCrcMatches d =
      (crc16 ((List.range 64).map fun i => s.byte d (s.cfg.layout.asv.off + i)) 0xFFFF ==
        be16 (s.byte d s.cfg.layout.variantCrc.off) (s.byte d (s.cfg.layout.variantCrc.off + 1))) := by
  rw [State.variantCrcMatches, asvBytes_eq s hw d, storedVariantCrc_eq s hw d]
  rfl

/-! FORMAT. -/

/-- The room for the payload (R93, R160). -/
theorem asivCap_eq {c : Config} (hw : c.wf = true) : c.asivCap = if c.atsPresent then 96 else 104 := by
  obtain ⟨-, ⟨-, -, -, -, -, -, -, -, -, hasiv⟩, -⟩ := wf_lens hw
  rw [Config.asivCap, Config.atsBytes, atsLen, hasiv]
  split <;> rfl

/-- SW owns the descriptor (R78). -/
theorem formatEnabled_eq_true {p : Phase} {observed : Bool}
    (h : p = .unformatted ∨ p = .formatted ∨ observed = true) : formatEnabled p observed = true := by
  rcases h with rfl | rfl | rfl <;> simp [formatEnabled]

/-- Settles O26: the length check stands in front of every store. -/
theorem formatRejectsLongPayload : Obligations.FormatRejectsLongPayload := by
  unfold Obligations.FormatRejectsLongPayload
  intro s d acfunc cmd opts seq ats alen asiv x hw hadm howned hlong
  rw [exec_format_admitted _ _ _ _ _ _ _ hadm, if_pos (formatEnabled_eq_true howned), asivCap_eq hw,
    if_pos hlong, fail_eq]

/-- The CRC FORMAT stores is that of the bytes R161 covers, as they stand afterwards. -/
theorem atomicRead32_formatted_self (s : State) (hw : s.cfg.wf = true) (d : Nat) (x : Desc)
    (img : List Byte) (hl : img.length = s.layout.size) :
    (formatted s d x img).atomicRead32 d =
      ⟨crc16 (coveredBytes s.cfg fun o => (formatted s d x img).byte d o) 0xFFFF, 0, 0⟩ := by
  have hword := (atomicRead32_formatted s hw d x img hl d).trans (if_pos rfl)
  have hmatch := invariantCrcMatches_formatted s hw d x img hl
  rw [invariantCrcMatches_eq, beq_iff_eq, formatted_cfg] at hmatch
  rw [hmatch, hword]

/-- Settles O25: byte by byte the image is R162's, the word is the CRC of what was stored, and the stores stay
inside the descriptor. -/
theorem formatWritesWholeDescriptor : Obligations.FormatWritesWholeDescriptor := by
  unfold Obligations.FormatWritesWholeDescriptor
  intro s d acfunc cmd opts seq ats alen asiv x hw hadm howned hlen hfits
  have himg := length_formatImage s.cfg acfunc cmd opts seq ats asiv
  have hvalue : ∀ o, o < s.cfg.layout.size → byteAt (formatImage s.cfg acfunc cmd opts seq ats asiv) o =
      formatByte s.cfg acfunc cmd opts seq ats asiv o := fun o ho =>
    byteAt_formatImage s.cfg hw acfunc cmd opts seq ats asiv o ho (hlen ▸ hfits)
  have hsize : interlockLen ≤ s.layout.size := ((wf_size hw).1.trans (wf_size hw).2).le
  rw [exec_format_admitted _ _ _ _ _ _ _ hadm, if_pos (formatEnabled_eq_true howned), asivCap_eq hw,
    if_neg (Nat.not_lt.mpr hfits), give_eq]
  generalize formatImage s.cfg acfunc cmd opts seq ats asiv = img at himg hvalue ⊢
  refine ⟨_, rfl, fun o h4 ho => ?_, atomicRead32_formatted_self s hw d.toNat x img himg, rfl,
    fun a ha => read_formatted_outside s hw d.toNat x img himg a ha,
    unitsKept_answer (unitsKept_formatted s _ x img) _, rfl, rfl⟩
  rw [byte_answer, byte_formatted s hsize _ _ _ himg _ _ h4 ho, if_pos rfl, hvalue o ho]

/-! SUBMIT_MARKER and PURGE_MARKER. -/

/-- An atomic OR of a flag of SW's sets the flag and changes no byte but SHI (R69). -/
theorem atomicOr32_shi_sets (s : State) (hw : s.cfg.wf = true) (d : Nat) (b : Byte) :
    (s.atomicOr32 d ⟨0, 0, b⟩).atomicRead32 d =
        { s.atomicRead32 d with shi := (s.atomicRead32 d).shi ||| b } ∧
      BytesKeptOutside s (s.atomicOr32 d ⟨0, 0, b⟩) d s.cfg.layout.shi.off 1 := by
  constructor
  · exact ((atomicRead32_atomicOr32 s hw d _ d).trans (if_pos rfl)).trans (or_shi _ b)
  · intro a ha
    exact read_atomicOr32 s hw d _ rfl a (fun _ => rfl) fun h => by
      unfold State.layout at h
      omega

/-- SUBMIT_MARKER's OR takes FORMATTED to NEXT and leaves the later phases (R166). -/
theorem phaseOf_or_maskNext {c : Config} (hw : c.wf = true) (w : Interlock) (f : Bool)
    (h : phaseOf c.masks w f ≠ .unformatted) :
    phaseOf c.masks (w.or (maskNext c.masks)) f =
      if phaseOf c.masks w f = .formatted then .next else phaseOf c.masks w f := by
  revert h
  simp only [phaseOf, isCompleted_or_maskNext, isFetched_or_maskNext, isNext_or_maskNext hw w, if_true]
  by_cases hcomp : w.isCompleted c.masks
  · simp [hcomp]
  by_cases hfetch : w.isFetched c.masks
  · simp [hcomp, hfetch]
  by_cases hnext : w.isNext c.masks
  · simp [hcomp, hfetch, hnext]
  · cases f <;> simp [hcomp, hfetch, hnext]

/-- Settles O28: the operation is one atomic OR of `next`. -/
theorem submitMarkerSetsNext : Obligations.SubmitMarkerSetsNext := by
  unfold Obligations.SubmitMarkerSetsNext
  intro s d x hw hadm
  rw [exec_submitMarker_admitted hadm]
  refine ⟨fun hp => if_pos hp, fun hp => ?_⟩
  obtain ⟨hword, hkept⟩ := atomicOr32_shi_sets s hw d.toNat s.cfg.masks.next
  refine ⟨{ s.atomicOr32 d.toNat (maskNext s.cfg.masks) with answer := some ⟨.ok, .empty⟩ }, ?_, hword,
    ?_, hkept, rfl, unitsKept_answer (unitsKept_atomicOr32 s _ _) _, rfl, rfl⟩
  · rw [if_neg hp, give_eq]
  · rw [phase_answer, State.phase, atomicRead32_atomicOr32 s hw, if_pos rfl]
    exact phaseOf_or_maskNext hw _ _ hp

/-- Settles O29: inside the window the operation is one atomic OR of `purge`, which the phase does not see. -/
theorem purgeMarkerSetsPurge : Obligations.PurgeMarkerSetsPurge := by
  unfold Obligations.PurgeMarkerSetsPurge
  intro s d x hw hadm
  rw [exec_purgeMarker_admitted hadm]
  refine ⟨fun hout => if_neg ?_, fun hfmt hobs => ?_⟩
  · rcases hout with h | h <;> simp [h]
  obtain ⟨hword, hkept⟩ := atomicOr32_shi_sets s hw d.toNat s.cfg.masks.purge
  refine ⟨{ s.atomicOr32 d.toNat (maskPurge s.cfg.masks) with answer := some ⟨.ok, .empty⟩ }, ?_, hword,
    ?_, hkept, rfl, unitsKept_answer (unitsKept_atomicOr32 s _ _) _, rfl, rfl⟩
  · rw [hfmt, hobs]
    rfl
  · rw [phase_answer, State.phase, atomicRead32_atomicOr32 s hw, if_pos rfl]
    exact phaseOf_or_maskPurge hw _ _

/-! IS_FETCHED, IS_COMPLETED and RESULT. -/

/-- Settles O30: the answer is the flag of the word that is read. -/
theorem isFetchedReadsFlag : Obligations.IsFetchedReadsFlag := by
  unfold Obligations.IsFetchedReadsFlag
  intro s d x hadm
  rw [exec_isFetched_admitted hadm, give_eq]
  rfl

/-- The `completed` flag of a descriptor, as a bit of HSI (R28). -/
theorem isCompleted_iff (s : State) (d : Nat) :
    s.isCompleted d = true ↔ (s.atomicRead32 d).hsi &&& s.cfg.masks.completed ≠ 0 := by
  simp [State.isCompleted, Interlock.isCompleted, hasFlag]

/-- Settles O31: `observeDone_eq` says what the observation leaves. -/
theorem isCompletedReadsAndObserves : Obligations.IsCompletedReadsAndObserves := by
  unfold Obligations.IsCompletedReadsAndObserves
  intro s d x hadm
  obtain ⟨-, hx, -, -⟩ := id hadm
  rw [exec_isCompleted_admitted hadm]
  refine ite_congr (propext (isCompleted_iff s d.toNat)) (fun _ => ?_) fun _ => rfl
  rw [observeDone_eq s _ x hx]
  rfl

/-- A completed command fails unless its return code is one of `RETC_OK` and its attention code 0 (R179). -/
theorem resultStatus_eq (c : Config) (rc attn : U16) :
    resultStatus c rc attn = if rc ∈ c.retcOk ∧ attn = 0 then .ok else .operationFailed := by
  simp [resultStatus]

/-- Settles O33: without the flag the operation fails; with it the observation is IS_COMPLETED's, and the answer
is built from the four fields. -/
theorem resultReturnsFields : Obligations.ResultReturnsFields := by
  unfold Obligations.ResultReturnsFields
  rintro s d x _ _ _ hw hadm rfl rfl rfl
  obtain ⟨-, hx, -, -⟩ := id hadm
  rw [exec_result_admitted hadm]
  by_cases hcomp : s.isCompleted d.toNat = true
  · rw [if_pos hcomp, if_neg ((isCompleted_iff s d.toNat).mp hcomp), observeDone_eq s _ x hx, resultStatus_eq,
      asvBytes_eq s hw]
    rfl
  · have hzero := not_not.mp (mt (isCompleted_iff s d.toNat).mpr hcomp)
    rw [if_neg hcomp, if_pos hzero, fail_eq]

/-! The two verify operations. -/

theorem variantRaces_eq_false {p : Phase} {observed : Bool}
    (h : p = .unformatted ∨ p = .formatted ∨ (p = .completed ∧ observed = true)) :
    variantRaces p observed = false := by
  rcases h with rfl | rfl | ⟨rfl, rfl⟩ <;> rfl

theorem variantRaces_eq_true {p : Phase} {observed : Bool}
    (h : p = .next ∨ p = .fetched ∨ (p = .completed ∧ observed = false)) :
    variantRaces p observed = true := by
  rcases h with rfl | rfl | ⟨rfl, rfl⟩ <;> rfl

/-- Settles O32: `variantRaces` parts the phases, and `variantCrcMatches_eq` says what is compared. -/
theorem verifyVariantCrcCompares : Obligations.VerifyVariantCrcCompares := by
  unfold Obligations.VerifyVariantCrcCompares
  intro s d x hw hadm
  rw [exec_verifyVariantCrc_admitted hadm]
  constructor
  · intro hp
    rw [variantRaces_eq_false hp, if_neg (by decide), giveVerify_eq, variantCrcMatches_eq s hw]
  · intro hp
    rw [variantRaces_eq_true hp, if_pos rfl]
    rfl

/-- HW may read the invariant part from the submission until SW has observed the completion (R77); SW always
may. -/
theorem readGranted_invariantPart {r : Role} {p : Phase} {observed : Bool} (hr : r = .sw ∨ r = .hw)
    (h : r = .sw ∨ p = .next ∨ p = .fetched ∨ (p = .completed ∧ observed = false)) :
    readGranted r .invariantPart (stageOf p observed) = true := by
  rcases hr with rfl | rfl
  · rfl
  · rcases h.resolve_left (by decide) with rfl | rfl | ⟨rfl, rfl⟩ <;> rfl

/-- HW may not read the invariant part while SW owns the descriptor (R77). -/
theorem not_readGranted_invariantPart {p : Phase} {observed : Bool}
    (h : p = .unformatted ∨ p = .formatted ∨ (p = .completed ∧ observed = true)) :
    readGranted .hw .invariantPart (stageOf p observed) = false := by
  rcases h with rfl | rfl | ⟨rfl, rfl⟩ <;> rfl

/-- VERIFY_INVARIANT_CRC is SW's and HW's (R290). -/
theorem role_of_verifyInvariantCrc {s : State} {d : Byte} {x : Desc}
    (h : Admitted s .verifyInvariantCrc d x) : roleOf s.issuer = .sw ∨ roleOf s.issuer = .hw := by
  obtain ⟨hr, -⟩ := h
  simpa [RoleGranted, rolesOf] using hr

/-- Settles O34: R77 decides for HW whether the read is granted, and `invariantCrcMatches_eq` says what is
compared. -/
theorem verifyInvariantCrcCompares : Obligations.VerifyInvariantCrcCompares := by
  unfold Obligations.VerifyInvariantCrcCompares
  intro s d x hadm
  rw [exec_verifyInvariantCrc_admitted hadm]
  constructor
  · intro hp
    rw [readGranted_invariantPart (role_of_verifyInvariantCrc hadm) hp, if_pos rfl, giveVerify_eq,
      invariantCrcMatches_eq]
  · intro hr hp
    rw [hr, not_readGranted_invariantPart hp, if_neg (by decide)]

/-- Settles O36: both comparisons are clauses of `SectionsProtected`. -/
theorem protectedSectionsVerify : Obligations.ProtectedSectionsVerify := by
  unfold Obligations.ProtectedSectionsVerify
  intro s d x hs hf
  constructor
  · intro hadm hr
    obtain ⟨-, hx, -, -⟩ := id hadm
    obtain ⟨hinvariant, -, -⟩ := hs _ x hx hf
    rw [exec_verifyInvariantCrc_admitted hadm, readGranted_invariantPart (.inl hr) (.inl hr), if_pos rfl,
      hinvariant]
    rfl
  · intro hadm hlf hp hobs
    obtain ⟨-, hx, -, -⟩ := id hadm
    obtain ⟨-, -, hvariant⟩ := hs _ x hx hf
    rw [exec_verifyVariantCrc_admitted hadm, variantRaces_eq_false (.inr (.inr ⟨hp, hobs⟩)),
      if_neg (by decide), hvariant hlf ((phaseOf_eq_completed_iff ..).mp hp)]
    rfl

/-! VERIFY_VARIANT_CRC right after FORMAT: the CRC of zero bytes is not zero. -/

theorem crc16_replicate_zero (n : Nat) : crc16 (List.replicate n 0) 0 = 0 := by
  induction n with
  | zero => rfl
  | succ n ih => rw [List.replicate_succ, crc16_cons, crc16Step_zero_zero, ih]

/-- Zero bytes take no starting value to 0 but 0 itself. -/
theorem crc16_replicate_zero_ne (n : Nat) {init : U16} (h : init ≠ 0) :
    crc16 (List.replicate n 0) init ≠ 0 := fun hz =>
  h (crc16_injective _ (hz.trans (crc16_replicate_zero n).symm))

/-- FORMAT leaves the variant part 0x00 (R162). -/
theorem byte_formatted_variant (s : State) (hw : s.cfg.wf = true) (d : Nat) (x : Desc) (acfunc cmd : Byte)
    (opts : U16) (seq : Nat) (ats : U64) (asiv : List Byte) (hl : asiv.length ≤ s.cfg.asivCap) (o : Nat)
    (hinv : s.cfg.layout.invariantLen ≤ o) (ho : o < s.cfg.layout.size) :
    (formatted s d x (formatImage s.cfg acfunc cmd opts seq ats asiv)).byte d o = 0 := by
  obtain ⟨h4, hsize⟩ := wf_size hw
  have hout : ∀ f ∈ s.cfg.layout.invFields, f.covers o ≠ true := fun f hf hcov => by
    have := (wf_inv_bounds hw f hf).2
    have := (covers_iff _ _).mp hcov
    omega
  have hasiv : s.cfg.layout.asiv.off + s.cfg.atsBytes + asiv.length ≤ s.cfg.layout.invariantLen := by
    have hats : s.cfg.atsBytes ≤ s.cfg.layout.asiv.len := by
      obtain ⟨-, ⟨-, -, -, -, -, -, -, -, -, hasiv⟩, -⟩ := wf_lens hw
      rw [hasiv, Config.atsBytes, atsLen]
      split <;> omega
    unfold Config.asivCap at hl
    unfold Layout.invariantLen
    omega
  rw [byte_formatted s (h4.trans hsize).le d x _ (length_formatImage ..) d o
    (h4.le.trans hinv) ho, if_pos rfl]
  exact byteAt_formatImage_outside s.cfg hw acfunc cmd opts seq ats asiv o ho
    (hout _ (by simp [Layout.invFields])) (hout _ (by simp [Layout.invFields]))
    (hout _ (by simp [Layout.invFields])) (hout _ (by simp [Layout.invFields]))
    (hout _ (by simp [Layout.invFields])) (hout _ (by simp [Layout.invFields]))
    (hout _ (by simp [Layout.invFields])) (hout _ (by simp [Layout.invFields]))
    (fun h => by omega) (fun h => by omega)

/-- Over a variant part of zero bytes the check fails: `variant_crc` is 0, and the CRC of the ASV is not. -/
theorem variantCrcMatches_of_zero (s : State) (hw : s.cfg.wf = true) (d : Nat)
    (hzero : ∀ o, s.cfg.layout.invariantLen ≤ o → o < s.cfg.layout.size → s.byte d o = 0) :
    s.variantCrcMatches d = false := by
  have hasv := wf_var_bounds hw s.cfg.layout.asv (by simp [Layout.varFields])
  have hcrc := wf_var_bounds hw s.cfg.layout.variantCrc (by simp [Layout.varFields])
  obtain ⟨-, -, hasvLen, hcrcLen, -⟩ := wf_lens hw
  have hbytes : ((List.range 64).map fun i => s.byte d (s.cfg.layout.asv.off + i)) =
      List.replicate 64 0 := by
    refine List.eq_replicate_iff.mpr ⟨by simp, fun b hb => ?_⟩
    obtain ⟨i, hi, rfl⟩ := List.mem_map.mp hb
    have hi := List.mem_range.mp hi
    exact hzero _ (by omega) (by omega)
  rw [variantCrcMatches_eq s hw, hbytes, hzero _ (by omega) (by omega), hzero _ (by omega) (by omega),
    beq_eq_false_iff_ne]
  exact crc16_replicate_zero_ne 64 (by decide)

/-- After FORMAT the phase is FORMATTED (R30). -/
theorem phase_formatted {s : State} (hw : s.cfg.wf = true) (d : Nat) (x y : Desc) (img : List Byte)
    (hl : img.length = s.layout.size) (hy : y.fmt = true) :
    (formatted s d x img).phase d y = .formatted := by
  have hword := (atomicRead32_formatted s hw d x img hl d).trans (if_pos rfl)
  obtain ⟨hnext, -, hfetched, hcompleted, -⟩ :=
    no_flag_of_zero s.cfg.masks ((formatted s d x img).atomicRead32 d) (by rw [hword]) (by rw [hword])
  simp [State.phase, phaseOf, hnext, hfetched, hcompleted, hy]

/-- A FORMAT that returned OK was admitted, its payload fits, and it has stored the image. -/
theorem formatted_of_exec_format {s t : State} {d acfunc cmd : Byte} {opts : U16} {seq : Nat} {ats : U64}
    {alen : Byte} {asiv : List Byte} (h : exec (.format d acfunc cmd opts seq ats alen asiv) s = .next t)
    (ha : t.answer = some ⟨.ok, .empty⟩) :
    ∃ x, Admitted s .format d x ∧ alen.toNat ≤ s.cfg.asivCap ∧
      t = { formatted s d.toNat x (formatImage s.cfg acfunc cmd opts seq ats asiv) with
        answer := some ⟨.ok, .empty⟩ } := by
  obtain ⟨hr, h'⟩ := (issue_next_iff ..).mp h
  obtain ⟨x, hx, hbase, hthread, -⟩ := (onDescriptor_next_iff ..).mp h'
  have hadm : Admitted s .format d x := ⟨hr, hx, hbase, hthread⟩
  rw [exec_format_admitted _ _ _ _ _ _ _ hadm] at h
  split_ifs at h with henabled hlong
  · obtain rfl := (give_eq_next_iff ..).mp h
    exact absurd ha (by simp)
  · exact ⟨x, hadm, Nat.not_lt.mp hlong, (give_eq_next_iff ..).mp h⟩

/-- Who formatted a descriptor may verify it next (R290, R293). -/
theorem admitted_verifyVariantCrc_of_format {s : State} {d : Byte} {x : Desc} (h : Admitted s .format d x)
    (img : List Byte) (a : Option Answer) :
    Admitted { formatted s d.toNat x img with answer := a } .verifyVariantCrc d
      { x with fmt := true, swObsDone := false } := by
  obtain ⟨hr, hx, hbase, hthread⟩ := h
  exact ⟨hr, List.getElem?_set_self (List.getElem?_eq_some_iff.mp hx).1, hbase, hthread⟩

/-- Settles O35: FORMAT leaves a descriptor in phase FORMATTED, where nothing races, whose variant check
fails. -/
theorem prematureVerifyFails : Obligations.PrematureVerifyFails := by
  unfold Obligations.PrematureVerifyFails
  intro s t d acfunc cmd opts seq ats alen asiv hw hlen h ha
  obtain ⟨x, hadm, hfits, rfl⟩ := formatted_of_exec_format h ha
  have himg := length_formatImage s.cfg acfunc cmd opts seq ats asiv
  have hzero := byte_formatted_variant s hw d.toNat x acfunc cmd opts seq ats asiv (hlen ▸ hfits)
  generalize formatImage s.cfg acfunc cmd opts seq ats asiv = img at himg hzero ⊢
  rw [exec_verifyVariantCrc_admitted (admitted_verifyVariantCrc_of_format hadm img _), phase_answer,
    phase_formatted hw d.toNat x _ img himg rfl, variantRaces_eq_false (.inr (.inl rfl)), if_neg (by decide),
    giveVerify_eq, variantCrcMatches_answer,
    variantCrcMatches_of_zero (formatted s d.toNat x img) hw d.toNat hzero]
  rfl

end Sys2Proof.Machine
end

section
/-! The hardware side of the Command Descriptor unit, 41_command_descriptor.md rules R184 to R191: what HW_FETCH
and HW_COMPLETE leave of a descriptor, and that a purge and a fetch lose no flag of each other. -/

namespace Sys2Proof.Machine

open Sys2Proof.Safety

/-! What an admitted operation of HW does, behind the checks of its admission. -/

section
variable {s : State} {d : Byte} {x : Desc}

theorem exec_hwFetch_admitted (h : Admitted s .hwFetch d x) :
    exec (.hwFetch d) s =
      if s.phase d.toNat x = .next then
        (fetched s d.toNat x (fetchDraws s.layout s.draws)).nextDraw.give .ok .empty
      else .refused .fetchOutsideNext :=
  admitted_eq s .hwFetch d x _ h

theorem exec_hwComplete_admitted (h : Admitted s .hwComplete d x) :
    exec (.hwComplete d) s =
      if s.phase d.toNat x = .fetched then
        (completed s d.toNat x (completionDraws s.layout s.draws)).nextDraw.give .ok .empty
      else .refused .completeOutsideFetched :=
  admitted_eq s .hwComplete d x _ h

end

/-! Numeric fields. -/

/-- A field into which a word was stored with room for it holds that word (R24). -/
theorem fieldNat_of_fieldBytes {s : State} {d : Nat} {f : Field} {w : Nat} (v : BitVec w)
    (hlen : w ≤ 8 * f.len) (h : s.fieldBytes d f = toBe f.len v.toNat) : s.fieldNat d f = v.toNat := by
  rw [State.fieldNat, h, ofBe_toBe_of_lt]
  calc v.toNat < 2 ^ w := v.isLt
    _ ≤ 2 ^ (8 * f.len) := Nat.pow_le_pow_right (by decide) hlen
    _ = 256 ^ f.len := by rw [Nat.pow_mul]

@[simp] theorem fieldNat_nextDraw (s : State) (d : Nat) (f : Field) :
    s.nextDraw.fieldNat d f = s.fieldNat d f := rfl

@[simp] theorem fieldNat_answer (s : State) (a : Option Answer) (d : Nat) (f : Field) :
    ({ s with answer := a } : State).fieldNat d f = s.fieldNat d f := rfl

/-! HW_FETCH. -/

/-- The check HW makes of a snapshot, for the two values of `ICRC_RANGE` (R161, R184). -/
theorem snapshotCrc_eq (c : Config) (snap : List Byte) :
    snapshotCrc c snap =
      if c.icrcRange = .zeroedWord then crc16 snap 0xFFFF else crc16 (snap.drop 4) 0xFFFF := by
  unfold snapshotCrc
  cases c.icrcRange <;> rfl

/-- With link faults the snapshot is drawn (R184). -/
theorem takeSnapshot_bytes_of_linkFaults (s : State) (d : Nat) (draws : FetchDraws)
    (h : s.cfg.linkFaults = true) : (takeSnapshot s d draws).bytes = draws.snap :=
  if_pos h

/-- The snapshot has the invariant part's length, drawn or not. -/
theorem length_takeSnapshot (s : State) (hw : s.cfg.wf = true) (d n : Nat) :
    (takeSnapshot s d (fetchDraws s.layout n)).bytes.length = s.cfg.layout.invariantLen := by
  cases hlf : s.cfg.linkFaults with
  | true =>
    rw [takeSnapshot_bytes_of_linkFaults s d _ hlf]
    simp [fetchDraws]
  | false =>
    have hs := (wf_size hw).1
    rw [takeSnapshot_bytes s d _ hlf, State.invariantPart, List.length_append, length_blankWord,
      length_memRead]
    unfold State.layout
    omega

/-- `dispatch_timestamp` after HW_FETCH (R184). -/
theorem fieldNat_fetched_dispatchTs (s : State) (hw : s.cfg.wf = true) (d : Nat) (x : Desc)
    (draws : FetchDraws) : (fetched s d x draws).fieldNat d s.cfg.layout.dispatchTs = draws.ts.toNat := by
  obtain ⟨-, -, -, -, -, -, -, -, hlen⟩ := wf_lens hw
  have hs := (wf_size hw).1
  have hb := wf_var_bounds hw s.cfg.layout.dispatchTs (by simp [Layout.varFields])
  refine fieldNat_of_fieldBytes draws.ts (by omega) (bytes_ext _ _ ?_ fun i hi => ?_)
  · rw [State.fieldBytes, length_memRead, length_toBe]
  · rw [State.fieldBytes, length_memRead] at hi
    have hcov : s.layout.dispatchTs.covers (s.cfg.layout.dispatchTs.off + i) = true :=
      (covers_iff _ _).mpr ⟨Nat.le_add_right _ _, Nat.add_lt_add_left hi _⟩
    obtain ⟨h4, hsize⟩ := wf_varField_range hw (by simp [Layout.varFields]) hcov
    rw [State.fieldBytes, byteAt_memRead _ _ _ _ _ hi, byte_fetched s hw d x draws d _ h4 hsize,
      if_pos ⟨rfl, hcov⟩, Nat.add_sub_cancel_left]

/-- Settles O37: the operation is the snapshot, the stamp and one atomic OR of `fetched`. -/
theorem hwFetchTakesSnapshot : Obligations.HwFetchTakesSnapshot := by
  unfold Obligations.HwFetchTakesSnapshot
  rintro s d x _ hw rfl hadm
  rw [exec_hwFetch_admitted hadm]
  refine ⟨fun hp => if_neg hp, fun hp => ?_⟩
  rw [if_pos hp, give_eq]
  have hdrawn : ∀ i, i < s.cfg.layout.invariantLen →
      byteAt (fetchDraws s.layout s.draws).snap i = Config.drawSnapByte s.draws i :=
    fun i hi => byteAt_map_range _ i _ hi
  have hlength := length_takeSnapshot s hw d.toNat s.draws
  have hts : (fetchDraws s.layout s.draws).ts = Config.drawDispatchTs s.draws := rfl
  generalize fetchDraws s.layout s.draws = draws at hdrawn hlength hts ⊢
  refine ⟨_, takeSnapshot s d.toNat draws, rfl, ?_, hlength, fun hlf => ?_, fun hlf => ?_, ?_, rfl, ?_,
    fun a hhsi hout => read_fetched_outside s hw d.toNat x draws a hhsi hout,
    unitsKept_answer (unitsKept_nextDraw (unitsKept_fetched s _ x draws)) _, rfl, rfl⟩
  · rw [atomicRead32_answer, atomicRead32_nextDraw, atomicRead32_fetched s hw, if_pos rfl]
    exact or_hsi _ _
  · rw [takeSnapshot_bytes s d.toNat draws hlf, State.invariantPart, memRead_eq_map]
    rfl
  · rw [takeSnapshot_bytes_of_linkFaults s d.toNat draws hlf]
    exact hdrawn
  · rw [← snapshotCrc_eq]
    rfl
  · rw [fieldNat_answer, fieldNat_nextDraw, fieldNat_fetched_dispatchTs s hw, hts]

/-! HW_COMPLETE. -/

/-- A free value one above a number below 65535 is not 0. -/
theorem ofNat_succ_ne_zero (p : Fin 65535) : BitVec.ofNat 16 (p.val + 1) ≠ 0 := by
  intro h
  have hval : (BitVec.ofNat 16 (p.val + 1)).toNat = 0 := congrArg BitVec.toNat h
  rw [BitVec.toNat_ofNat] at hval
  omega

/-- `RETC_ICRC_FAIL` and `RETC_BAD_CMD` are nonzero (R187). -/
theorem retc_ne_zero : Config.retcIcrcFail ≠ 0 ∧ Config.retcBadCmd ≠ 0 :=
  ⟨ofNat_succ_ne_zero _, ofNat_succ_ne_zero _⟩

/-- An overlay applies exactly to the commands R99 names. -/
theorem overlayApplies_iff (c : Config) (snap : List Byte) :
    overlayApplies c (snapAcfunc c snap) (snapCmd c snap) = true ↔ SnapshotKnown c snap := by
  simp [overlayApplies, SnapshotKnown, snapAcfunc, snapCmd, snapNat]

section
variable (c : Config) (snap : Snapshot) (drawn : U16)

theorem completionCode_of_icrcFail (h : snap.icrcOk = false) :
    completionCode c snap drawn = Config.retcIcrcFail := by
  simp [completionCode, h]

theorem completionCode_of_unknown (h : snap.icrcOk = true) (hk : ¬SnapshotKnown c snap.bytes)
    (hz : c.zipOnly = true) : completionCode c snap drawn = Config.retcBadCmd := by
  rw [← overlayApplies_iff] at hk
  simp [completionCode, h, hk, hz]

theorem completionCode_of_known (h : snap.icrcOk = true)
    (hk : SnapshotKnown c snap.bytes ∨ c.zipOnly = false) : completionCode c snap drawn = drawn := by
  rw [← overlayApplies_iff] at hk
  rcases hk with hk | hk <;> simp [completionCode, h, hk]

end

section
variable (s : State) (hw : s.cfg.wf = true) (d : Nat) (x : Desc) (n : Nat)
include hw

/-- A numeric field after HW_COMPLETE. -/
theorem fieldNat_completed (f : Field) {w : Nat} (v : BitVec w) (hlen : w ≤ 8 * f.len)
    (hmem : (f.off, toBe f.len v.toNat) ∈ completionRuns s.cfg x.snap (completionDraws s.layout n)) :
    (completed s d x (completionDraws s.layout n)).fieldNat d f = v.toNat := by
  have hread := memRead_completed_run s hw d x n _ hmem
  rw [length_toBe] at hread
  exact fieldNat_of_fieldBytes v hlen hread

/-- `variant_crc` after HW_COMPLETE. -/
theorem fieldNat_completed_variantCrc :
    (completed s d x (completionDraws s.layout n)).fieldNat d s.cfg.layout.variantCrc =
      (completionCrc s.cfg (completionDraws s.layout n)).toNat := by
  obtain ⟨-, -, -, hlen, -⟩ := wf_lens hw
  refine fieldNat_completed s hw d x n _ _ (by omega) ?_
  rw [hlen, ← toBe16_eq]
  simp [completionRuns]

/-- The ASV after HW_COMPLETE. -/
theorem fieldBytes_completed_asv :
    (completed s d x (completionDraws s.layout n)).fieldBytes d s.cfg.layout.asv =
      (completionDraws s.layout n).asv := by
  obtain ⟨-, -, hlen, -⟩ := wf_lens hw
  have hread := memRead_completed_run s hw d x n
    (s.cfg.layout.asv.off, (completionDraws s.layout n).asv) (by simp [completionRuns])
  rw [State.fieldBytes, hlen]
  rwa [length_completionDraws_asv] at hread

/-- A byte of the ASV after HW_COMPLETE. -/
theorem byte_completed_asv (i : Nat) (hi : i < 64) :
    (completed s d x (completionDraws s.layout n)).byte d (s.cfg.layout.asv.off + i) =
      Config.drawAsvByte n i := by
  rw [byte_completed_run s hw d x n _ (s.cfg.layout.asv.off, (completionDraws s.layout n).asv)
    (by simp [completionRuns]) (by rw [length_completionDraws_asv]; omega), Nat.add_sub_cancel_left]
  exact byteAt_map_range _ i _ hi

/-- A reserved byte of the variant part after HW_COMPLETE. -/
theorem byte_completed_reserved (o : Nat) (ho : o ∈ s.cfg.layout.reservedVariant) :
    (completed s d x (completionDraws s.layout n)).byte d o = Config.drawReservedByte n o := by
  have hsize := ((mem_reservedVariant _ _).mp ho).1
  have hmem : (o, [byteAt (completionDraws s.layout n).rsv o]) ∈
      completionRuns s.cfg x.snap (completionDraws s.layout n) :=
    List.mem_append_right _ (List.mem_map_of_mem ho)
  rw [byte_completed_run s hw d x n o _ hmem ⟨Nat.le_refl _, Nat.lt_succ_self _⟩, Nat.sub_self]
  exact byteAt_map_range _ o _ hsize

/-- HW_COMPLETE keeps the invariant part, the driver's bytes and `dispatch_timestamp` (R186). -/
theorem byte_completed_kept (o : Nat) (hsize : o < s.cfg.layout.size) (hhsi : o ≠ s.cfg.layout.hsi.off)
    (ho : o < s.cfg.layout.invariantLen ∨ s.cfg.layout.driver.covers o = true ∨
      s.cfg.layout.dispatchTs.covers o = true) :
    (completed s d x (completionDraws s.layout n)).byte d o = s.byte d o := by
  by_cases hinv : o < s.cfg.layout.invariantLen
  · refine read_completed_outside s hw d x n (s.addr d o) ?_ (.inl ?_) <;>
      unfold State.addr descAddr State.layout <;> omega
  · have h4 : interlockLen = 4 := rfl
    have hs := (wf_size hw).1
    exact byte_completed_outside s hw d x n d o (by omega) hsize (.inr ho)

/-- HW_COMPLETE changes no byte outside its descriptor (R277). -/
theorem bytesKeptOutside_completed :
    BytesKeptOutside s (completed s d x (completionDraws s.layout n)) d 0 s.cfg.layout.size := by
  obtain ⟨h4, hinv⟩ := wf_size hw
  have hhsi := (wf_ilk hw).2.1
  have hword : interlockLen = 4 := rfl
  intro a ha
  refine read_completed_outside s hw d x n a ?_ ?_ <;> unfold State.addr descAddr State.layout at * <;> omega

end

/-- Settles O38: each field is one of HW_COMPLETE's runs, the `return_code` one of the three cases of
`completionCode`, and the word one atomic OR of `completed`. -/
theorem hwCompleteWritesVariantPart : Obligations.HwCompleteWritesVariantPart := by
  unfold Obligations.HwCompleteWritesVariantPart
  rintro s d x _ hw rfl hadm
  rw [exec_hwComplete_admitted hadm]
  refine ⟨fun hp => if_neg hp, fun hp => ?_⟩
  rw [if_pos hp, give_eq]
  obtain ⟨-, -, -, -, hretc, hattn, hprogress, hts, -⟩ := wf_lens hw
  refine ⟨_, completionCode s.cfg x.snap (Config.drawRc s.draws), rfl, ?_, fun hlf => ?_, fun hlf => ?_,
    byte_completed_asv s hw d.toNat x s.draws, ?_, fun h => ?_, fun h hk hz => ?_,
    completionCode_of_known s.cfg x.snap _, ?_, ?_, ?_, byte_completed_reserved s hw d.toNat x s.draws,
    byte_completed_kept s hw d.toNat x s.draws, bytesKeptOutside_completed s hw d.toNat x s.draws, rfl,
    unitsKept_answer (unitsKept_nextDraw (unitsKept_completed s _ x _)) _, rfl, rfl⟩
  · rw [atomicRead32_answer, atomicRead32_nextDraw, atomicRead32_completed s hw, if_pos rfl]
    exact or_hsi _ _
  · refine (fieldNat_completed_variantCrc s hw d.toNat x s.draws).trans ?_
    rw [completionCrc, hlf]
    exact congrArg (fun a => (variantCrc a).toNat) (fieldBytes_completed_asv s hw d.toNat x s.draws).symm
  · refine (fieldNat_completed_variantCrc s hw d.toNat x s.draws).trans ?_
    rw [completionCrc, hlf]
    rfl
  · exact fieldNat_completed s hw d.toNat x s.draws _ _ (by omega) (List.mem_of_getElem? (i := 2) rfl)
  · rw [completionCode_of_icrcFail _ _ _ h]
    exact ⟨rfl, retc_ne_zero.1⟩
  · rw [completionCode_of_unknown _ _ _ h hk hz]
    exact ⟨rfl, retc_ne_zero.2⟩
  · exact fieldNat_completed s hw d.toNat x s.draws _ _ (by omega) (List.mem_of_getElem? (i := 3) rfl)
  · exact fieldNat_completed s hw d.toNat x s.draws _ _ (by omega) (List.mem_of_getElem? (i := 4) rfl)
  · exact fieldNat_completed s hw d.toNat x s.draws _ _ (by omega) (List.mem_of_getElem? (i := 5) rfl)

/-! A purge and a fetch in either order. -/

/-- HW is admitted to the fetch of a descriptor that another agent is admitted to: it is no software thread (R290,
R293). -/
theorem admitted_hwFetch {s t : State} {op : Opcode} {d : Byte} {x : Desc} (h : Admitted s op d x)
    (hdescs : t.descs = s.descs) : Admitted { t with issuer := .hw } .hwFetch d x := by
  obtain ⟨-, hx, hbase, -⟩ := h
  exact ⟨List.mem_singleton_self _, hdescs ▸ hx, hbase, rfl⟩

/-- The word that a purge and a fetch leave, in either order. -/
def purgedAndFetched (m : FlagMasks) (w : Interlock) : Interlock :=
  ⟨w.icrc, w.hsi ||| m.fetched, w.shi ||| m.purge⟩

section
variable {s : State} {d : Byte} {x : Desc} {a : Agent} (hw : s.cfg.wf = true)
  (hadm : Admitted { s with issuer := a } .purgeMarker d x) (hp : s.phase d.toNat x = .next)
  (hfmt : x.fmt = true) (hobs : x.swObsDone = false)
include hw hadm hp hfmt hobs

/-- PURGE_MARKER in phase NEXT leaves the phase, so that the fetch behind it is enabled (R191). -/
theorem purge_then_fetch :
    ∃ t1 t2, exec (.purgeMarker d) { s with issuer := a } = .next t1 ∧
      exec (.hwFetch d) { t1 with issuer := .hw } = .next t2 ∧
      t2.atomicRead32 d.toNat = purgedAndFetched s.cfg.masks (s.atomicRead32 d.toNat) := by
  obtain ⟨-, hpurge⟩ := purgeMarkerSetsPurge { s with issuer := a } d x hw hadm
  obtain ⟨t1, ht1, hword1, hphase1, -, hdescs1, ⟨hcfg1, -⟩, -⟩ := hpurge hfmt hobs
  have hadm1 := admitted_hwFetch (t := t1) hadm hdescs1
  obtain ⟨-, hfetch⟩ := hwFetchTakesSnapshot { t1 with issuer := .hw } d x _ (by rw [hcfg1]; exact hw) rfl
    hadm1
  obtain ⟨t2, -, ht2, hword2, -⟩ := hfetch (hphase1.trans hp)
  exact ⟨t1, t2, ht1, ht2, hword2.trans
    (congrArg₂ (fun w (c : Config) => Interlock.mk w.icrc (w.hsi ||| c.masks.fetched) w.shi) hword1 hcfg1)⟩

/-- HW_FETCH neither formats nor observes, so that the purge behind it is enabled (R191). -/
theorem fetch_then_purge :
    ∃ u1 u2, exec (.hwFetch d) { s with issuer := .hw } = .next u1 ∧
      exec (.purgeMarker d) { u1 with issuer := a } = .next u2 ∧
      u2.atomicRead32 d.toNat = purgedAndFetched s.cfg.masks (s.atomicRead32 d.toNat) := by
  have hadm1 := admitted_hwFetch (t := s) hadm rfl
  obtain ⟨-, hfetch⟩ := hwFetchTakesSnapshot { s with issuer := .hw } d x _ hw rfl hadm1
  obtain ⟨u1, snap, hu1, hword1, -, -, -, -, hdescs1, -, -, ⟨hcfg1, -⟩, -⟩ := hfetch hp
  obtain ⟨hr, hx, hbase, hthread⟩ := hadm
  have hadm2 : Admitted { u1 with issuer := a } .purgeMarker d { x with snap := snap } :=
    ⟨hr, (congrArg (·[d.toNat]?) hdescs1).trans
      (List.getElem?_set_self (List.getElem?_eq_some_iff.mp hx).1), hbase, hthread⟩
  obtain ⟨-, hpurge⟩ := purgeMarkerSetsPurge { u1 with issuer := a } d _ (by rw [hcfg1]; exact hw) hadm2
  obtain ⟨u2, hu2, hword2, -⟩ := hpurge hfmt hobs
  exact ⟨u1, u2, hu1, hu2, hword2.trans
    (congrArg₂ (fun w (c : Config) => Interlock.mk w.icrc w.hsi (w.shi ||| c.masks.purge)) hword1 hcfg1)⟩

end

/-- Settles O39: either operation leaves the other enabled, and the two ORs touch different bytes. -/
theorem purgeFetchRaceKeepsBothFlags : Obligations.PurgeFetchRaceKeepsBothFlags := by
  unfold Obligations.PurgeFetchRaceKeepsBothFlags
  intro s d x a hw hadm hp hfmt hobs
  obtain ⟨t1, t2, ht1, ht2, ht⟩ := purge_then_fetch hw hadm hp hfmt hobs
  obtain ⟨u1, u2, hu1, hu2, hu⟩ := fetch_then_purge hw hadm hp hfmt hobs
  refine ⟨t1, t2, u1, u2, ht1, ht2, hu1, hu2, ht.trans hu.symm, ht, fun hl hm hhsi hshi => ?_⟩
  have hflags : be16 (0 ||| FlagMasks.default.fetched) (0x01 ||| FlagMasks.default.purge) = 0x0403 := by
    decide
  rw [ht, purgedAndFetched, hl, word_default, hm, hhsi, hshi, hflags]

end Sys2Proof.Machine
end

section
/-! The Compression Payload Overlay unit, 42_payload_overlay.md: what the option checks say (R203, R204), what an
encoder laid out is what the decoder reads (R205 to R218), and the carry (R220, R221). -/

namespace Sys2Proof.Machine

open Sys2Proof.Safety

/-! What an admitted operation answers, and which answers an encoder gives with OK. -/

section
variable {s : State}

theorem exec_encInflAsiv_granted (h : RoleGranted s .encInflAsiv) (opts : U16) (p : InflParams) :
    exec (.encInflAsiv opts p) s =
      if !kindsConsistent s.cfg.opt opts p.inKind p.outKind then s.fail .badOptionCombination
      else if inflWorkspaceMissing s.cfg.opt opts p.toInflFields then s.fail .missingWorkspace
      else s.give .ok (.bytes (inflAsivBytes s.cfg.ovl p.toInflFields)) :=
  issue_granted s .encInflAsiv _ h

theorem exec_encDeflAsiv_granted (h : RoleGranted s .encDeflAsiv) (opts : U16) (p : DeflParams) :
    exec (.encDeflAsiv opts p) s =
      if 56 < p.inumbits.toNat then .refused .carryTooWide
      else if !kindsConsistent s.cfg.opt opts p.inKind p.outKind then s.fail .badOptionCombination
      else if deflWorkspaceMissing s.cfg.opt opts p.toDeflFields then s.fail .missingWorkspace
      else s.give .ok (.bytes (deflAsivBytes s.cfg.ovl p.toDeflFields)) :=
  issue_granted s .encDeflAsiv _ h

theorem exec_decInflAsv_granted (h : RoleGranted s .decInflAsv) (cmd : Byte) (a : List Byte) :
    exec (.decInflAsv cmd a) s =
      if cmd ≠ s.cfg.cmdInflate then s.fail .badCommand
      else s.give .ok (.inflResult (inflAsvFields s.cfg.ovl a)
        (inflStatOf (inflAsvFields s.cfg.ovl a).inflStat)) :=
  issue_granted s .decInflAsv _ h

theorem exec_decDeflAsv_granted (h : RoleGranted s .decDeflAsv) (cmd : Byte) (a : List Byte) :
    exec (.decDeflAsv cmd a) s =
      if cmd ≠ s.cfg.cmdDeflate then s.fail .badCommand
      else s.give .ok (.deflResult (deflAsvFields s.cfg.ovl s.cfg.otailLen a)) :=
  issue_granted s .decDeflAsv _ h

theorem exec_decInflAsiv_granted (h : RoleGranted s .decInflAsiv) (cmd : Byte) (a : List Byte) :
    exec (.decInflAsiv cmd a) s =
      if cmd ≠ s.cfg.cmdInflate then s.fail .badCommand
      else s.give .ok (.inflFields (inflAsivFields s.cfg.ovl a)) :=
  issue_granted s .decInflAsiv _ h

theorem exec_decDeflAsiv_granted (h : RoleGranted s .decDeflAsiv) (cmd : Byte) (a : List Byte) :
    exec (.decDeflAsiv cmd a) s =
      if cmd ≠ s.cfg.cmdDeflate then s.fail .badCommand
      else s.give .ok (.deflFields (deflAsivFields s.cfg.ovl a)) :=
  issue_granted s .decDeflAsiv _ h

theorem exec_encInflAsv_granted (h : RoleGranted s .encInflAsv) (r : InflResult) :
    exec (.encInflAsv r) s =
      .next { s with answer := some ⟨.ok, .bytes (inflAsvBytes s.cfg.ovl r)⟩ } :=
  issue_granted s .encInflAsv _ h

theorem exec_encDeflAsv_granted (h : RoleGranted s .encDeflAsv) (r : DeflResult) :
    exec (.encDeflAsv r) s =
      .next { s with answer := some ⟨.ok, .bytes (deflAsvBytes s.cfg.ovl r)⟩ } :=
  issue_granted s .encDeflAsv _ h

theorem exec_carry_granted (h : RoleGranted s .carry) (onumbits k : Byte) (otail : List Byte) :
    exec (.carry onumbits k otail) s =
      if carryEnabled s.cfg onumbits.toNat k.toNat then
        s.give .ok (.carry (otail.take k.toNat) (carryIbits onumbits.toNat k.toNat otail)
          (BitVec.ofNat 8 (onumbits.toNat - 8 * k.toNat)))
      else .refused .carryOutsidePrecondition :=
  issue_granted s .carry _ h

variable {t : State} {a : List Byte}

/-- A byte array that comes with OK is what was given with OK. -/
theorem ok_bytes_of_give {st : Status} {pl : Payload} (h : s.give st pl = .next t)
    (ha : t.answer = some ⟨.ok, .bytes a⟩) : st = .ok ∧ pl = .bytes a := by
  obtain rfl := (give_eq_next_iff ..).mp h
  simpa using ha

theorem ok_bytes_encInflAsiv {opts : U16} {p : InflParams} (h : exec (.encInflAsiv opts p) s = .next t)
    (ha : t.answer = some ⟨.ok, .bytes a⟩) : a = inflAsivBytes s.cfg.ovl p.toInflFields := by
  obtain ⟨-, h⟩ := (issue_next_iff ..).mp h
  split at h
  · exact absurd (ok_bytes_of_give h ha).1 (by decide)
  · split at h
    · exact absurd (ok_bytes_of_give h ha).1 (by decide)
    · exact (Payload.bytes.inj (ok_bytes_of_give h ha).2).symm

theorem ok_bytes_encDeflAsiv {opts : U16} {p : DeflParams} (h : exec (.encDeflAsiv opts p) s = .next t)
    (ha : t.answer = some ⟨.ok, .bytes a⟩) : a = deflAsivBytes s.cfg.ovl p.toDeflFields := by
  obtain ⟨-, h⟩ := (issue_next_iff ..).mp h
  split at h
  · cases h
  · split at h
    · exact absurd (ok_bytes_of_give h ha).1 (by decide)
    · split at h
      · exact absurd (ok_bytes_of_give h ha).1 (by decide)
      · exact (Payload.bytes.inj (ok_bytes_of_give h ha).2).symm

theorem ok_bytes_encInflAsv {r : InflResult} (h : exec (.encInflAsv r) s = .next t)
    (ha : t.answer = some ⟨.ok, .bytes a⟩) : a = inflAsvBytes s.cfg.ovl r :=
  (Payload.bytes.inj (ok_bytes_of_give ((issue_next_iff ..).mp h).2 ha).2).symm

theorem ok_bytes_encDeflAsv {r : DeflResult} (h : exec (.encDeflAsv r) s = .next t)
    (ha : t.answer = some ⟨.ok, .bytes a⟩) : a = deflAsvBytes s.cfg.ovl r :=
  (Payload.bytes.inj (ok_bytes_of_give ((issue_next_iff ..).mp h).2 ha).2).symm

end

/-! The option checks (R203, R204). -/

theorem hasOpt_iff (opts mask : U16) : hasOpt opts mask = true ↔ OptSet opts mask := bne_iff_ne

theorem isSegList_iff (k : BufKind) : isSegList k = true ↔ k = .segList := by
  cases k <;> simp [isSegList]

/-- One row of R203: a bit of the options and a buffer kind. -/
theorem hasOpt_beq_isSegList (opts mask : U16) (k : BufKind) :
    (hasOpt opts mask == isSegList k) = true ↔ (OptSet opts mask ↔ k = .segList) := by
  rw [beq_iff_eq, Bool.eq_iff_iff, hasOpt_iff, isSegList_iff]

theorem kindsConsistent_iff (m : OptMasks) (opts : U16) (inKind outKind : BufKind) :
    kindsConsistent m opts inKind outKind = true ↔ KindsAgree m opts inKind outKind := by
  rw [kindsConsistent, KindsAgree, Bool.and_eq_true, hasOpt_beq_isSegList, hasOpt_beq_isSegList]

theorem requiredMissing_iff (opts mask : U16) (addr : U64) :
    requiredMissing opts mask addr = true ↔ ¬(OptSet opts mask → addr ≠ 0) := by
  simp [requiredMissing, hasOpt_iff]

theorem inflWorkspaceMissing_iff (m : OptMasks) (opts : U16) (f : InflFields) :
    inflWorkspaceMissing m opts f = true ↔ ¬InflAddressesPresent m opts f := by
  simp only [inflWorkspaceMissing, InflAddressesPresent, Bool.or_eq_true, requiredMissing_iff]
  tauto

theorem deflWorkspaceMissing_iff (m : OptMasks) (opts : U16) (f : DeflFields) :
    deflWorkspaceMissing m opts f = true ↔ ¬DeflAddressesPresent m opts f := by
  simp only [deflWorkspaceMissing, DeflAddressesPresent, Bool.or_eq_true, requiredMissing_iff]
  tauto

/-- Settles O42: the checks stand in the order of R274, the buffer kinds before the addresses. -/
theorem encodersRejectBadOptions : Obligations.EncodersRejectBadOptions := by
  unfold Obligations.EncodersRejectBadOptions
  constructor
  · intro s opts p hrole
    rw [exec_encInflAsiv_granted hrole, ← kindsConsistent_iff, ← inflWorkspaceMissing_iff]
    constructor
    · intro hk
      simp [hk]
    · intro hk hmissing
      simp [hk, hmissing]
  · intro s opts p hrole hbits
    rw [exec_encDeflAsiv_granted hrole, if_neg (Nat.not_lt.mpr hbits), ← kindsConsistent_iff,
      ← deflWorkspaceMissing_iff]
    constructor
    · intro hk
      simp [hk]
    · intro hk hmissing
      simp [hk, hmissing]

/-! The decoders. -/

/-- Settles O46: each decoder compares the tag first. -/
theorem decodersRejectWrongTag : Obligations.DecodersRejectWrongTag := by
  unfold Obligations.DecodersRejectWrongTag
  intro s cmd a
  refine ⟨fun hcmd => ⟨fun hrole => ?_, fun hrole => ?_⟩, fun hcmd => ⟨fun hrole => ?_, fun hrole => ?_⟩⟩
  · rw [exec_decInflAsv_granted hrole, if_pos hcmd, fail_eq]
  · rw [exec_decInflAsiv_granted hrole, if_pos hcmd, fail_eq]
  · rw [exec_decDeflAsv_granted hrole, if_pos hcmd, fail_eq]
  · rw [exec_decDeflAsiv_granted hrole, if_pos hcmd, fail_eq]

/-- The flags of `infl_stat` are its bits 0, 2, 3 and 7, `hdr_type` its bits 5 and 6 (R109, R210). -/
theorem inflStatOf_eq (v : Byte) :
    inflStatOf v =
      ⟨v.getLsbD 0, v.getLsbD 2, v.getLsbD 3, v.extractLsb' 5 2, v.getLsbD 7⟩ := by
  have hbit (i : Nat) (hi : i < 8) : hasFlag v (BitVec.twoPow 8 i) = v.getLsbD i := and_bit_ne_zero v i hi
  rw [← hbit 0 (by decide), ← hbit 2 (by decide), ← hbit 3 (by decide), ← hbit 7 (by decide)]
  rfl

/-- Settles O43: the status byte is decoded by `inflStatOf_eq`, the fields are those of `inflAsvFields`. -/
theorem decInflAsvReadsLayout : Obligations.DecInflAsvReadsLayout := by
  unfold Obligations.DecInflAsvReadsLayout
  rintro s _ a _ rfl hrole rfl
  rw [exec_decInflAsv_granted hrole, if_neg (not_not_intro rfl), inflStatOf_eq]
  rfl

/-- Settles O44: the fields are those of `deflAsvFields`. -/
theorem decDeflAsvReadsLayout : Obligations.DecDeflAsvReadsLayout := by
  unfold Obligations.DecDeflAsvReadsLayout
  rintro s _ a _ rfl hrole rfl
  rw [exec_decDeflAsv_granted hrole, if_neg (not_not_intro rfl)]
  rfl

/-! What a record of each decoder says of the bytes it was read from, field by field. -/

theorem inflAsivFields_eq_iff (o : OvlLayout) (a : List Byte) (f : InflFields) :
    inflAsivFields o a = f ↔
      PrefixAt o.pfx a f.inBuff f.inBuffLen f.inCrc32 f.outBuff f.outBuffLen f.inAdler32 f.inDict
        f.inDictLen ∧
      be64At a o.iasiv.scratch = f.scratch ∧ be32At a o.iasiv.scratchLen = f.scratchLen ∧
      be16At a o.iasiv.inHdrBits = f.inHdrBits ∧ byteAt a o.iasiv.hdrIb = f.hdrIb ∧
      byteAt a o.iasiv.scratchIb = f.scratchIb ∧ be64At a o.iasiv.outDict = f.outDict ∧
      be32At a o.iasiv.outDictLen = f.outDictLen := by
  cases f
  simp only [inflAsivFields, InflFields.mk.injEq, PrefixAt, and_assoc]

theorem deflAsivFields_eq_iff (o : OvlLayout) (a : List Byte) (f : DeflFields) :
    deflAsivFields o a = f ↔
      PrefixAt o.pfx a f.inBuff f.inBuffLen f.inCrc32 f.outBuff f.outBuffLen f.inAdler32 f.inDict
        f.inDictLen ∧
      be64At a o.dasiv.outDict = f.outDict ∧ be32At a o.dasiv.outDictLen = f.outDictLen ∧
      slice a o.dasiv.ibits 7 = f.ibits ∧ byteAt a o.dasiv.inumbits = f.inumbits := by
  cases f
  simp only [deflAsivFields, DeflFields.mk.injEq, PrefixAt, and_assoc, ibitsLen]

theorem inflAsvFields_eq_iff (o : OvlLayout) (a : List Byte) (r : InflResult) :
    inflAsvFields o a = r ↔
      be16At a o.iasv.outDictUsed = r.outDictUsed ∧ byteAt a o.iasv.copyblockLen = r.copyblockLen ∧
      byteAt a o.iasv.inflStat = r.inflStat ∧ be32At a o.iasv.hdrStart = r.hdrStart ∧
      byteAt a o.iasv.hdrStartBits = r.hdrStartBits ∧ be32At a o.iasv.outCrc32 = r.outCrc32 ∧
      be32At a o.iasv.outAdler32 = r.outAdler32 ∧ be32At a o.iasv.inpProcessed = r.inpProcessed ∧
      be32At a o.iasv.outpReturned = r.outpReturned ∧ byteAt a o.iasv.outDictOffs = r.outDictOffs := by
  cases r
  simp only [inflAsvFields, InflResult.mk.injEq]

theorem deflAsvFields_eq_iff (o : OvlLayout) (otailLen : Nat) (a : List Byte) (r : DeflResult) :
    deflAsvFields o otailLen a = r ↔
      be16At a o.dasv.outDictUsed = r.outDictUsed ∧ byteAt a o.dasv.onumbits = r.onumbits ∧
      be32At a o.dasv.outCrc32 = r.outCrc32 ∧ be32At a o.dasv.outAdler32 = r.outAdler32 ∧
      be32At a o.dasv.inpProcessed = r.inpProcessed ∧ be32At a o.dasv.outpReturned = r.outpReturned ∧
      slice a o.dasv.otail otailLen = r.otail := by
  cases r
  simp only [deflAsvFields, DeflResult.mk.injEq]

/-- Settles O45: the records are those of `inflAsivFields` and `deflAsivFields`. -/
theorem asivDecodersReadLayout : Obligations.AsivDecodersReadLayout := by
  unfold Obligations.AsivDecodersReadLayout
  constructor
  · rintro s _ a _ rfl hrole rfl
    obtain ⟨hpfx, -⟩ := (inflAsivFields_eq_iff s.cfg.ovl a _).mp rfl
    refine ⟨inflAsivFields s.cfg.ovl a, ?_, hpfx, rfl, rfl, rfl, rfl, rfl, rfl, rfl⟩
    rw [exec_decInflAsiv_granted hrole, if_neg (not_not_intro rfl), give_eq]
  · rintro s _ a _ rfl hrole rfl
    obtain ⟨hpfx, -⟩ := (deflAsivFields_eq_iff s.cfg.ovl a _).mp rfl
    refine ⟨deflAsivFields s.cfg.ovl a, ?_, hpfx, rfl, rfl, rfl, rfl⟩
    rw [exec_decDeflAsiv_granted hrole, if_neg (not_not_intro rfl), give_eq]

/-! Reading a fitting layout back, by the width of the field. -/

section
variable {len : Nat} {fs : List Field} {runs : List (Nat × List Byte)}
  (hfit : fieldsFit 0 len fs = true) (hruns : runs.map runField = fs) {o : Nat}
include hfit hruns

theorem byteAt_of_fit {b : Byte} (h : (o, [b]) ∈ runs) : byteAt (layOut len runs) o = b :=
  byteAt_of_slice _ o b (slice_of_fit hfit hruns _ h)

theorem be16At_of_fit {v : U16} (h : (o, toBe16 v) ∈ runs) : be16At (layOut len runs) o = v :=
  be16At_of_slice _ o v (slice_of_fit hfit hruns _ h)

theorem be32At_of_fit {v : U32} (h : (o, toBe32 v) ∈ runs) : be32At (layOut len runs) o = v :=
  be32At_of_slice _ o v (slice_of_fit hfit hruns _ h)

theorem be64At_of_fit {v : U64} (h : (o, toBe64 v) ∈ runs) : be64At (layOut len runs) o = v :=
  be64At_of_slice _ o v (slice_of_fit hfit hruns _ h)

/-- F-PFX, with which both ASIV overlays begin (R104). -/
theorem prefixAt_of_fit {p : PrefixLayout} {inBuff outBuff inDict : U64}
    {inBuffLen inCrc32 outBuffLen inAdler32 inDictLen : U32}
    (h : prefixRuns p inBuff inBuffLen inCrc32 outBuff outBuffLen inAdler32 inDict inDictLen ⊆ runs) :
    PrefixAt p (layOut len runs) inBuff inBuffLen inCrc32 outBuff outBuffLen inAdler32 inDict inDictLen := by
  simp only [prefixRuns, List.cons_subset] at h
  obtain ⟨h1, h2, h3, h4, h5, h6, h7, h8, -⟩ := h
  exact ⟨be64At_of_fit hfit hruns h1, be32At_of_fit hfit hruns h2, be32At_of_fit hfit hruns h3,
    be64At_of_fit hfit hruns h4, be32At_of_fit hfit hruns h5, be32At_of_fit hfit hruns h6,
    be64At_of_fit hfit hruns h7, be32At_of_fit hfit hruns h8⟩

end

/-! What an encoder laid out, the decoder of the other side reads (R218). -/

section
variable {c : Config} (hw : c.wf = true)
include hw

theorem inflAsivFields_inflAsivBytes (f : InflFields) : inflAsivFields c.ovl (inflAsivBytes c.ovl f) = f := by
  have hfit := wf_inflAsiv hw
  have hruns := map_runField_inflAsivRuns c.ovl f
  obtain ⟨hpfx, hrest⟩ := List.append_subset.mp (List.Subset.refl (inflAsivRuns c.ovl f))
  simp only [List.cons_subset] at hrest
  obtain ⟨hscratch, hscratchLen, hinHdrBits, hhdrIb, hscratchIb, houtDict, houtDictLen, -⟩ := hrest
  exact (inflAsivFields_eq_iff ..).mpr ⟨prefixAt_of_fit hfit hruns hpfx, be64At_of_fit hfit hruns hscratch,
    be32At_of_fit hfit hruns hscratchLen, be16At_of_fit hfit hruns hinHdrBits,
    byteAt_of_fit hfit hruns hhdrIb, byteAt_of_fit hfit hruns hscratchIb,
    be64At_of_fit hfit hruns houtDict, be32At_of_fit hfit hruns houtDictLen⟩

theorem deflAsivFields_deflAsivBytes (f : DeflFields) (hibits : f.ibits.length = 7) :
    deflAsivFields c.ovl (deflAsivBytes c.ovl f) = f := by
  have hfit := wf_deflAsiv hw
  have hruns := map_runField_deflAsivRuns c.ovl f hibits
  obtain ⟨hpfx, hrest⟩ := List.append_subset.mp (List.Subset.refl (deflAsivRuns c.ovl f))
  simp only [List.cons_subset] at hrest
  obtain ⟨houtDict, houtDictLen, hbits, hinumbits, -⟩ := hrest
  have hslice := slice_of_fit hfit hruns _ hbits
  simp only [hibits] at hslice
  exact (deflAsivFields_eq_iff ..).mpr ⟨prefixAt_of_fit hfit hruns hpfx, be64At_of_fit hfit hruns houtDict,
    be32At_of_fit hfit hruns houtDictLen, hslice, byteAt_of_fit hfit hruns hinumbits⟩

theorem inflAsvFields_inflAsvBytes (r : InflResult) : inflAsvFields c.ovl (inflAsvBytes c.ovl r) = r := by
  have hfit := wf_inflAsv hw
  have hruns := map_runField_inflAsvRuns c.ovl r
  have hall := List.Subset.refl (inflAsvRuns c.ovl r)
  rw [inflAsvRuns] at hall
  simp only [List.cons_subset] at hall
  obtain ⟨h1, h2, h3, h4, h5, h6, h7, h8, h9, h10, -⟩ := hall
  exact (inflAsvFields_eq_iff ..).mpr
    ⟨be16At_of_fit hfit hruns h1, byteAt_of_fit hfit hruns h2, byteAt_of_fit hfit hruns h3,
    be32At_of_fit hfit hruns h4, byteAt_of_fit hfit hruns h5, be32At_of_fit hfit hruns h6,
    be32At_of_fit hfit hruns h7, be32At_of_fit hfit hruns h8, be32At_of_fit hfit hruns h9,
    byteAt_of_fit hfit hruns h10⟩

theorem deflAsvFields_deflAsvBytes (r : DeflResult) (hotail : r.otail.length = c.otailLen) :
    deflAsvFields c.ovl c.otailLen (deflAsvBytes c.ovl r) = r := by
  have hfit := wf_deflAsv hw
  rw [← hotail] at hfit ⊢
  have hruns := map_runField_deflAsvRuns c.ovl r
  have hall := List.Subset.refl (deflAsvRuns c.ovl r)
  rw [deflAsvRuns] at hall
  simp only [List.cons_subset] at hall
  obtain ⟨h1, h2, h3, h4, h5, h6, h7, -⟩ := hall
  exact (deflAsvFields_eq_iff ..).mpr
    ⟨be16At_of_fit hfit hruns h1, byteAt_of_fit hfit hruns h2, be32At_of_fit hfit hruns h3,
    be32At_of_fit hfit hruns h4, be32At_of_fit hfit hruns h5, be32At_of_fit hfit hruns h6,
    slice_of_fit hfit hruns _ h7⟩

end

/-- Settles O48: the bytes are what the encoder lays out for its record, and the decoder reads that record. -/
theorem overlayRoundTrip : Obligations.OverlayRoundTrip := by
  unfold Obligations.OverlayRoundTrip
  intro s t u a hw hovl hotail ha
  refine ⟨fun opts p ht hrole => ?_, fun opts p ht hibits hrole => ?_, fun r ht hrole => ?_,
    fun r ht hlen hrole => ?_⟩
  · rw [exec_decInflAsiv_granted hrole, if_neg (not_not_intro rfl), ok_bytes_encInflAsiv ht ha, hovl,
      inflAsivFields_inflAsivBytes hw, give_eq]
  · rw [exec_decDeflAsiv_granted hrole, if_neg (not_not_intro rfl), ok_bytes_encDeflAsiv ht ha, hovl,
      deflAsivFields_deflAsivBytes hw _ hibits, give_eq]
  · refine ⟨inflStatOf r.inflStat, ?_⟩
    rw [exec_decInflAsv_granted hrole, if_neg (not_not_intro rfl), ok_bytes_encInflAsv ht ha, hovl,
      inflAsvFields_inflAsvBytes hw, give_eq]
  · rw [exec_decDeflAsv_granted hrole, if_neg (not_not_intro rfl), ok_bytes_encDeflAsv ht ha, hovl, hotail,
      deflAsvFields_deflAsvBytes hw r (hlen.trans hotail), give_eq]

/-! The encoders' layouts: each field is where the decoder reads it, and the rest is zero. -/

/-- Settles O40: `inflAsivFields_inflAsivBytes`, field by field. -/
theorem encInflAsivWritesLayout : Obligations.EncInflAsivWritesLayout := by
  unfold Obligations.EncInflAsivWritesLayout
  rintro s opts p _ hw rfl hrole hkinds haddr
  obtain ⟨hpfx, h1, h2, h3, h4, h5, h6, h7⟩ :=
    (inflAsivFields_eq_iff ..).mp (inflAsivFields_inflAsivBytes hw p.toInflFields)
  refine ⟨inflAsivBytes s.cfg.ovl p.toInflFields, ?_, length_layOut .., hpfx, h1, h2, h3, h4, h5, h6, h7,
    zeroOutside_of_fit (map_runField_inflAsivRuns ..)⟩
  have hpresent := mt (inflWorkspaceMissing_iff ..).mp (not_not_intro haddr)
  rw [exec_encInflAsiv_granted hrole, (kindsConsistent_iff ..).mpr hkinds, if_neg hpresent]
  rfl

/-- Bytes stored verbatim, one by one. -/
theorem byteAt_of_slice_eq {a bs : List Byte} {o n : Nat} (h : slice a o n = bs) {i : Nat} (hi : i < n) :
    byteAt a (o + i) = byteAt bs i := by
  rw [← h, byteAt_slice a o n i hi]

/-- Settles O41: `deflAsivFields_deflAsivBytes`, field by field. -/
theorem encDeflAsivWritesLayout : Obligations.EncDeflAsivWritesLayout := by
  unfold Obligations.EncDeflAsivWritesLayout
  rintro s opts p _ hw rfl hrole
  rw [exec_encDeflAsiv_granted hrole]
  refine ⟨fun hwide => if_pos hwide, fun hbits hibits hkinds haddr => ?_⟩
  obtain ⟨hpfx, h1, h2, hcarried, h3⟩ :=
    (deflAsivFields_eq_iff ..).mp (deflAsivFields_deflAsivBytes hw p.toDeflFields hibits)
  refine ⟨deflAsivBytes s.cfg.ovl p.toDeflFields, ?_, length_layOut .., hpfx, h1, h2,
    fun i hi => byteAt_of_slice_eq hcarried hi, h3, zeroOutside_of_fit (map_runField_deflAsivRuns _ _ hibits)⟩
  have hpresent := mt (deflWorkspaceMissing_iff ..).mp (not_not_intro haddr)
  rw [if_neg (Nat.not_lt.mpr hbits), (kindsConsistent_iff ..).mpr hkinds, if_neg hpresent]
  rfl

/-- Settles O47: `inflAsvFields_inflAsvBytes` and `deflAsvFields_deflAsvBytes`, field by field. -/
theorem asvEncodersWriteLayout : Obligations.AsvEncodersWriteLayout := by
  unfold Obligations.AsvEncodersWriteLayout
  constructor
  · rintro s r _ hw rfl hrole
    obtain ⟨h1, h2, h3, h4, h5, h6, h7, h8, h9, h10⟩ :=
      (inflAsvFields_eq_iff ..).mp (inflAsvFields_inflAsvBytes hw r)
    exact ⟨inflAsvBytes s.cfg.ovl r, exec_encInflAsv_granted hrole r, length_layOut .., h1, h2, h3, h4, h5, h6,
      h7, h8, h9, h10, zeroOutside_of_fit (map_runField_inflAsvRuns ..)⟩
  · rintro s r _ hw rfl hrole hotail
    obtain ⟨h1, h2, h3, h4, h5, h6, htail⟩ :=
      (deflAsvFields_eq_iff ..).mp (deflAsvFields_deflAsvBytes hw r hotail)
    exact ⟨deflAsvBytes s.cfg.ovl r, exec_encDeflAsv_granted hrole r, length_layOut .., h1, h2, h3, h4, h5, h6,
      fun i hi => byteAt_of_slice_eq htail hi, zeroOutside_of_fit (hotail ▸ map_runField_deflAsvRuns ..)⟩

/-! The bits of a byte array (R221). -/

/-- The first `n` bits depend on the bytes that hold them only. -/
theorem bitsOf_congr {a b : List Byte} {n : Nat} (h : ∀ i < (n + 7) / 8, byteAt a i = byteAt b i) :
    bitsOf a n = bitsOf b n := by
  refine List.map_congr_left fun j hj => ?_
  rw [h (j / 8) (by have := List.mem_range.mp hj; omega)]

/-- The bits behind `k` whole bytes are those of the bytes behind. -/
theorem bitsOf_add (bs : List Byte) (k m : Nat) :
    bitsOf bs (8 * k + m) = bitsOf bs (8 * k) ++ bitsOf (bs.drop k) m := by
  unfold bitsOf
  rw [List.range_add, List.map_append, List.map_map]
  refine congrArg _ (List.map_congr_left fun j _ => ?_)
  rw [Function.comp_apply, byteAt_drop, Nat.mul_add_div (by decide), Nat.mul_add_mod]

theorem carryEnabled_iff (c : Config) (onumbits k : Nat) :
    carryEnabled c onumbits k = true ↔
      onumbits ≤ 8 * c.otailLen ∧ 8 * k ≤ onumbits ∧ onumbits - 8 * k ≤ 56 := by
  rw [carryEnabled, Bool.and_eq_true, Bool.and_eq_true, decide_eq_true_iff, decide_eq_true_iff,
    decide_eq_true_iff, and_assoc]
  rfl

@[simp] theorem length_carryIbits (onumbits k : Nat) (otail : List Byte) :
    (carryIbits onumbits k otail).length = 7 := by
  rw [carryIbits, List.length_map, List.length_range, ibitsLen]

/-- A carried byte: a whole byte of `otail`, or 0x00 behind the last that holds a bit (R220). -/
theorem byteAt_carryIbits (onumbits k : Nat) (otail : List Byte) {i : Nat} (hi : i < 7) :
    byteAt (carryIbits onumbits k otail) i =
      if i < (onumbits - 8 * k + 7) / 8 then byteAt otail (k + i) else 0 :=
  byteAt_map_range 7 i _ hi

/-- The drained bits, then the carried ones, are the bits the call left over (R221). -/
theorem bitsOf_take_append_carryIbits {onumbits k : Nat} (otail : List Byte) (hk : 8 * k ≤ onumbits)
    (hrest : onumbits - 8 * k ≤ 56) :
    bitsOf (otail.take k) (8 * k) ++ bitsOf (carryIbits onumbits k otail) (onumbits - 8 * k) =
      bitsOf otail onumbits := by
  have hdrained : bitsOf (otail.take k) (8 * k) = bitsOf otail (8 * k) :=
    bitsOf_congr fun i hi => byteAt_take otail k i (by omega)
  have hcarried : bitsOf (carryIbits onumbits k otail) (onumbits - 8 * k) =
      bitsOf (otail.drop k) (onumbits - 8 * k) :=
    bitsOf_congr fun i hi => by rw [byteAt_carryIbits onumbits k otail (by omega), if_pos hi, byteAt_drop]
  rw [hdrained, hcarried, ← bitsOf_add, Nat.add_sub_cancel' hk]

/-- Settles O49: the carried count is below 256, so the byte that returns it holds it; the bits are those of
`bitsOf_take_append_carryIbits`. -/
theorem carryKeepsBitSequence : Obligations.CarryKeepsBitSequence := by
  unfold Obligations.CarryKeepsBitSequence
  intro s onumbits k otail hrole hotail
  rw [exec_carry_granted hrole, ← carryEnabled_iff]
  refine ⟨fun hfits hk hrest => ?_, fun hbeyond => if_neg hbeyond⟩
  have hinum : (BitVec.ofNat 8 (onumbits.toNat - 8 * k.toNat)).toNat = onumbits.toNat - 8 * k.toNat :=
    (BitVec.toNat_ofNat ..).trans (Nat.mod_eq_of_lt (by omega))
  refine ⟨_, _, _, (if_pos ((carryEnabled_iff ..).mpr ⟨hfits, hk, hrest⟩)).trans (give_eq ..), rfl,
    List.length_take_of_le (by omega), length_carryIbits .., hinum, ?_, ?_, ?_⟩
  all_goals rw [hinum]
  · intro i hi
    rw [byteAt_carryIbits _ _ _ (by omega), if_pos hi]
  · intro i hi hi7
    rw [byteAt_carryIbits _ _ _ hi7, if_neg (Nat.not_lt.mpr hi)]
  · exact bitsOf_take_append_carryIbits otail hk hrest

end Sys2Proof.Machine
end

section
/-! The Staging Ring Buffer, 43_staging_fifo.md rules R241 to R257: what FIFO_INIT, the pushes, the pops and the
counts answer and leave of the FIFO, and that they change nothing else. -/

namespace Sys2Proof.Machine

open Sys2Proof.Safety

/-! The little-endian forms PUSH32 and POP16 use (R63). -/

theorem toLe32_eq (v : U32) :
    toLe32 v = [v.extractLsb' 0 8, v.extractLsb' 8 8, v.extractLsb' 16 8, v.extractLsb' 24 8] := by
  simp [toLe32, toBe32, toBe16, extract_extract]

theorem le16_toNat (lo hi : Byte) : (le16 lo hi).toNat = lo.toNat + 256 * hi.toNat := by
  rw [le16, be16_toNat]
  omega

/-- Two neighbouring bytes of a number are 16 of its bits. -/
theorem le16_extract {n : Nat} (v : BitVec n) (o : Nat) :
    le16 (v.extractLsb' o 8) (v.extractLsb' (o + 8) 8) = v.extractLsb' o 16 := by
  have hsplit := be16_split (v.extractLsb' o 16)
  rwa [extract_extract v o 16 8 8 (by decide), extract_extract v o 16 0 8 (by decide)] at hsplit

/-! A run of bytes put, bytes dropped, and the FIFO that holds none. -/

theorem putAll_push (f : Fifo) (bs : List Byte) :
    (f.putAll bs).push = f.push + BitVec.ofNat 8 bs.length := by
  induction bs generalizing f with
  | nil => exact (BitVec.add_zero _).symm
  | cons b bs ih =>
    rw [Fifo.putAll, ih, put_push, List.length_cons]
    bv_omega

theorem putAll_pop (f : Fifo) (bs : List Byte) : (f.putAll bs).pop = f.pop := by
  induction bs generalizing f with
  | nil => rfl
  | cons b bs ih => rw [Fifo.putAll, ih, put_pop]

/-- The bytes put are the newest bytes held, in the order they were put. -/
theorem held_putAll (f : Fifo) (bs : List Byte) (h : f.used + bs.length ≤ 255) :
    (f.putAll bs).held = f.held ++ bs := by
  induction bs generalizing f with
  | nil => exact (List.append_nil _).symm
  | cons b bs ih =>
    rw [List.length_cons] at h
    have hroom : f.used < 255 := by omega
    rw [Fifo.putAll, ih _ (by rw [used_put f b hroom]; omega), held_put f b hroom, List.append_assoc,
      List.singleton_append]

/-- A slot at least as far ahead of the push cursor as the bytes put is not written. -/
theorem at_putAll_of_length_le (f : Fifo) (bs : List Byte) (i : Byte)
    (h : bs.length ≤ (i - f.push).toNat) : (f.putAll bs).at i = f.at i := by
  induction bs generalizing f with
  | nil => rfl
  | cons b bs ih =>
    rw [List.length_cons] at h
    have hne : i ≠ f.push := by bv_omega
    have hrest : bs.length ≤ (i - (f.put b).push).toNat := by
      rw [put_push]
      bv_omega
    rw [Fifo.putAll, ih _ hrest, at_put, if_neg hne]

/-- The two oldest bytes held, and what dropping both leaves. -/
theorem held_drop_two (f : Fifo) (h : 2 ≤ f.used) :
    f.held = f.at f.pop :: f.at (f.pop + 1) :: (f.drop 2).held := by
  have hused : 1 ≤ (f.drop 1).used := by
    rw [used_drop f 1 (show 1 ≤ f.used by omega)]
    exact Nat.le_sub_of_add_le h
  have hdrop : (f.drop 1).drop 1 = f.drop 2 := by
    rw [Fifo.drop, Fifo.drop, Fifo.drop, BitVec.add_assoc]
    rfl
  rw [held_drop_one f (by omega), held_drop_one _ hused, hdrop, at_drop, drop_pop]

theorem held_eq_nil_iff (f : Fifo) : f.held = [] ↔ f.push = f.pop := by
  rw [← List.length_eq_zero_iff, length_held, Fifo.used]
  constructor
  · intro h
    bv_omega
  · intro h
    simp [h]

/-! What an operation of the FIFO's owner does, behind the checks of its admission. -/

/-- The state after a FIFO operation that answered OK with `p` and left the FIFO `f`. -/
def State.staged (s : State) (f : Fifo) (p : Payload) : State :=
  { s with fifo := f, answer := some ⟨.ok, p⟩ }

@[simp] theorem staged_fifo (s : State) (f : Fifo) (p : Payload) : (s.staged f p).fifo = f := rfl

section
variable {s : State}

theorem isFifoOwner_staged (h : IsFifoOwner s) {f : Fifo} (hf : f.session = s.fifo.session) (p : Payload) :
    IsFifoOwner (s.staged f p) := by
  rw [IsFifoOwner, staged_fifo, hf]
  exact h

theorem exec_fifoInit_owner (h : IsFifoOwner s) :
    exec .fifoInit s =
      .next (s.staged { s.fifo with push := 0, pop := 0, store := Vector.replicate 256 0 } .empty) :=
  owner_eq s .fifoInit _ h (by decide)

theorem exec_push_owner (h : IsFifoOwner s) (b : Byte) :
    exec (.push b) s =
      if 255 - s.fifo.used < 1 then .next { s with answer := some ⟨.stagingOverflow, .empty⟩ }
      else .next (s.staged (s.fifo.put b) .empty) :=
  owner_eq s .push _ h (by decide)

theorem exec_push32_owner (h : IsFifoOwner s) (v : U32) :
    exec (.push32 v) s =
      if 255 - s.fifo.used < 4 then .next { s with answer := some ⟨.stagingOverflow, .empty⟩ }
      else .next (s.staged (s.fifo.putAll (toLe32 v)) .empty) :=
  owner_eq s .push32 _ h (by decide)

theorem exec_pop_owner (h : IsFifoOwner s) :
    exec .pop s =
      if s.fifo.used < 1 then .next { s with answer := some ⟨.stagingUnderflow, .empty⟩ }
      else .next (s.staged (s.fifo.drop 1) (.byte (s.fifo.at s.fifo.pop))) :=
  owner_eq s .pop _ h (by decide)

theorem exec_pop16_owner (h : IsFifoOwner s) :
    exec .pop16 s =
      if s.fifo.used < 2 then .next { s with answer := some ⟨.stagingUnderflow, .empty⟩ }
      else .next (s.staged (s.fifo.drop 2)
        (.half (le16 (s.fifo.at s.fifo.pop) (s.fifo.at (s.fifo.pop + 1))))) :=
  owner_eq s .pop16 _ h (by decide)

theorem exec_used_owner (h : IsFifoOwner s) :
    exec .used s = .next { s with answer := some ⟨.ok, .count s.fifo.used⟩ } :=
  owner_eq s .used _ h (by decide)

theorem exec_free_owner (h : IsFifoOwner s) :
    exec .free s = .next { s with answer := some ⟨.ok, .count (255 - s.fifo.used)⟩ } :=
  owner_eq s .free _ h (by decide)

/-! The pushes with room, and POP16 in terms of the bytes held. -/

theorem exec_push_of_room (h : IsFifoOwner s) (b : Byte) (hroom : s.fifo.used ≤ 254) :
    exec (.push b) s = .next (s.staged (s.fifo.put b) .empty) :=
  (exec_push_owner h b).trans (if_neg (by omega))

/-- A push that follows other operations of the FIFO's owner. -/
theorem exec_push_staged (h : IsFifoOwner s) {f : Fifo} (p : Payload) (b : Byte)
    (hf : f.session = s.fifo.session) (hroom : f.used ≤ 254) :
    exec (.push b) (s.staged f p) = .next (s.staged (f.put b) .empty) :=
  exec_push_of_room (isFifoOwner_staged h hf p) b hroom

/-- After each push there is still room for the next, and the four put what `putAll` puts. -/
theorem exec_four_pushes (h : IsFifoOwner s) (b0 b1 b2 b3 : Byte) (hroom : s.fifo.used ≤ 251) :
    ∃ u1 u2 u3, exec (.push b0) s = .next u1 ∧ exec (.push b1) u1 = .next u2 ∧
      exec (.push b2) u2 = .next u3 ∧
      exec (.push b3) u3 = .next (s.staged (s.fifo.putAll [b0, b1, b2, b3]) .empty) := by
  have hused1 := used_put s.fifo b0 (by omega)
  have hused2 := used_put (s.fifo.put b0) b1 (by omega)
  have hused3 := used_put ((s.fifo.put b0).put b1) b2 (by omega)
  exact ⟨_, _, _, exec_push_of_room h b0 (by omega), exec_push_staged h .empty b1 rfl (by omega),
    exec_push_staged h .empty b2 rfl (by omega), exec_push_staged h .empty b3 rfl (by omega)⟩

theorem exec_push32_of_room (h : IsFifoOwner s) (v : U32) (hroom : s.fifo.used ≤ 251) :
    exec (.push32 v) s = .next (s.staged (s.fifo.putAll (toLe32 v)) .empty) :=
  (exec_push32_owner h v).trans (if_neg (by omega))

theorem exec_pop16_of_held (h : IsFifoOwner s) {lo hi : Byte} {bs : List Byte}
    (hheld : s.fifo.held = lo :: hi :: bs) :
    exec .pop16 s = .next (s.staged (s.fifo.drop 2) (.half (le16 lo hi))) ∧
      (s.fifo.drop 2).held = bs := by
  have hused : s.fifo.used = bs.length + 2 := by
    rw [← length_held, hheld, List.length_cons, List.length_cons]
  have hsplit := held_drop_two s.fifo (by omega)
  rw [hheld] at hsplit
  obtain ⟨rfl, htail⟩ := List.cons.inj hsplit
  obtain ⟨rfl, rfl⟩ := List.cons.inj htail
  exact ⟨(exec_pop16_owner h).trans (if_neg (by omega)), rfl⟩

end

/-- Settles O50: the cursors and the store are written out in the FIFO that FIFO_INIT leaves. -/
theorem fifoInitEmpties : Obligations.FifoInitEmpties := by
  unfold Obligations.FifoInitEmpties
  intro s howner
  exact ⟨_, exec_fifoInit_owner howner, rfl, rfl, fun i => Vector.getElem_replicate i.isLt,
    (held_eq_nil_iff _).mpr rfl, rfl, rfl⟩

/-- Settles O51: `held_put` for the bytes held, `at_put` for the store. -/
theorem pushAppendsByte : Obligations.PushAppendsByte := by
  unfold Obligations.PushAppendsByte
  intro s b howner hroom
  exact ⟨_, exec_push_of_room howner b hroom, held_put _ b (by omega), rfl, rfl,
    (at_put ..).trans (if_pos rfl), fun i hi => (at_put ..).trans (if_neg hi), rfl, rfl⟩

/-- Settles O52: PUSH32 puts the four bytes of `toLe32_eq`, and the lemmas about `putAll` say the rest. -/
theorem push32AppendsLittleEndian : Obligations.Push32AppendsLittleEndian := by
  unfold Obligations.Push32AppendsLittleEndian
  intro s v howner hroom
  refine ⟨_, exec_push32_of_room howner v hroom, ?_, putAll_push .., putAll_pop ..,
    fun i hi => at_putAll_of_length_le s.fifo (toLe32 v) i hi, putAll_session .., rfl⟩
  rw [← toLe32_eq]
  exact held_putAll s.fifo (toLe32 v) (by rw [length_toLe32]; omega)

/-- Settles O53: `held_drop_one` names the oldest byte, and `drop` moves the pop cursor only. -/
theorem popRemovesOldest : Obligations.PopRemovesOldest := by
  unfold Obligations.PopRemovesOldest
  intro s howner hused
  exact ⟨_, _, (exec_pop_owner howner).trans (if_neg (Nat.not_lt.mpr hused)), held_drop_one s.fifo hused,
    rfl, rfl⟩

/-- Settles O54: `held_drop_two` names the two oldest bytes, and `le16` puts the first below the second. -/
theorem pop16RemovesTwo : Obligations.Pop16RemovesTwo := by
  unfold Obligations.Pop16RemovesTwo
  intro s howner hused
  exact ⟨_, _, _, _, (exec_pop16_owner howner).trans (if_neg (Nat.not_lt.mpr hused)),
    held_drop_two s.fifo hused, le16_toNat .., rfl, rfl⟩

/-- Settles O55: the cursors' distance counts the bytes held, and is below 256. -/
theorem usedAndFreeCount : Obligations.UsedAndFreeCount := by
  unfold Obligations.UsedAndFreeCount
  intro s howner
  exact ⟨s.fifo.used, exec_used_owner howner, exec_free_owner howner, (length_held _).symm,
    Nat.le_of_lt_succ (used_lt _), rfl⟩

/-- Settles O56: each operation counts the bytes held before it writes anything. -/
theorem fifoRejectsWithoutMutation : Obligations.FifoRejectsWithoutMutation := by
  unfold Obligations.FifoRejectsWithoutMutation
  intro s howner
  rw [length_held]
  exact ⟨fun b hfull => (exec_push_owner howner b).trans (if_pos hfull),
    fun v hfull => (exec_push32_owner howner v).trans (if_pos hfull),
    fun hempty => (exec_pop_owner howner).trans (if_pos hempty),
    fun hshort => (exec_pop16_owner howner).trans (if_pos hshort)⟩

/-- Settles O57: the FIFO that four pushes leave is `putAll` of their bytes, and `toLe32_eq` lists PUSH32's. -/
theorem push32IsFourPushes : Obligations.Push32IsFourPushes := by
  unfold Obligations.Push32IsFourPushes
  intro s v howner hroom
  have hpush32 := exec_push32_of_room howner v hroom
  rw [toLe32_eq] at hpush32
  obtain ⟨u1, u2, u3, hpush1, hpush2, hpush3, hpush4⟩ := exec_four_pushes howner (v.extractLsb' 0 8)
    (v.extractLsb' 8 8) (v.extractLsb' 16 8) (v.extractLsb' 24 8) hroom
  exact ⟨_, u1, u2, u3, _, hpush32, hpush1, hpush2, hpush3, hpush4, rfl⟩

/-- Settles O58: PUSH32 leaves exactly the four bytes of `toLe32_eq` held, and each POP16 takes two of them. -/
theorem push32ThenPop16RoundTrip : Obligations.Push32ThenPop16RoundTrip := by
  unfold Obligations.Push32ThenPop16RoundTrip
  intro s v howner hempty
  have hnone : s.fifo.held = [] := (held_eq_nil_iff _).mpr hempty
  have hused : s.fifo.used = 0 := by rw [← length_held, hnone, List.length_nil]
  have hfour : (s.fifo.putAll (toLe32 v)).held =
      [v.extractLsb' 0 8, v.extractLsb' 8 8, v.extractLsb' 16 8, v.extractLsb' 24 8] := by
    rw [held_putAll _ _ (by rw [hused, length_toLe32]; decide), hnone, List.nil_append, toLe32_eq]
  have hsession := putAll_session s.fifo (toLe32 v)
  obtain ⟨hpopLow, htwo⟩ := exec_pop16_of_held (isFifoOwner_staged howner hsession .empty) hfour
  have hsessionLow : ((s.fifo.putAll (toLe32 v)).drop 2).session = s.fifo.session := hsession
  obtain ⟨hpopHigh, hzero⟩ := exec_pop16_of_held (isFifoOwner_staged howner hsessionLow (.half _)) htwo
  refine ⟨_, _, _, exec_push32_of_room howner v (by omega), hpopLow, hpopHigh, ?_, ?_, ?_⟩
  · rw [← le16_extract v 0]
    rfl
  · rw [← le16_extract v 16]
    rfl
  · exact beq_iff_eq.mpr ((held_eq_nil_iff _).mp hzero)

end Sys2Proof.Machine
end

section
/-! Errors and roles, 60_exceptions.md: the roles that may issue an operation (R290), and what an operation
delivers to its caller: which status (R271), and that a failure has changed no state (R273). -/

namespace Sys2Proof.Machine

open Sys2Proof.Safety

/-! Roles. -/

/-- The codes R290's table gives each role. -/
def roleCodes : Role → List Byte
  | .sw => [0x10, 0x20, 0x21, 0x22, 0x23, 0x24, 0x25, 0x26, 0x27, 0x40, 0x41, 0x42, 0x43, 0x44]
  | .hw => [0x10, 0x27, 0x30, 0x31, 0x46, 0x47, 0x48, 0x49]
  | .owner => [0x50, 0x51, 0x52, 0x53, 0x54, 0x55, 0x56]

/-- `rolesOf` gives a role the operations R290's table lists for it. -/
theorem mem_roleCodes_iff (op : Opcode) (r : Role) :
    opcodeByte OpCodes.default op ∈ roleCodes r ↔ r ∈ rolesOf op := by
  cases op <;> cases r <;> decide

/-- Every instruction checks its issuer's role before anything else. -/
theorem exec_eq_issue (i : Instr) (s : State) : ∃ k, exec i s = issue s (instrOpcode i) k := by
  cases i <;> exact ⟨_, rfl⟩

/-- An operation that R290's table does not list for its issuer's role is refused. -/
theorem exec_refused_of_not_mem_roleCodes {i : Instr} {s : State} {r : Role} (hr : roleOf s.issuer = r)
    (hi : opcodeByte OpCodes.default (instrOpcode i) ∉ roleCodes r) :
    exec i s = .refused .roleNotGranted := by
  obtain ⟨k, hk⟩ := exec_eq_issue i s
  rw [hk, issue_refused]
  rwa [RoleGranted, hr, ← mem_roleCodes_iff]

/-- Settles O6: `exec_refused_of_not_mem_roleCodes` at each of the three roles. -/
theorem ungrantedRoleIsRefused : Obligations.UngrantedRoleIsRefused := by
  unfold Obligations.UngrantedRoleIsRefused
  intro i s
  refine ⟨fun t hs => ?_, fun hs => ?_, fun n hs => ?_⟩
  · exact exec_refused_of_not_mem_roleCodes (r := .sw) (by rw [hs]; rfl)
  · exact exec_refused_of_not_mem_roleCodes (r := .hw) (by rw [hs]; rfl)
  · exact exec_refused_of_not_mem_roleCodes (r := .owner) (by rw [hs]; rfl)

/-! Deliveries. -/

/-- The state in which operation `op`, started in `s`, has delivered its answer, by the kind of the answer. -/
inductive Delivered (op : Opcode) (s : State) : State → Prop
  /-- Success, in whatever state the operation has reached. -/
  | done (u : State) (p : Payload) : Delivered op s { u with answer := some ⟨.ok, p⟩ }
  /-- RESULT of a completed descriptor, with the status R179 gives: R273 does not speak of its state. -/
  | result (u : State) (c : Config) (rc attn : U16) (p : Payload) (hop : op = .result) :
      Delivered op s { u with answer := some ⟨resultStatus c rc attn, p⟩ }
  /-- The comparison of a verify operation, which may have taken a draw. -/
  | verified (ok : Bool) (n : Nat) (hop : Status.integrityError ∈ statusesOf op) :
      Delivered op s { s with answer := some (verifyAnswer ok), draws := n }
  /-- `fail e`. -/
  | failed (e : Status) (he : e ∈ statusesOf op) : Delivered op s { s with answer := some ⟨e, .empty⟩ }

/-- An outcome of operation `op`, started in `s`, is no next state or one with the answer delivered. -/
def Delivers (op : Opcode) (s : State) (o : Out) : Prop := ∀ t, o = .next t → Delivered op s t

section
variable {op : Opcode} {s : State}

/-! The checks and the branches of an operation keep `Delivers`. -/

theorem Delivers.issue {op' : Opcode} {k : Out} (h : Delivers op s k) : Delivers op s (issue s op' k) :=
  fun t ht => h t ((issue_next_iff ..).mp ht).2

theorem Delivers.onDescriptor {d : Byte} {k : Desc → Out} (h : ∀ x, Delivers op s (k x)) :
    Delivers op s (onDescriptor s d k) := fun t ht => by
  obtain ⟨x, -, -, -, hk⟩ := (onDescriptor_next_iff ..).mp ht
  exact h x t hk

theorem Delivers.onFifo {k : Out} (h : Delivers op s k) : Delivers op s (onFifo s k) :=
  fun t ht => h t ((onFifo_next_iff ..).mp ht).2

theorem Delivers.ite {p : Prop} [Decidable p] {k k' : Out} (h : Delivers op s k) (h' : Delivers op s k') :
    Delivers op s (if p then k else k') := by
  split
  · exact h
  · exact h'

theorem Delivers.refused {r : Refusal} : Delivers op s (.refused r) :=
  fun _ ht => nomatch ht

/-! The ways an operation answers; that R271's table lists a failure is looked up where the operation is known. -/

theorem Delivers.ok {u : State} {p : Payload} : Delivers op s (u.give .ok p) := by
  rintro _ ⟨⟩
  exact .done u p

theorem Delivers.fail {e : Status}
    (he : e ∈ statusesOf op := by simp [statusesOf, instrOpcode]) : Delivers op s (s.fail e) := by
  rintro _ ⟨⟩
  exact .failed e he

theorem Delivers.resultStatus {u : State} {c : Config} {rc attn : U16} {p : Payload} :
    Delivers .result s (u.give (resultStatus c rc attn) p) := by
  rintro _ ⟨⟩
  exact .result u c rc attn p rfl

theorem Delivers.verify {ok : Bool}
    (hop : Status.integrityError ∈ statusesOf op := by simp [statusesOf, instrOpcode]) :
    Delivers op s (s.giveVerify ok) := by
  rintro _ ⟨⟩
  exact .verified ok s.draws hop

theorem Delivers.verifyDraw {ok : Bool}
    (hop : Status.integrityError ∈ statusesOf op := by simp [statusesOf, instrOpcode]) :
    Delivers op s (s.nextDraw.giveVerify ok) := by
  rintro _ ⟨⟩
  exact .verified ok (s.draws + 1) hop

end

/-- What each instruction delivers, branch by branch. -/
theorem exec_delivers (i : Instr) (s : State) : Delivers (instrOpcode i) s (exec i s) := by
  cases i with
  | crc16 | encInflAsv | encDeflAsv => exact .issue .ok
  | format => exact .issue <| .onDescriptor fun _ => .ite (.ite .fail .ok) .refused
  | submitMarker => exact .issue <| .onDescriptor fun _ => .ite .refused .ok
  | purgeMarker | hwFetch | hwComplete => exact .issue <| .onDescriptor fun _ => .ite .ok .refused
  | isFetched => exact .issue <| .onDescriptor fun _ => .ok
  | isCompleted => exact .issue <| .onDescriptor fun _ => .ite .ok .ok
  | verifyVariantCrc =>
    exact .issue <| .onDescriptor fun _ => .ite .verifyDraw .verify
  | result => exact .issue <| .onDescriptor fun _ => .ite .resultStatus .fail
  | verifyInvariantCrc => exact .issue <| .onDescriptor fun _ => .ite .verify .refused
  | encInflAsiv => exact .issue <| .ite .fail <| .ite .fail .ok
  | encDeflAsiv =>
    exact .issue <| .ite .refused <| .ite .fail <| .ite .fail .ok
  | decInflAsv | decDeflAsv | decInflAsiv | decDeflAsiv => exact .issue <| .ite .fail .ok
  | carry => exact .issue <| .ite .ok .refused
  | fifoInit | used | free => exact .issue <| .onFifo .ok
  | push | push32 | pop | pop16 => exact .issue <| .onFifo <| .ite .fail .ok

/-! What a delivery says of the answer and of the state. -/

/-- A completed command counts as failed or not (R179). -/
theorem resultStatus_eq_ok_or (c : Config) (rc attn : U16) :
    resultStatus c rc attn = .ok ∨ resultStatus c rc attn = .operationFailed := by
  unfold resultStatus
  split
  · exact .inl rfl
  · exact .inr rfl

/-- R271's table lets every operation succeed. -/
theorem ok_mem_statusesOf (op : Opcode) : Status.ok ∈ statusesOf op := by
  cases op <;> decide

/-- A delivered answer has a status that R271's table gives the operation. -/
theorem Delivered.status_mem {op : Opcode} {s t : State} (h : Delivered op s t) :
    ∃ a, t.answer = some a ∧ a.status ∈ statusesOf op := by
  cases h with
  | done u p => exact ⟨_, rfl, ok_mem_statusesOf op⟩
  | result u c rc attn p hop =>
    subst hop
    refine ⟨_, rfl, ?_⟩
    obtain hst | hst := resultStatus_eq_ok_or c rc attn
    all_goals simp [hst, statusesOf]
  | verified ok n hop =>
    cases ok with
    | true => exact ⟨_, rfl, ok_mem_statusesOf op⟩
    | false => exact ⟨_, rfl, hop⟩
  | failed e he => exact ⟨_, rfl, he⟩

/-- A delivered failure, RESULT's report of a failed command apart, has changed the answer and the draw counter
only (R273); it returns nothing besides the status unless it is a verify operation's mismatch. -/
theorem Delivered.unchanged_of_failure {op : Opcode} {s t : State} {e : Status} {p : Payload}
    (h : Delivered op s t) (ha : t.answer = some ⟨e, p⟩) (hok : e ≠ .ok) (hfail : e ≠ .operationFailed) :
    t = { s with answer := some ⟨e, p⟩, draws := t.draws } ∧ (e ≠ .integrityError → p = .empty) := by
  cases h with
  | done u q =>
    cases ha
    exact absurd rfl hok
  | result u c rc attn q hop =>
    cases ha
    obtain hst | hst := resultStatus_eq_ok_or c rc attn
    · exact absurd hst hok
    · exact absurd hst hfail
  | verified ok n hop =>
    cases ok with
    | true =>
      cases ha
      exact absurd rfl hok
    | false =>
      cases ha
      exact ⟨rfl, fun hne => absurd rfl hne⟩
  | failed e' he =>
    cases ha
    exact ⟨rfl, fun _ => rfl⟩

/-- Settles O17: what `exec_delivers` says of an instruction that has failed. -/
theorem failedOperationsChangeNothing : Obligations.FailedOperationsChangeNothing := by
  unfold Obligations.FailedOperationsChangeNothing
  exact fun i s t e p h => (exec_delivers i s t h).unchanged_of_failure

/-- Settles O18: the status is one of the table by `exec_delivers`, and codes without a repetition tell the
statuses apart. -/
theorem statusesAreThoseOfTheErrorTable : Obligations.StatusesAreThoseOfTheErrorTable := by
  unfold Obligations.StatusesAreThoseOfTheErrorTable
  intro i s t h
  obtain ⟨a, ha, hst⟩ := (exec_delivers i s t h).status_mem
  exact ⟨a, ha, hst, fun hk e he => statusCode_injective hk he⟩

end Sys2Proof.Machine
end

section
/-! What is fixed before RESET, 70_reset_and_hazards.md: no step changes the configuration (R316), the number of
descriptors and their bases (R315), or, as the model fixes them, threads and the FIFO's owner (log entry 15). -/

namespace Sys2Proof.Machine

open Sys2Proof.Safety

theorem fixedPartsKept_of_descs_eq {s t : State} (hcfg : t.cfg = s.cfg)
    (hsession : t.fifo.session = s.fifo.session) (hdescs : t.descs = s.descs) : FixedPartsKept s t :=
  ⟨hcfg, hsession, by rw [hdescs]⟩

/-- A descriptor's record may be replaced by one with the same base and thread. -/
theorem map_fixed_set_of_eq {ds : List Desc} {d : Nat} {x y : Desc} (hx : ds[d]? = some x)
    (hy : (y.base, y.thread) = (x.base, x.thread)) :
    (ds.set d y).map (fun z => (z.base, z.thread)) = ds.map fun z => (z.base, z.thread) := by
  obtain ⟨hlt, rfl⟩ := List.getElem?_eq_some_iff.mp hx
  rw [List.map_set, hy, ← List.map_set (f := fun z : Desc => (z.base, z.thread)), List.set_getElem_self]

/-- No effect moves a descriptor or hands it to another thread: FORMAT, an observation and HW_FETCH replace its
record by one that differs in ghost flags or the snapshot. Nor does one give the FIFO another owner. -/
theorem Effect.fixedPartsKept {s t : State} (h : Effect s t) : FixedPartsKept s t := by
  cases h with
  | answered | drawn | submitted | purged | completed => exact fixedPartsKept_of_descs_eq rfl rfl rfl
  | staged f a hr hs => exact fixedPartsKept_of_descs_eq rfl hs rfl
  | formatted d x img a hr hx | fetched d x draws a hr hx =>
    exact ⟨rfl, rfl, map_fixed_set_of_eq hx rfl⟩
  | observed d x a hr hx =>
    rw [observeDone_eq s d x hx]
    exact ⟨rfl, rfl, map_fixed_set_of_eq hx rfl⟩

/-- Settles O8: a step is idle or has one of the effects of `Effect`, and taking the request touches none of the
fixed parts. -/
theorem stepKeepsFixedParts : Obligations.StepKeepsFixedParts := by
  unfold Obligations.StepKeepsFixedParts
  intro s t h
  obtain rfl | ⟨r, rest, -, heff⟩ := step_effect s t h
  · exact fixedPartsKept_of_descs_eq rfl rfl rfl
  · have hkept : FixedPartsKept (s.take r rest) t := heff.fixedPartsKept
    exact hkept

end Sys2Proof.Machine
end
